-- ==== Sys2Proof/Word.lean ====
section
/-! DEFINITION. The word types of the TSD: 32-bit words (20_memory.md R65), 12-bit register-space
word addresses (R60), and the bytes of a byte transport (R65). -/

namespace Sys2Proof

/-- One 32-bit word: a command word, a register value, a port value, an output word (R65). -/
abbrev Word := BitVec 32

/-- One byte of a byte-serial transport outside the TSD (R65). -/
abbrev Byte := BitVec 8

/-- A register-space word address, 0x000 .. 0xFFF (R60). -/
abbrev Addr := BitVec 12

end Sys2Proof
end

