-- ==== Sys2Proof/Syntax.lean ====
section
/-! DEFINITION. The commands of the TSD, one constructor per row of spec/opcode_table.json
(30_encoding.md R83), the register names of the register map (20_memory.md R63), and the source
commands of the assembler (30_encoding.md R86, R87). -/

namespace Sys2Proof

/-- The commands (R83). Every operand has the width of its field (R82), so every value of the type
is a command the TSD accepts; a unit that does not exist or an unmapped address is a well-formed
command too (R84). -/
inductive Instr where
  /-- NOP (R242). -/
  | nop
  /-- TICK (R210). -/
  | tick
  /-- NOTE_ON unit, note, vel (R243). DEDUCED (log 11): the velocity is carried here and has no effect;
  safe. -/
  | noteOn (unit : BitVec 4) (note : BitVec 7) (vel : BitVec 7)
  /-- NOTE_OFF unit, note, vel (R243). -/
  | noteOff (unit : BitVec 4) (note : BitVec 7) (vel : BitVec 7)
  /-- WRITE addr, data: two words (R244). -/
  | write (addr : Addr) (data : Word)
  /-- READ addr (R246). -/
  | read (addr : Addr)
  /-- Reserved opcode 0x6 (R248). -/
  | rsvd6
  /-- Reserved opcode 0x7 (R248). -/
  | rsvd7
  /-- Reserved opcode 0x8 (R248). -/
  | rsvd8
  /-- Reserved opcode 0x9 (R248). -/
  | rsvd9
  /-- Reserved opcode 0xA (R248). -/
  | rsvdA
  /-- Reserved opcode 0xB (R248). -/
  | rsvdB
  /-- Reserved opcode 0xC (R248). -/
  | rsvdC
  /-- Reserved opcode 0xD (R248). -/
  | rsvdD
  /-- Reserved opcode 0xE (R248). -/
  | rsvdE
  /-- Reserved opcode 0xF (R248). -/
  | rsvdF
deriving DecidableEq, Repr

/-- The registers of a voice bank outside its voices (R63). -/
inductive BankReg where
  | wave | attackN | decayN | sustain | releaseN | notecnt
deriving DecidableEq, Repr

/-- The registers of one voice (R63). -/
inductive VoiceReg where
  | vstat | phase | level | ts | ecnt | estep | etgt
deriving DecidableEq, Repr

/-- The registers of a hat lane (R63). -/
inductive HatReg where
  | trigNote | hdecayN | b0 | b1 | b2 | a1 | a2 | seed
  | estat | hlevel | hcnt | hstep | x1 | x2 | y1 | y2
deriving DecidableEq, Repr

/-- A register of the register map with its indices (R63). -/
inductive Reg where
  | cfg
  | bank (b : Nat) (r : BankReg)
  | voice (b v : Nat) (r : VoiceReg)
  | hat (h : Nat) (r : HatReg)
  | route (s : Nat)
  | outlast (c : Nat)
deriving DecidableEq, Repr

/-- A source command of the assembler, with its operands as the programmer writes them (R86):
numbers of any size, which the assembler refuses where they do not fit (`Cmd.wellFormed`). -/
inductive Cmd where
  | nop
  | tick
  /-- `NOTE_ON u, note, vel`; with no `vel`, the form `NOTE_ON u, note`. -/
  | noteOn (u note : Nat) (vel : Option Nat)
  /-- `NOTE_OFF u, note, vel`; with no `vel`, the form `NOTE_OFF u, note`. -/
  | noteOff (u note : Nat) (vel : Option Nat)
  | write (addr : Nat) (data : Word)
  | read (addr : Nat)
  /-- `.word w`: the raw word. -/
  | word (w : Word)
deriving DecidableEq, Repr

/-- The pseudo-commands (R87). -/
inductive Pseudo where
  | ticks (n : Nat)
  | setAdsr (b : Nat) (a d s r : Word)
  | setWave (b : Nat) (w : Word)
  | setRoute (s : Nat) (c : Word)
  | setRouteAll (s : Nat)
  | setBiquad (h : Nat) (b0 b1 b2 a1 a2 : Word)
  | setHat (h : Nat) (note n : Word)
deriving DecidableEq, Repr

end Sys2Proof
end

