-- ==== Sys2Proof/WellFormed.lean ====
section
/-! DEFINITION. What the assembler checks of a source command (30_encoding.md R86: "An assembler
refuses u > 15, note > 127, vel > 127 and addr > 0xFFF"). A command of type `Instr` needs no check:
each of its operands has exactly the width of its field, and every value of a field is legal (R82,
R84). -/

namespace Sys2Proof

/-- Why the assembler refuses a source command (R86). Raised by `Cmd.check` only: the TSD itself
never sees such a command. Safe: nothing is assembled. -/
inductive AsmError where
  | unitTooLarge | noteTooLarge | velTooLarge | addrTooLarge
deriving DecidableEq, Repr

/-- The first limit of R86 that the operands of a NOTE_ON or NOTE_OFF exceed; a velocity that is not
written exceeds none. -/
def noteOperandsError (u note : Nat) (vel : Option Nat) : Option AsmError :=
  if 15 < u then some .unitTooLarge
  else if 127 < note then some .noteTooLarge
  else if vel.any (fun v => decide (127 < v)) then some .velTooLarge
  else none

/-- Whether an address exceeds the limit of R86. -/
def addrError (a : Nat) : Option AsmError :=
  if 0xFFF < a then some .addrTooLarge else none

/-- The limit of R86 that a source command exceeds, if any. -/
def Cmd.error : Cmd → Option AsmError
  | .nop => none
  | .tick => none
  | .noteOn u n v => noteOperandsError u n v
  | .noteOff u n v => noteOperandsError u n v
  | .write a _ => addrError a
  | .read a => addrError a
  | .word _ => none

/-- A source command that the assembler accepts. -/
def Cmd.wellFormed (c : Cmd) : Bool := c.error.isNone

end Sys2Proof
end

