-- ==== Sys2Proof/Decode.lean ====
section
/-! DEFINITION. Decoding of command words (30_encoding.md R80 to R84), the encoder, the byte order of
a byte transport (20_memory.md R65), and the assembler with the register addresses (30_encoding.md
R86, R87; 20_memory.md R63). -/

namespace Sys2Proof

/-! ## Fields (R82) -/

/-- OPC = bits [31:28]. -/
def opcField (w : Word) : BitVec 4 := w.extractLsb' 28 4

/-- UNIT = bits [27:24]. -/
def unitField (w : Word) : BitVec 4 := w.extractLsb' 24 4

/-- VEL = bits [14:8]. -/
def velField (w : Word) : BitVec 7 := w.extractLsb' 8 7

/-- NOTE = bits [6:0]. -/
def noteField (w : Word) : BitVec 7 := w.extractLsb' 0 7

/-- ADDR = bits [11:0]. -/
def addrField (w : Word) : Addr := w.extractLsb' 0 12

/-! ## Decoder -/

/-- Why no whole command can be read from the words at hand. Raised by `decode`. Safe: `noWord`
means the port is empty, `noData` that a WRITE's data word has not arrived; no header word is ever
refused (R84, R270). -/
inductive DecodeError where
  /-- There is no word. -/
  | noWord
  /-- A WRITE header for this address with no word after it. -/
  | noData (addr : Addr)
deriving DecidableEq, Repr

/-- Read one command from the front of a list of words (R80, R83): the command and the words after
it. Bits outside the fields of the format are ignored (R84). -/
def decode : List Word → Except DecodeError (Instr × List Word)
  | [] => .error .noWord
  | w :: rest =>
    match (opcField w).toNat with
    | 0x0 => .ok (.nop, rest)
    | 0x1 => .ok (.tick, rest)
    | 0x2 => .ok (.noteOn (unitField w) (noteField w) (velField w), rest)
    | 0x3 => .ok (.noteOff (unitField w) (noteField w) (velField w), rest)
    | 0x4 =>
      match rest with
      | [] => .error (.noData (addrField w))
      | d :: rest' => .ok (.write (addrField w) d, rest')
    | 0x5 => .ok (.read (addrField w), rest)
    | 0x6 => .ok (.rsvd6, rest)
    | 0x7 => .ok (.rsvd7, rest)
    | 0x8 => .ok (.rsvd8, rest)
    | 0x9 => .ok (.rsvd9, rest)
    | 0xA => .ok (.rsvdA, rest)
    | 0xB => .ok (.rsvdB, rest)
    | 0xC => .ok (.rsvdC, rest)
    | 0xD => .ok (.rsvdD, rest)
    | 0xE => .ok (.rsvdE, rest)
    | _ => .ok (.rsvdF, rest)      -- OPC has 4 bits: only 0xF is left

/-! ## Encoder -/

/-- Format Z: OPC, ignored bits 0 (R81). -/
def encodeZ (opc : BitVec 4) : Word := opc ++ 0#28

/-- Format N: OPC, UNIT, VEL, NOTE, ignored bits 0 (R81). -/
def encodeN (opc unit : BitVec 4) (vel note : BitVec 7) : Word :=
  opc ++ unit ++ 0#9 ++ vel ++ 0#1 ++ note

/-- Format A: OPC, ADDR, ignored bits 0 (R81). -/
def encodeA (opc : BitVec 4) (addr : Addr) : Word := opc ++ 0#16 ++ addr

/-- The words of a command (R81, R83, R86). -/
def encode : Instr → List Word
  | .nop => [encodeZ 0x0#4]
  | .tick => [encodeZ 0x1#4]
  | .noteOn u n v => [encodeN 0x2#4 u v n]
  | .noteOff u n v => [encodeN 0x3#4 u v n]
  | .write a d => [encodeA 0x4#4 a, d]
  | .read a => [encodeA 0x5#4 a]
  | .rsvd6 => [encodeZ 0x6#4]
  | .rsvd7 => [encodeZ 0x7#4]
  | .rsvd8 => [encodeZ 0x8#4]
  | .rsvd9 => [encodeZ 0x9#4]
  | .rsvdA => [encodeZ 0xA#4]
  | .rsvdB => [encodeZ 0xB#4]
  | .rsvdC => [encodeZ 0xC#4]
  | .rsvdD => [encodeZ 0xD#4]
  | .rsvdE => [encodeZ 0xE#4]
  | .rsvdF => [encodeZ 0xF#4]

/-- The words of a list of commands, one command after the other (R80). -/
def encodeAll (is : List Instr) : List Word := is.flatMap encode

/-- The bits of a header word that its format does not ignore (R81), by its opcode. -/
def usedBits (opc : BitVec 4) : Word :=
  match opc.toNat with
  | 0x2 => 0xFF007F7F#32
  | 0x3 => 0xFF007F7F#32
  | 0x4 => 0xF0000FFF#32
  | 0x5 => 0xF0000FFF#32
  | _ => 0xF0000000#32

/-- How many words a command has, told from OPC alone (R80). -/
def commandWords (opc : BitVec 4) : Nat := if opc.toNat = 0x4 then 2 else 1

/-- The instruction the decoder reads from an instruction whose bits are `w`, bit 0 the least
significant bit of the first word and bit 32 that of the second; bits from `nbits` up are 0. -/
def decodeTableWord (nbits w : Nat) : Option Instr :=
  match decode [BitVec.ofNat 32 (w % 2 ^ nbits), BitVec.ofNat 32 (w % 2 ^ nbits / 2 ^ 32)] with
  | .ok (i, _) => some i
  | .error _ => none

/-! ## Byte order of a byte transport (R65): little-endian -/

/-- The four bytes of a word in the order they are sent: bits [7:0] first. -/
def bytesOfWord (w : Word) : List Byte :=
  [w.extractLsb' 0 8, w.extractLsb' 8 8, w.extractLsb' 16 8, w.extractLsb' 24 8]

/-- The bytes of a list of words. -/
def bytesOfWords (ws : List Word) : List Byte := ws.flatMap bytesOfWord

/-- The whole words that a list of bytes carries, and the bytes of an unfinished word. -/
def wordsOfBytes : List Byte → List Word × List Byte
  | a :: b :: c :: d :: rest =>
    let r := wordsOfBytes rest
    ((d ++ c ++ b ++ a : Word) :: r.1, r.2)
  | bs => ([], bs)

/-! ## Addresses of the register map (R63) -/

/-- Offset of a bank register in its bank's block. -/
def BankReg.offset : BankReg → Nat
  | .wave => 0x00 | .attackN => 0x01 | .decayN => 0x02
  | .sustain => 0x03 | .releaseN => 0x04 | .notecnt => 0x05

/-- Offset of a voice register in its voice's group of 8. -/
def VoiceReg.offset : VoiceReg → Nat
  | .vstat => 0 | .phase => 1 | .level => 2 | .ts => 3
  | .ecnt => 4 | .estep => 5 | .etgt => 6

/-- Offset of a hat-lane register in its lane's block. -/
def HatReg.offset : HatReg → Nat
  | .trigNote => 0x0 | .hdecayN => 0x1 | .b0 => 0x2 | .b1 => 0x3
  | .b2 => 0x4 | .a1 => 0x5 | .a2 => 0x6 | .seed => 0x7
  | .estat => 0x8 | .hlevel => 0x9 | .hcnt => 0xA | .hstep => 0xB
  | .x1 => 0xC | .x2 => 0xD | .y1 => 0xE | .y2 => 0xF

/-- The word address of a register name (R63). DESIGN CHOICE (log 16): the spec does not say what an
assembler does with a name whose index is outside R63's ranges (`WAVE[8]`, `VSTAT[0][16]`); the
address formula is applied to any index, so such a name stands for the address the formula gives,
which may be another register's (`WAVE[8]` = 0x900 = `TRIGNOTE[0]`). Unsafe for a claim about such a
name only; names with indices in R63's ranges are not touched by it. -/
def Reg.addr : Reg → Nat
  | .cfg => 0x000
  | .bank b r => 0x100 * (b + 1) + r.offset
  | .voice b v r => 0x100 * (b + 1) + 0x40 + 8 * v + r.offset
  | .hat h r => 0x900 + 0x20 * h + r.offset
  | .route s => 0xA00 + s
  | .outlast c => 0xC00 + c

/-! ## Assembler -/

/-- The velocity of a NOTE_ON or NOTE_OFF: it defaults to 0 where it is not written (R86). -/
def velOperand (vel : Option Nat) : Nat := vel.getD 0

/-- The words of a source command, or the limit of R86 it exceeds. -/
def assembleCmd (c : Cmd) : Except AsmError (List Word) :=
  match c.error with
  | some e => .error e
  | none =>
    match c with
    | .nop => .ok (encode .nop)
    | .tick => .ok (encode .tick)
    | .noteOn u n v => .ok (encode
        (.noteOn (BitVec.ofNat 4 u) (BitVec.ofNat 7 n) (BitVec.ofNat 7 (velOperand v))))
    | .noteOff u n v => .ok (encode
        (.noteOff (BitVec.ofNat 4 u) (BitVec.ofNat 7 n) (BitVec.ofNat 7 (velOperand v))))
    | .write a d => .ok (encode (.write (BitVec.ofNat 12 a) d))
    | .read a => .ok (encode (.read (BitVec.ofNat 12 a)))
    | .word w => .ok [w]

/-- The expansion of a pseudo-command (R87); an index outside R63's ranges is as in `Reg.addr` (log 16). -/
def Pseudo.expand : Pseudo → List Cmd
  | .ticks n => List.replicate n .tick
  | .setAdsr b a d s r =>
    [.write (Reg.bank b .attackN).addr a, .write (Reg.bank b .decayN).addr d,
     .write (Reg.bank b .sustain).addr s, .write (Reg.bank b .releaseN).addr r]
  | .setWave b w => [.write (Reg.bank b .wave).addr w]
  | .setRoute s c => [.write (Reg.route s).addr c]
  | .setRouteAll s => [.write (Reg.route s).addr 0x100#32]
  | .setBiquad h b0 b1 b2 a1 a2 =>
    [.write (Reg.hat h .b0).addr b0, .write (Reg.hat h .b1).addr b1,
     .write (Reg.hat h .b2).addr b2, .write (Reg.hat h .a1).addr a1,
     .write (Reg.hat h .a2).addr a2]
  | .setHat h note n =>
    [.write (Reg.hat h .trigNote).addr note, .write (Reg.hat h .hdecayN).addr n]

/-- The words of a list of source commands, or the first error. -/
def assemble : List Cmd → Except AsmError (List Word)
  | [] => .ok []
  | c :: cs =>
    match assembleCmd c, assemble cs with
    | .error e, _ => .error e
    | .ok _, .error e => .error e
    | .ok ws, .ok rest => .ok (ws ++ rest)

end Sys2Proof
end

