-- ==== Sys2Proof/Config.lean ====
section
/-! DEFINITION. The build-time parameters of a TSD instance (00_scope.md R5) as plain data, their
legal values, and the one free value of the model. -/

namespace Sys2Proof.Config

/-- NVOICE: voices per bank, fixed by the source (R5, R31). -/
def nVoice : Nat := 16

/-- The parameters an instance is built with (R5). They are OPEN: a State carries them in its field
`cfg`, so that a statement about every state speaks of every instance. No command changes them. FS
and time are left out (log 12; safe). -/
structure Params where
  /-- NBANK, the number of voice banks, 0..8. -/
  nBank : Nat
  /-- NHAT, the number of hat lanes, 0..8. -/
  nHat : Nat
  /-- NEXT, the number of external source ports, 0..15. -/
  nExt : Nat
  /-- NCH, the number of output channels, 1..32. -/
  nCh : Nat
  /-- NOTE_INC, 128 phase increments, one per MIDI note. -/
  noteInc : List Word
  /-- RDATA_DEPTH, the depth of the read-data queue, at least 1. -/
  rdataDepth : Nat
deriving DecidableEq, Repr

/-- NSRC = NBANK + NHAT + NEXT (R5). -/
def Params.nSrc (p : Params) : Nat := p.nBank + p.nHat + p.nExt

/-- The legal values of R5. NSRC ≤ 31 follows. -/
abbrev Params.legal (p : Params) : Prop :=
  p.nBank ≤ 8 ∧ p.nHat ≤ 8 ∧ p.nExt ≤ 15 ∧ 1 ≤ p.nCh ∧ p.nCh ≤ 32 ∧
  p.noteInc.length = 128 ∧ 1 ≤ p.rdataDepth

/-- FREE VALUE (log 2): what external port `e` carries at the TICK numbered `n`, where the host's
schedule of port values says nothing (R40, I17: "any value"). No body: nothing in Lean can tell
what it is, and a claim holds whatever it is. -/
opaque extPort : (n e : Nat) → Word

end Sys2Proof.Config
end

