-- ==== Sys2Proof/Machine/Instance.lean ====
section
/-! DEFINITION. The recommended NOTE_INC table for FS = 48000 (40_waveform.md R101) and the instance
that `State.reset` is built for (log 1). -/

namespace Sys2Proof.Machine

/-- NOTE_INC at FS = 48000, entries 0 .. 31. -/
def noteInc48kFrom0 : List Word := [
  731558, 775059, 821146, 869974, 921705, 976513, 1034579, 1096099,
  1161276, 1230329, 1303488, 1380998, 1463116, 1550118, 1642292, 1739948,
  1843411, 1953026, 2069159, 2192197, 2322552, 2460658, 2606977, 2761996,
  2926232, 3100235, 3284585, 3479896, 3686822, 3906052, 4138318, 4384395]

/-- NOTE_INC at FS = 48000, entries 32 .. 63. -/
def noteInc48kFrom32 : List Word := [
  4645104, 4921317, 5213953, 5523991, 5852465, 6200470, 6569170, 6959793,
  7373644, 7812103, 8276635, 8768789, 9290209, 9842633, 10427907, 11047982,
  11704930, 12400941, 13138339, 13919586, 14747287, 15624207, 16553270, 17537579,
  18580418, 19685267, 20855814, 22095965, 23409859, 24801882, 26276679, 27839171]

/-- NOTE_INC at FS = 48000, entries 64 .. 95. -/
def noteInc48kFrom64 : List Word := [
  29494575, 31248413, 33106541, 35075158, 37160835, 39370534, 41711627, 44191930,
  46819719, 49603764, 52553357, 55678342, 58989149, 62496826, 66213081, 70150316,
  74321671, 78741067, 83423255, 88383859, 93639437, 99207528, 105106715, 111356685,
  117978298, 124993653, 132426162, 140300631, 148643341, 157482134, 166846509, 176767719]

/-- NOTE_INC at FS = 48000, entries 96 .. 127. -/
def noteInc48kFrom96 : List Word := [
  187278874, 198415056, 210213429, 222713370, 235956596, 249987305, 264852324, 280601263,
  297286682, 314964268, 333693018, 353535438, 374557749, 396830112, 420426858, 445426740,
  471913192, 499974611, 529704648, 561202526, 594573365, 629928537, 667386037, 707070876,
  749115498, 793660223, 840853716, 890853480, 943826385, 999949222, 1059409297, 1122405052]

/-- NOTE_INC at FS = 48000 (R101), one entry per MIDI note. -/
def noteInc48k : List Word :=
  noteInc48kFrom0 ++ noteInc48kFrom32 ++ noteInc48kFrom64 ++ noteInc48kFrom96

/-- DESIGN CHOICE (log 1): the instance of `State.reset`. The counts are those of the example of
45_host_commands.md R246 (NBANK = 1, NHAT = 1, NCH = 2, NEXT = 0); the depth of the read-data queue
is the model's. Every statement speaks of every instance (the field `cfg`), not of this one. -/
def resetInstance : Config.Params where
  nBank := 1
  nHat := 1
  nExt := 0
  nCh := 2
  noteInc := noteInc48k
  rdataDepth := 16

end Sys2Proof.Machine
end

