-- ==== Sys2Proof/Machine/State.lean ====
section
/-! DEFINITION. The state of the TSD as plain data (10_state.md), its reset value
(70_reset_and_hazards.md R290), and the reasons a step can stop: none but the host's
`notModelled`. -/

namespace Sys2Proof.Machine

/-- The envelope stages (R22). The codes 5, 6 and 7 are never held, so they have no constructor. -/
inductive Stage where
  | idle | attack | decay | sustain | release
deriving DecidableEq, Repr

/-- An envelope record (R22). -/
structure Env where
  stage : Stage
  /-- Current amplitude, unsigned, 0 .. FULL. -/
  level : Word
  /-- Ticks left in the current ramp stage. -/
  cnt : BitVec 24
  /-- Per-tick level increment, a signed 32-bit pattern. -/
  step : Word
  /-- Level the current ramp stage ends at. -/
  tgt : Word
deriving DecidableEq, Repr

/-- One voice of a bank (R27 to R30). -/
structure Voice where
  /-- NV: whether a note is assigned. -/
  nv : Bool
  /-- NOTE. -/
  note : BitVec 7
  /-- PHASE. -/
  phase : Word
  /-- ENV. -/
  env : Env
  /-- TS. -/
  ts : Word
deriving DecidableEq, Repr

/-- A voice bank: its parameter registers, its note-on counter and its 16 voices (R23 to R31). -/
structure Bank where
  /-- WAVE. -/
  wave : BitVec 2
  /-- ATTACK_N. -/
  attackN : BitVec 24
  /-- DECAY_N. -/
  decayN : BitVec 24
  /-- SUSTAIN. -/
  sustain : Word
  /-- RELEASE_N. -/
  releaseN : BitVec 24
  /-- NOTECNT. -/
  notecnt : Word
  /-- The voices in index order; a voice's slot index is its place (R31). -/
  voices : List Voice
deriving DecidableEq, Repr

/-- A hat lane (R32 to R36). -/
structure Hat where
  /-- TRIGNOTE. -/
  trigNote : BitVec 7
  /-- HDECAY_N. -/
  hdecayN : BitVec 24
  /-- The biquad coefficients, signed 32-bit patterns in units of 2^−30. -/
  b0 : Word
  b1 : Word
  b2 : Word
  a1 : Word
  a2 : Word
  /-- LFSR, read and written as SEED. -/
  lfsr : Word
  /-- HENV. -/
  env : Env
  /-- The filter's last two inputs, signed 25-bit patterns. -/
  x1 : BitVec 25
  x2 : BitVec 25
  /-- The filter's last two outputs, signed 32-bit patterns. -/
  y1 : Word
  y2 : Word
deriving DecidableEq, Repr

/-- The command parser state (R20). -/
inductive Parser where
  /-- The next word is a new command. -/
  | header
  /-- The next word is the data word of a WRITE to this address. -/
  | data (a : Addr)
deriving DecidableEq, Repr

/-- The state of the machine. -/
structure State where
  /-- The build-time parameters of the instance (00_scope.md R5); CFG reads them (R41). -/
  cfg : Config.Params
  /-- The command parser (R20). -/
  parser : Parser
  /-- The voice banks 0 .. NBANK − 1. -/
  banks : List Bank
  /-- The hat lanes 0 .. NHAT − 1. -/
  hats : List Hat
  /-- ROUTE[0 .. NSRC − 1] (R37). -/
  route : List Word
  /-- OUTLAST[0 .. NCH − 1] (R39). -/
  outlast : List Word
  /-- The frame stream since reset, oldest frame first (R42). DEDUCED (log 10): nothing is removed
  from the record; safe. -/
  frames : List (List Word)
  /-- The read-data queue, oldest word first (R42, R247). -/
  rdata : List Word
  /-- The command words on the port that the TSD has not taken yet, next word first (R240, log 3). -/
  port : List Word
  /-- The vectors of external port values of the coming TICKs, next TICK first (R40, log 2). -/
  extIn : List (List Word)
  /-- The MODEL's own count of TICKs, the index of the free value `Config.extPort` (log 2). -/
  tickNo : Nat
deriving DecidableEq, Repr

/-- Faults. The TSD raises no exception and has no fault outcome (60_exceptions.md R270): there is
no constructor, so no meaning can answer a fault. Nothing raises one; safe. -/
inductive Fault where
deriving DecidableEq, Repr

/-- Refusals. -/
inductive Refusal where
  /-- Raised only by an arm of `exec` whose instruction has no meaning yet; no arm does. Safe. -/
  | notModelled (mnemonic : String)
deriving DecidableEq, Repr

/-- The reset value of an envelope record: (Idle, 0, 0, 0, 0) (R22, R290). -/
def Env.reset : Env := { stage := .idle, level := 0, cnt := 0, step := 0, tgt := 0 }

/-- The reset value of a voice (R27 to R30, R290). -/
def Voice.reset : Voice := { nv := false, note := 0, phase := 0, env := Env.reset, ts := 0 }

/-- The reset value of a bank: all 16 voices Idle (R23 to R31, R290). -/
def Bank.reset : Bank :=
  { wave := 0, attackN := 0, decayN := 0, sustain := 0, releaseN := 0, notecnt := 0,
    voices := List.replicate Config.nVoice Voice.reset }

/-- The reset value of a hat lane: LFSR is 1 (R32 to R36, R290). -/
def Hat.reset : Hat :=
  { trigNote := 0, hdecayN := 0, b0 := 0, b1 := 0, b2 := 0, a1 := 0, a2 := 0, lfsr := 1,
    env := Env.reset, x1 := 0, x2 := 0, y1 := 0, y2 := 0 }

/-- The reset state of the instance with parameters `p` (R290), with nothing on the command port and
no port values scheduled (log 2, 3). -/
def State.resetWith (p : Config.Params) : State :=
  { cfg := p
    parser := .header
    banks := List.replicate p.nBank Bank.reset
    hats := List.replicate p.nHat Hat.reset
    route := List.replicate p.nSrc 0
    outlast := List.replicate p.nCh 0
    frames := []
    rdata := []
    port := []
    extIn := []
    tickNo := 0 }

/-- The machine right after reset (R290), for the instance of log 1. -/
def State.reset : State := State.resetWith resetInstance

end Sys2Proof.Machine
end

