-- ==== Sys2Proof/Machine/Flags.lean ====
section
/-! DEFINITION. The status words. The TSD has no condition flags: the only status indications are
the envelope stage codes and the note-valid bits (10_state.md R21), which VSTAT and ESTAT show
(20_memory.md R63), and the constant CFG (10_state.md R41). No command writes a flag. -/

namespace Sys2Proof.Machine

/-- The code of an envelope stage (R22). -/
def Stage.code : Stage → BitVec 3
  | .idle => 0 | .attack => 1 | .decay => 2 | .sustain => 3 | .release => 4

/-- VSTAT: [2:0] stage, [7] NV, [14:8] NOTE, other bits 0 (R63). -/
def Voice.vstat (v : Voice) : Word :=
  0#17 ++ v.note ++ BitVec.ofBool v.nv ++ 0#4 ++ v.env.stage.code

/-- ESTAT: [2:0] stage, other bits 0 (R63). -/
def Hat.estat (h : Hat) : Word := 0#29 ++ h.env.stage.code

/-- CFG: [3:0] NBANK, [7:4] NHAT, [13:8] NCH, [19:16] NEXT, other bits 0 (R41). -/
def cfgWord (p : Config.Params) : Word :=
  0#12 ++ BitVec.ofNat 4 p.nExt ++ 0#2 ++ BitVec.ofNat 6 p.nCh ++ BitVec.ofNat 4 p.nHat ++
    BitVec.ofNat 4 p.nBank

end Sys2Proof.Machine
end

