-- ==== Sys2Proof/Machine/Operands.lean ====
section
/-! DEFINITION. The operand forms and the arithmetic of the pseudocode (00_scope.md R6, R7, R9):
integers from register patterns and back, floor division by a power of two, clamping, and the
fields of a ROUTE register (10_state.md R37). -/

namespace Sys2Proof.Machine

/-- FULL = 2^31, the level of amplitude 1.0 (R9). -/
def full : Word := 0x80000000#32

/-- `a fdiv 2^k`: floor division, an arithmetic shift right (R7). -/
def fdivPow2 (a : Int) (k : Nat) : Int := a / 2 ^ k

/-- `sgn(a)` (R7). -/
def sgn (a : Int) : Int := if a < 0 then -1 else if a = 0 then 0 else 1

/-- `clamp(a, lo, hi)` (R7). -/
def clamp (a lo hi : Int) : Int := if a < lo then lo else if hi < a then hi else a

/-- `s32(w)`: a word read as a signed 32-bit integer (R6). -/
def s32 (w : Word) : Int := w.toInt

/-- The 32-bit pattern of an integer, `v mod 2^32` (R7, R63). DESIGN CHOICE (log 7) where the value
does not fit, which no reachable state shows; safe there. -/
def word32 (a : Int) : Word := BitVec.ofInt 32 a

/-- The signed 25-bit pattern of a wave sample (R9, R36). -/
def sample25 (a : Int) : BitVec 25 := BitVec.ofInt 25 a

/-- A wave sample register read as 32 bits: its value mod 2^32 (R63, R66). -/
def sext25 (x : BitVec 25) : Word := x.signExtend 32

/-- ROUTE[s].CH = bits [4:0] (R37). -/
def routeCh (r : Word) : Nat := (r.extractLsb' 0 5).toNat

/-- ROUTE[s].ALL = bit 8 (R37). -/
def routeAll (r : Word) : Bool := r.getLsbD 8

/-- Whether a word is a legal ROUTE value for `nCh` channels: d[31:9] = 0, d[7:5] = 0 and
d[4:0] < NCH (45_host_commands.md R245). -/
def routeLegal (nCh : Nat) (d : Word) : Bool :=
  d.extractLsb' 9 23 == 0#23 && d.extractLsb' 5 3 == 0#3 && decide (routeCh d < nCh)

/-- Whether a source with this ROUTE value is added to channel `c` (44_mixer.md R214). -/
def routed (r : Word) (c : Nat) : Bool := routeAll r || routeCh r == c

end Sys2Proof.Machine
end

