-- ==== Sys2Proof/Machine/Envelope.lean ====
section
/-! DEFINITION. The envelope generator (41_envelope.md): ramp entry, stage entries and the envelope
tick. -/

namespace Sys2Proof.Machine

/-- The step of a ramp of `n` ticks over the distance `d`: 0 for n ≤ 1, else
sgn(d) · (|d| div n) (R121). No division by zero: it divides only when n ≥ 2. -/
def rampStep (d : Int) (n : Nat) : Int :=
  if n ≤ 1 then 0 else sgn d * ((d.natAbs / n : Nat) : Int)

/-- `enter_ramp(E, T, N)` (R121): the level is not changed. -/
def Env.enterRamp (e : Env) (t : Word) (n : BitVec 24) : Env :=
  { e with
    tgt := t
    cnt := n
    step := word32 (rampStep ((t.toNat : Int) - e.level.toNat) n.toNat) }

/-- Enter Attack (R122). -/
def Env.enterAttack (e : Env) (attackN : BitVec 24) : Env :=
  Env.enterRamp { e with stage := .attack } full attackN

/-- Enter Decay (R123). -/
def Env.enterDecay (e : Env) (sustain : Word) (decayN : BitVec 24) : Env :=
  Env.enterRamp { e with stage := .decay } sustain decayN

/-- Enter Release (R124). -/
def Env.enterRelease (e : Env) (releaseN : BitVec 24) : Env :=
  Env.enterRamp { e with stage := .release } 0 releaseN

/-- Enter Sustain (R126): level and target unchanged. -/
def Env.enterSustain (e : Env) : Env := { e with stage := .sustain, cnt := 0, step := 0 }

/-- Enter Idle (R125), the envelope's part. -/
def Env.enterIdle (_ : Env) : Env := { stage := .idle, level := 0, cnt := 0, step := 0, tgt := 0 }

/-- A ramp stage's tick that does not end the stage (R127): the level moves by the signed step, the
count goes down by one. -/
def Env.rampTick (e : Env) : Env :=
  { e with level := word32 ((e.level.toNat : Int) + s32 e.step), cnt := e.cnt - 1 }

/-- A ramp stage's last tick sets the level to the target exactly (R127). -/
def Env.snap (e : Env) : Env := { e with level := e.tgt }

/-- Whether this tick ends the ramp stage: cnt ≤ 1 (R127). -/
def Env.ends (e : Env) : Bool := decide (e.cnt.toNat ≤ 1)

/-- The envelope tick of a voice (R127, R128), with the bank's DECAY_N and SUSTAIN. -/
def Env.voiceTick (e : Env) (decayN : BitVec 24) (sustain : Word) : Env :=
  match e.stage with
  | .idle => e
  | .attack => if e.ends then e.snap.enterDecay sustain decayN else e.rampTick
  | .decay => if e.ends then e.snap.enterSustain else e.rampTick
  | .sustain => { e with level := sustain }
  | .release => if e.ends then e.snap.enterIdle else e.rampTick

/-- The envelope tick of a hat lane (R127): its stage is only ever Idle or Release (10_state.md
R35). A lane envelope in another stage, which no run reaches, is left as it is (log 8). -/
def Env.hatTick (e : Env) : Env :=
  match e.stage with
  | .idle => e
  | .attack => e
  | .decay => e
  | .sustain => e
  | .release => if e.ends then e.snap.enterIdle else e.rampTick

/-- Gate-off (R130): Attack, Decay and Sustain enter Release; Release and Idle are unchanged. -/
def Env.gateOff (e : Env) (releaseN : BitVec 24) : Env :=
  match e.stage with
  | .idle => e
  | .attack => e.enterRelease releaseN
  | .decay => e.enterRelease releaseN
  | .sustain => e.enterRelease releaseN
  | .release => e

/-- One-shot trigger (R131): level FULL, Release of the lane's length, from any stage. -/
def Env.oneShot (e : Env) (hdecayN : BitVec 24) : Env :=
  Env.enterRelease { e with level := full } hdecayN

end Sys2Proof.Machine
end

