-- ==== Sys2Proof/Machine/HatLane.lean ====
section
/-! DEFINITION. The hat lane (43_noise_filter.md): noise generator, biquad, trigger, and the lane's
part of a tick. -/

namespace Sys2Proof.Machine

/-- The noise step: the 32-bit xorshift with shifts 13, 17, 5 (R180). -/
def xorshift (x0 : Word) : Word :=
  let x1 := x0 ^^^ (x0 <<< 13)
  let x2 := x1 ^^^ (x1 >>> 17)
  x2 ^^^ (x2 <<< 5)

/-- The noise sample of a generator state (R181). -/
def noiseSample (x : Word) : Int := ((x.toNat / 2 ^ 8 : Nat) : Int) - 2 ^ 23

/-- The exact accumulator of the filter step (R184). -/
def Hat.biquadAcc (h : Hat) (xin : Int) : Int :=
  s32 h.b0 * xin + s32 h.b1 * h.x1.toInt + s32 h.b2 * h.x2.toInt
    - s32 h.a1 * s32 h.y1 - s32 h.a2 * s32 h.y2

/-- The filter output: floor division by 2^30, saturated to 32 bits (R184, R185). -/
def biquadOut (acc : Int) : Int := clamp (fdivPow2 acc 30) (-2 ^ 31) (2 ^ 31 - 1)

/-- The noise sample of the lane's tick (R180, R181). -/
def Hat.noise (h : Hat) : Int := noiseSample (xorshift h.lfsr)

/-- The filter output y of the lane's tick (R184). -/
def Hat.filter (h : Hat) : Int := biquadOut (h.biquadAcc h.noise)

/-- `hat_out(h)` (R188): the level before the envelope tick. -/
def Hat.out (h : Hat) : Int :=
  if h.env.stage = .idle then 0 else fdivPow2 (h.filter * h.env.level.toNat) 31

/-- What a tick does to a lane (R188): an Idle lane does not change. -/
def Hat.tick (h : Hat) : Hat :=
  if h.env.stage = .idle then h
  else
    { h with
      lfsr := xorshift h.lfsr
      x1 := sample25 h.noise
      x2 := h.x1
      y1 := word32 h.filter
      y2 := h.y1
      env := h.env.hatTick }

/-- NOTE_ON on a lane (R186): only TRIGNOTE triggers; the filter history is cleared, LFSR is not. -/
def Hat.noteOn (n : BitVec 7) (h : Hat) : Hat :=
  if n = h.trigNote then
    { h with env := h.env.oneShot h.hdecayN, x1 := 0, x2 := 0, y1 := 0, y2 := 0 }
  else h

/-- NOTE_OFF on a lane: no change (R187). -/
def Hat.noteOff (_ : BitVec 7) (h : Hat) : Hat := h

end Sys2Proof.Machine
end

