-- ==== Sys2Proof/Machine/Waveform.lean ====
section
/-! DEFINITION. The waveform generator (40_waveform.md): the sine table and `wave`. -/

namespace Sys2Proof.Machine

/-! ## The quarter table Q (R105) -/

/-- Q[k], k = 0 .. 31. -/
def sineQuarterFrom0 : List Int := [
  0, 51472, 102941, 154407, 205867, 257319, 308761, 360192,
  411609, 463011, 514396, 565761, 617104, 668425, 719720, 770988,
  822227, 873436, 924611, 975751, 1026855, 1077920, 1128945, 1179927,
  1230864, 1281756, 1332599, 1383392, 1434132, 1484819, 1535450, 1586023]

/-- Q[k], k = 32 .. 63. -/
def sineQuarterFrom32 : List Int := [
  1636536, 1686988, 1737376, 1787699, 1837954, 1888141, 1938256, 1988298,
  2038265, 2088156, 2137968, 2187700, 2237349, 2286914, 2336392, 2385783,
  2435084, 2484294, 2533410, 2582430, 2631353, 2680177, 2728901, 2777521,
  2826037, 2874446, 2922748, 2970939, 3019018, 3066984, 3114834, 3162567]

/-- Q[k], k = 64 .. 95. -/
def sineQuarterFrom64 : List Int := [
  3210181, 3257674, 3305045, 3352291, 3399411, 3446402, 3493264, 3539995,
  3586592, 3633054, 3679380, 3725567, 3771613, 3817518, 3863279, 3908894,
  3954362, 3999682, 4044851, 4089867, 4134730, 4179437, 4223986, 4268377,
  4312606, 4356674, 4400577, 4444315, 4487885, 4531287, 4574518, 4617576]

/-- Q[k], k = 96 .. 127. -/
def sineQuarterFrom96 : List Int := [
  4660461, 4703170, 4745702, 4788056, 4830229, 4872221, 4914029, 4955652,
  4997088, 5038336, 5079395, 5120262, 5160937, 5201417, 5241701, 5281788,
  5321677, 5361364, 5400850, 5440133, 5479211, 5518082, 5556746, 5595201,
  5633445, 5671477, 5709295, 5746898, 5784285, 5821455, 5858405, 5895134]

/-- Q[k], k = 128 .. 159. -/
def sineQuarterFrom128 : List Int := [
  5931642, 5967926, 6003985, 6039819, 6075425, 6110802, 6145949, 6180865,
  6215549, 6249998, 6284212, 6318189, 6351928, 6385428, 6418688, 6451706,
  6484482, 6517013, 6549299, 6581338, 6613129, 6644672, 6675964, 6707005,
  6737793, 6768328, 6798608, 6828632, 6858399, 6887907, 6917156, 6946145]

/-- Q[k], k = 160 .. 191. -/
def sineQuarterFrom160 : List Int := [
  6974873, 7003337, 7031538, 7059475, 7087145, 7114549, 7141685, 7168552,
  7195149, 7221475, 7247530, 7273311, 7298819, 7324052, 7349009, 7373689,
  7398092, 7422216, 7446061, 7469625, 7492909, 7515910, 7538628, 7561062,
  7583212, 7605076, 7626654, 7647945, 7668947, 7689661, 7710086, 7730220]

/-- Q[k], k = 192 .. 223. -/
def sineQuarterFrom192 : List Int := [
  7750063, 7769615, 7788874, 7807839, 7826511, 7844888, 7862970, 7880755,
  7898244, 7915436, 7932329, 7948924, 7965220, 7981215, 7996911, 8012305,
  8027397, 8042188, 8056675, 8070859, 8084740, 8098316, 8111587, 8124552,
  8137212, 8149565, 8161612, 8173351, 8184783, 8195906, 8206721, 8217227]

/-- Q[k], k = 224 .. 255. -/
def sineQuarterFrom224 : List Int := [
  8227423, 8237310, 8246887, 8256153, 8265108, 8273752, 8282085, 8290105,
  8297814, 8305210, 8312294, 8319064, 8325522, 8331666, 8337496, 8343012,
  8348215, 8353102, 8357676, 8361935, 8365879, 8369508, 8372822, 8375820,
  8378504, 8380871, 8382924, 8384660, 8386082, 8387187, 8387976, 8388450]

/-- Q[k], k = 256 .. 256. -/
def sineQuarterFrom256 : List Int := [
  8388608]

/-- The quarter table Q[k], k = 0 .. 256 (R105). -/
def sineQuarter : List Int :=
  sineQuarterFrom0 ++
  sineQuarterFrom32 ++
  sineQuarterFrom64 ++
  sineQuarterFrom96 ++
  sineQuarterFrom128 ++
  sineQuarterFrom160 ++
  sineQuarterFrom192 ++
  sineQuarterFrom224 ++
  sineQuarterFrom256

/-- The full sine table T[k] (R105), from the quarter table by symmetry. -/
def sineTable (k : Nat) : Int :=
  let k' := k % 512
  let base := if k' ≤ 256 then sineQuarter.getD k' 0 else sineQuarter.getD (512 - k') 0
  if k % 1024 < 512 then base else -base

/-! ## The four waveforms -/

/-- Sine (R104): linear interpolation between adjacent table entries. -/
def waveSine (p : Word) : Int :=
  let i := (p.extractLsb' 22 10).toNat
  let f := (p.extractLsb' 0 22).toNat
  let y0 := sineTable i
  let y1 := sineTable (i + 1)
  y0 + fdivPow2 ((y1 - y0) * f) 22

/-- Triangle (R106), in phase with the sine. -/
def waveTriangle (p : Word) : Int :=
  let q := fdivPow2 p.toNat 7
  if q < 2 ^ 23 then q
  else if q < 3 * 2 ^ 23 then 2 ^ 24 - q
  else q - 2 ^ 25

/-- Sawtooth (R107). -/
def waveSawtooth (p : Word) : Int := fdivPow2 p.toNat 8 - 2 ^ 23

/-- Square (R108). -/
def waveSquare (p : Word) : Int := if p.toNat < 2 ^ 31 then 2 ^ 23 else -2 ^ 23

/-- `wave(W, P)` (R102) with the selector encoding of R103. -/
def wave (w : BitVec 2) (p : Word) : Int :=
  if w = 0#2 then waveSine p
  else if w = 1#2 then waveTriangle p
  else if w = 2#2 then waveSawtooth p
  else waveSquare p

end Sys2Proof.Machine
end

