-- ==== Sys2Proof/Machine/VoiceBank.lean ====
section
/-! DEFINITION. The voice bank (42_voice_bank.md): voice selection, note-on, note-off and the bank's
part of a tick. -/

namespace Sys2Proof.Machine

/-! ## Voice selection (R151) -/

/-- The first entry of a list whose key is best: entries with no key do not count, `better k k'`
says that a key `k` at an earlier place is kept against a key `k'` at a later one. The answer is the
entry's place and key. -/
def firstBest {α : Type} (better : Nat → Nat → Bool) (key : α → Option Nat) :
    List α → Option (Nat × Nat)
  | [] => none
  | x :: xs =>
    match key x, firstBest better key xs with
    | none, none => none
    | none, some (i, k) => some (i + 1, k)
    | some k, none => some (0, k)
    | some k, some (i, k') => if better k k' then some (0, k) else some (i + 1, k')

/-- The key of step 1: any Idle voice, all alike. -/
def Voice.idleKey (v : Voice) : Option Nat :=
  if v.env.stage = .idle then some 0 else none

/-- The key of step 2: the level of a voice in Release. -/
def Voice.releaseKey (v : Voice) : Option Nat :=
  if v.env.stage = .release then some v.env.level.toNat else none

/-- age(v) = (NOTECNT − TS) mod 2^32 (R151). -/
def Voice.age (notecnt : Word) (v : Voice) : Nat := (notecnt - v.ts).toNat

/-- `select(b)` (R151): the least Idle voice; else the least voice in Release with the least level;
else the least voice with the greatest age. -/
def Bank.select (bk : Bank) : Nat :=
  match firstBest (fun _ _ => true) Voice.idleKey bk.voices with
  | some (v, _) => v
  | none =>
    match firstBest (fun k k' => decide (k ≤ k')) Voice.releaseKey bk.voices with
    | some (v, _) => v
    | none =>
      match firstBest (fun k k' => decide (k' ≤ k)) (fun v => some (v.age bk.notecnt)) bk.voices with
      | some (v, _) => v
      | none => 0      -- a bank without voices, which no run reaches (log 15)

/-! ## Commands on a bank -/

/-- What NOTE_ON does to the voice it allocates (R153). -/
def Voice.allocate (n : BitVec 7) (notecnt : Word) (attackN : BitVec 24) (v : Voice) : Voice :=
  { nv := true, note := n, phase := 0, env := v.env.enterAttack attackN, ts := notecnt }

/-- NOTE_ON on a bank (R153). -/
def Bank.noteOn (n : BitVec 7) (bk : Bank) : Bank :=
  { bk with
    voices := bk.voices.modify bk.select (Voice.allocate n bk.notecnt bk.attackN)
    notecnt := bk.notecnt + 1 }

/-- Whether NOTE_OFF for note `n` releases a voice (R154). -/
def Voice.holds (n : BitVec 7) (v : Voice) : Bool :=
  v.nv && v.note == n &&
    (v.env.stage == .attack || v.env.stage == .decay || v.env.stage == .sustain)

/-- What NOTE_OFF does to one voice (R154, R130). -/
def Voice.noteOff (n : BitVec 7) (releaseN : BitVec 24) (v : Voice) : Voice :=
  if v.holds n then { v with env := v.env.gateOff releaseN } else v

/-- NOTE_OFF on a bank (R154): every matching voice is released. -/
def Bank.noteOff (n : BitVec 7) (bk : Bank) : Bank :=
  { bk with voices := bk.voices.map (Voice.noteOff n bk.releaseN) }

/-! ## The bank in a tick -/

/-- Phase advance (40_waveform.md R100). An entry that a table of the wrong length lacks reads as 0
(log 15). -/
def Voice.nextPhase (noteInc : List Word) (v : Voice) : Word :=
  v.phase + noteInc.getD v.note.toNat 0

/-- The sample y[v] a voice gives in a tick (R156): the phase after its advance, the level before the
envelope tick. -/
def Voice.sample (noteInc : List Word) (w : BitVec 2) (v : Voice) : Int :=
  if v.env.stage = .idle then 0
  else fdivPow2 (wave w (v.nextPhase noteInc) * v.env.level.toNat) 31

/-- The envelope tick of a voice; entering Idle also clears NV and NOTE (41_envelope.md R125). -/
def Voice.envTick (decayN : BitVec 24) (sustain : Word) (v : Voice) : Voice :=
  let e := v.env.voiceTick decayN sustain
  if e.stage = .idle then { v with env := e, nv := false, note := 0 } else { v with env := e }

/-- What a tick does to one voice (R156): an Idle voice does not change. -/
def Voice.tick (noteInc : List Word) (decayN : BitVec 24) (sustain : Word) (v : Voice) : Voice :=
  if v.env.stage = .idle then v
  else Voice.envTick decayN sustain { v with phase := v.nextPhase noteInc }

/-- `bank_out(b)` (R157): the exact sum of the samples of the 16 voices. -/
def Bank.out (noteInc : List Word) (bk : Bank) : Int :=
  (bk.voices.map (Voice.sample noteInc bk.wave)).sum

/-- What a tick does to a bank (R156). -/
def Bank.tick (noteInc : List Word) (bk : Bank) : Bank :=
  { bk with voices := bk.voices.map (Voice.tick noteInc bk.decayN bk.sustain) }

end Sys2Proof.Machine
end

