-- ==== Sys2Proof/Machine/Mixer.lean ====
section
/-! DEFINITION. The mixer (44_mixer.md): source values, routing and summation, and the conversion to
binary32. -/

namespace Sys2Proof.Machine

/-- The word on external port `e` at the coming TICK (10_state.md R40): what the host's schedule
says, else a free value (log 2). -/
def State.extWord (s : State) (e : Nat) : Word :=
  match s.extIn with
  | [] => Config.extPort s.tickNo e
  | v :: _ => v.getD e (Config.extPort s.tickNo e)

/-- The source values src[0 .. NSRC − 1] of the coming TICK (R210, R212): banks, hat lanes, external
ports. -/
def State.sources (s : State) : List Int :=
  s.banks.map (Bank.out s.cfg.noteInc) ++ s.hats.map Hat.out ++
    (List.range s.cfg.nExt).map (fun e => s32 (s.extWord e))

/-- ACC[c] (R213, R214): starting from 0, the exact sum of the sources routed to channel `c`. DEDUCED
(log 9): ACC is no field of State, because none of it outlives a TICK (R38); safe. -/
def mixAcc (route : List Word) (src : List Int) (c : Nat) : Int :=
  ((route.zip src).map (fun rs => if routed rs.1 c then rs.2 else 0)).sum

/-- The significand and exponent of R215 for `m ≥ 1`: `q` in 2^23 .. 2^24 − 1 and `e`, rounded to
nearest, ties to even. -/
def roundSignificand (m : Nat) : Nat × Nat :=
  let e := Nat.log2 m
  if e ≤ 23 then (m * 2 ^ (23 - e), e)
  else
    let k := e - 23
    let q := m / 2 ^ k
    let r := m % 2 ^ k
    let q' := if 2 ^ (k - 1) < r ∨ (r = 2 ^ (k - 1) ∧ q % 2 = 1) then q + 1 else q
    if q' = 2 ^ 24 then (2 ^ 23, e + 1) else (q', e)

/-- `f32(a)` (R215): the binary32 pattern nearest to a · 2^−23, ties to even; sign, biased exponent
e + 104, fraction q − 2^23 (layout: 20_memory.md R65; PRESUMED with the spec, log 14; the word is
R215's, safe). -/
def f32 (a : Int) : Word :=
  if a = 0 then 0
  else
    let qe := roundSignificand a.natAbs
    BitVec.ofBool (decide (a < 0)) ++ BitVec.ofNat 8 (qe.2 + 104) ++ BitVec.ofNat 23 (qe.1 - 2 ^ 23)

/-- The frame of the coming TICK: f32(ACC[0]) .. f32(ACC[NCH − 1]) (R210, R216). -/
def State.frame (s : State) : List Word :=
  (List.range s.cfg.nCh).map (fun c => f32 (mixAcc s.route s.sources c))

end Sys2Proof.Machine
end

