-- ==== Sys2Proof/Machine/Ops.lean ====
section
/-! DEFINITION. The named operations over the whole state: the register map with RegRead and
RegWrite (20_memory.md), the parser (10_state.md R20), the output streams (R42), the units a note
command reaches (45_host_commands.md R243), the TICK's state change (44_mixer.md R210), the command
port with its hold (R240, R241, R247), and what the host can do to the machine.

Taking an exception and returning from one: the TSD has neither (60_exceptions.md R270, R274, R275),
so there is no such operation. -/

namespace Sys2Proof.Machine

/-! ## Updates of the state, one per piece -/

/-- Apply `f` to bank `b`. -/
def State.updBank (s : State) (b : Nat) (f : Bank → Bank) : State :=
  { s with banks := s.banks.modify b f }

/-- Apply `f` to hat lane `h`. -/
def State.updHat (s : State) (h : Nat) (f : Hat → Hat) : State :=
  { s with hats := s.hats.modify h f }

/-- ROUTE[i] <- d. -/
def State.setRoute (s : State) (i : Nat) (d : Word) : State :=
  { s with route := s.route.set i d }

/-- parser <- p. -/
def State.setParser (s : State) (p : Parser) : State := { s with parser := p }

/-- The words left on the command port. -/
def State.setPort (s : State) (ws : List Word) : State := { s with port := ws }

/-- `emit_rdata(w)` (00_scope.md R8): append a word to the read-data stream. -/
def State.emitRdata (s : State) (w : Word) : State := { s with rdata := s.rdata ++ [w] }

/-- Store a frame in OUTLAST and `emit_frame` it (R216). -/
def State.emitFrame (s : State) (f : List Word) : State :=
  { s with outlast := f, frames := s.frames ++ [f] }

/-- Every unit's own part of a TICK (R210, R211), and the port vector it used up (log 2). -/
def State.advance (s : State) : State :=
  { s with
    banks := s.banks.map (Bank.tick s.cfg.noteInc)
    hats := s.hats.map Hat.tick
    extIn := s.extIn.tail
    tickNo := s.tickNo + 1 }

/-! ## The register map (R63, R64) -/

/-- The bank register at an offset below 0x40 of a bank block. -/
def bankRegAt (o : Nat) : Option BankReg :=
  match o with
  | 0x00 => some .wave
  | 0x01 => some .attackN
  | 0x02 => some .decayN
  | 0x03 => some .sustain
  | 0x04 => some .releaseN
  | 0x05 => some .notecnt
  | _ => none

/-- The voice register at an offset of a voice group; offset 7 is unmapped. -/
def voiceRegAt (o : Nat) : Option VoiceReg :=
  match o with
  | 0 => some .vstat
  | 1 => some .phase
  | 2 => some .level
  | 3 => some .ts
  | 4 => some .ecnt
  | 5 => some .estep
  | 6 => some .etgt
  | _ => none

/-- The hat-lane register at an offset of a lane block; 0x10 .. 0x1F are unmapped. -/
def hatRegAt (o : Nat) : Option HatReg :=
  match o with
  | 0x0 => some .trigNote
  | 0x1 => some .hdecayN
  | 0x2 => some .b0
  | 0x3 => some .b1
  | 0x4 => some .b2
  | 0x5 => some .a1
  | 0x6 => some .a2
  | 0x7 => some .seed
  | 0x8 => some .estat
  | 0x9 => some .hlevel
  | 0xA => some .hcnt
  | 0xB => some .hstep
  | 0xC => some .x1
  | 0xD => some .x2
  | 0xE => some .y1
  | 0xF => some .y2
  | _ => none

/-- The register of bank `b` at offset `o` of its block. -/
def bankBlockAt (b o : Nat) : Option Reg :=
  if o < 0x40 then (bankRegAt o).map (Reg.bank b)
  else if o < 0xC0 then (voiceRegAt ((o - 0x40) % 8)).map (Reg.voice b ((o - 0x40) / 8))
  else none

/-- The register at a word address, for the instance's NBANK, NHAT, NSRC and NCH (R63); `none` is
unmapped (R64). -/
def regAt (p : Config.Params) (addr : Addr) : Option Reg :=
  let a := addr.toNat
  if a = 0 then some .cfg
  else if a < 0x100 then none
  else if a < 0x900 then
    if a / 0x100 - 1 < p.nBank then bankBlockAt (a / 0x100 - 1) (a % 0x100) else none
  else if a < 0xA00 then
    if (a - 0x900) / 0x20 < p.nHat then
      (hatRegAt ((a - 0x900) % 0x20)).map (Reg.hat ((a - 0x900) / 0x20))
    else none
  else if a < 0xC00 then
    if a - 0xA00 < p.nSrc then some (.route (a - 0xA00)) else none
  else
    if a - 0xC00 < p.nCh then some (.outlast (a - 0xC00)) else none

/-! ## RegRead (R61, R63) -/

/-- The read value of a bank register. -/
def Bank.readReg (bk : Bank) : BankReg → Word
  | .wave => bk.wave.setWidth 32
  | .attackN => bk.attackN.setWidth 32
  | .decayN => bk.decayN.setWidth 32
  | .sustain => bk.sustain
  | .releaseN => bk.releaseN.setWidth 32
  | .notecnt => bk.notecnt

/-- The read value of a voice register. -/
def Voice.readReg (v : Voice) : VoiceReg → Word
  | .vstat => v.vstat
  | .phase => v.phase
  | .level => v.env.level
  | .ts => v.ts
  | .ecnt => v.env.cnt.setWidth 32
  | .estep => v.env.step
  | .etgt => v.env.tgt

/-- The read value of a hat-lane register. -/
def Hat.readReg (h : Hat) : HatReg → Word
  | .trigNote => h.trigNote.setWidth 32
  | .hdecayN => h.hdecayN.setWidth 32
  | .b0 => h.b0
  | .b1 => h.b1
  | .b2 => h.b2
  | .a1 => h.a1
  | .a2 => h.a2
  | .seed => h.lfsr
  | .estat => h.estat
  | .hlevel => h.env.level
  | .hcnt => h.env.cnt.setWidth 32
  | .hstep => h.env.step
  | .x1 => sext25 h.x1
  | .x2 => sext25 h.x2
  | .y1 => h.y1
  | .y2 => h.y2

/-- The read value of a register. A bank, voice, lane, source or channel that the state's lists lack
reads 0; in a state that fits its instance there is none (log 15). -/
def readReg (s : State) : Reg → Word
  | .cfg => cfgWord s.cfg
  | .bank b r => (s.banks[b]?.map (Bank.readReg · r)).getD 0
  | .voice b v r =>
    ((s.banks[b]?.bind (fun bk => bk.voices[v]?)).map (Voice.readReg · r)).getD 0
  | .hat h r => (s.hats[h]?.map (Hat.readReg · r)).getD 0
  | .route i => s.route.getD i 0
  | .outlast c => s.outlast.getD c 0

/-- `RegRead(a)` (R61): the register's read value, 0 where unmapped (R64). -/
def regRead (s : State) (a : Addr) : Word :=
  match regAt s.cfg a with
  | some r => readReg s r
  | none => 0

/-! ## RegWrite (R62, R245) -/

/-- Write a bank register: stored only when the value is legal. -/
def Bank.writeReg (r : BankReg) (d : Word) (bk : Bank) : Bank :=
  match r with
  | .wave => if d.toNat < 4 then { bk with wave := d.setWidth 2 } else bk
  | .attackN => if d.toNat < 2 ^ 24 then { bk with attackN := d.setWidth 24 } else bk
  | .decayN => if d.toNat < 2 ^ 24 then { bk with decayN := d.setWidth 24 } else bk
  | .sustain => if d.toNat ≤ 2 ^ 31 then { bk with sustain := d } else bk
  | .releaseN => if d.toNat < 2 ^ 24 then { bk with releaseN := d.setWidth 24 } else bk
  | .notecnt => bk

/-- Write a hat-lane register: stored only when the value is legal; SEED 0 is stored as 1. -/
def Hat.writeReg (r : HatReg) (d : Word) (h : Hat) : Hat :=
  match r with
  | .trigNote => if d.toNat < 128 then { h with trigNote := d.setWidth 7 } else h
  | .hdecayN => if d.toNat < 2 ^ 24 then { h with hdecayN := d.setWidth 24 } else h
  | .b0 => { h with b0 := d }
  | .b1 => { h with b1 := d }
  | .b2 => { h with b2 := d }
  | .a1 => { h with a1 := d }
  | .a2 => { h with a2 := d }
  | .seed => { h with lfsr := if d = 0 then 1 else d }
  | .estat => h
  | .hlevel => h
  | .hcnt => h
  | .hstep => h
  | .x1 => h
  | .x2 => h
  | .y1 => h
  | .y2 => h

/-- Write a register (R245): CFG, voice registers and OUTLAST are read-only. -/
def writeReg (s : State) (r : Reg) (d : Word) : State :=
  match r with
  | .cfg => s
  | .bank b r => s.updBank b (Bank.writeReg r d)
  | .voice _ _ _ => s
  | .hat h r => s.updHat h (Hat.writeReg r d)
  | .route i => if routeLegal s.cfg.nCh d then s.setRoute i d else s
  | .outlast _ => s

/-- `RegWrite(a, d)` (R62): no change where unmapped, read-only or illegal. -/
def regWrite (s : State) (a : Addr) (d : Word) : State :=
  match regAt s.cfg a with
  | some r => writeReg s r d
  | none => s

/-! ## The two words of a WRITE (R241, R244) -/

/-- A WRITE header: parser <- DATA(a). -/
def writeHeader (a : Addr) (s : State) : State := s.setParser (.data a)

/-- A data word for address `a`: parser <- HEADER, RegWrite(a, d). -/
def writeData (a : Addr) (d : Word) (s : State) : State := regWrite (s.setParser .header) a d

/-! ## Note commands on a unit (R243) -/

/-- NOTE_ON to unit `u`: a bank, a hat lane, or no unit. -/
def noteOnUnit (u : BitVec 4) (n : BitVec 7) (s : State) : State :=
  if u.toNat < s.cfg.nBank then s.updBank u.toNat (Bank.noteOn n)
  else if u.toNat < s.cfg.nBank + s.cfg.nHat then
    s.updHat (u.toNat - s.cfg.nBank) (Hat.noteOn n)
  else s

/-- NOTE_OFF to unit `u`. -/
def noteOffUnit (u : BitVec 4) (n : BitVec 7) (s : State) : State :=
  if u.toNat < s.cfg.nBank then s.updBank u.toNat (Bank.noteOff n)
  else if u.toNat < s.cfg.nBank + s.cfg.nHat then
    s.updHat (u.toNat - s.cfg.nBank) (Hat.noteOff n)
  else s

/-! ## TICK (R210) -/

/-- The whole TICK: the frame is computed from the state before it, every unit advances, the frame is
stored and emitted. -/
def tickState (s : State) : State := s.advance.emitFrame s.frame

/-! ## The command port: fetch and hold (R240, R241, R247) -/

/-- Whether the read-data queue is full (R247). -/
def State.rdataFull (s : State) : Bool := decide (s.cfg.rdataDepth ≤ s.rdata.length)

/-- Whether the TSD holds a command (R247): a READ while the read-data queue is full. No other
command is ever held by itself; the ones behind a held READ wait because they are behind it. -/
def held (i : Instr) (s : State) : Bool :=
  match i with
  | .nop => false
  | .tick => false
  | .noteOn _ _ _ => false
  | .noteOff _ _ _ => false
  | .write _ _ => false
  | .read _ => s.rdataFull
  | .rsvd6 => false
  | .rsvd7 => false
  | .rsvd8 => false
  | .rsvd9 => false
  | .rsvdA => false
  | .rsvdB => false
  | .rsvdC => false
  | .rsvdD => false
  | .rsvdE => false
  | .rsvdF => false

/-- What the parser and the port give a step (R241). -/
inductive Fetched where
  /-- The port is empty: the TSD waits for a word (log 3). -/
  | nothing
  /-- The parser is in DATA(a): this word is the data word of a WRITE, whatever its bits. -/
  | dataWord (a : Addr) (d : Word) (rest : List Word)
  /-- A WRITE header whose data word has not arrived. -/
  | writeHeader (a : Addr) (rest : List Word)
  /-- A whole command. -/
  | command (i : Instr) (rest : List Word)
deriving DecidableEq, Repr

/-- Look at the words on the port. DESIGN CHOICE (log 5): a WRITE whose two words are both there is
one command; unsafe only for a claim that names the state between them. -/
def State.fetch (s : State) : Fetched :=
  match s.parser with
  | .data a =>
    match s.port with
    | [] => .nothing
    | d :: rest => .dataWord a d rest
  | .header =>
    match decode s.port with
    | .ok (i, rest) => .command i rest
    | .error .noWord => .nothing
    | .error (.noData a) => .writeHeader a s.port.tail

/-- Dispatch of ONE word taken from the port, as R241 states it word by word; `step` runs whole
commands, and a statement says that the two agree. The word of a command that is held is not taken
(R247), so this is not asked of it. -/
def dispatchWord (w : Word) (s : State) : State :=
  match s.parser with
  | .data a => writeData a w s
  | .header =>
    match (opcField w).toNat with
    | 0x1 => tickState s
    | 0x2 => noteOnUnit (unitField w) (noteField w) s
    | 0x3 => noteOffUnit (unitField w) (noteField w) s
    | 0x4 => writeHeader (addrField w) s
    | 0x5 => s.emitRdata (regRead s (addrField w))
    | _ => s

/-- Put the words of an instruction on the port, before what is there, with the parser ready for a
header. -/
def State.withWords (s : State) (ws : List Word) : State :=
  { s with parser := .header, port := ws ++ s.port }

/-! ## What the host can do (R240, R247, R291, R40) -/

/-- The actions of the host side, possible between any two steps. -/
inductive HostAct where
  /-- Put a word on the command port (R240). -/
  | deliver (w : Word)
  /-- Remove the oldest word of the read-data queue (R247). -/
  | takeRdata
  /-- Present a vector of external port values for the next TICK that has none yet (R40). -/
  | presentExt (v : List Word)
  /-- Drive the reset input (R291). -/
  | reset
deriving DecidableEq, Repr

/-- Reset (R290, R291): the half-received WRITE and the undelivered read data are discarded. The
words still on the port and the scheduled port values are on the host's side and stay (log 13). -/
def State.hardReset (s : State) : State :=
  { State.resetWith s.cfg with port := s.port, extIn := s.extIn, tickNo := s.tickNo }

/-- What a host action does to the state. -/
def hostAct (a : HostAct) (s : State) : State :=
  match a with
  | .deliver w => { s with port := s.port ++ [w] }
  | .takeRdata => { s with rdata := s.rdata.tail }
  | .presentExt v => { s with extIn := s.extIn ++ [v] }
  | .reset => s.hardReset

/-- The merges of two producers' command lists that keep each producer's order (R250). They merge
whole commands, so a WRITE's two words stay adjacent in `encodeAll` of the merge. -/
inductive Interleaving : List Instr → List Instr → List Instr → Prop where
  | nil : Interleaving [] [] []
  | left {i : Instr} {as bs cs : List Instr} :
      Interleaving as bs cs → Interleaving (i :: as) bs (i :: cs)
  | right {i : Instr} {as bs cs : List Instr} :
      Interleaving as bs cs → Interleaving as (i :: bs) (i :: cs)

/-- The commands of one audio buffer of `f` frames (R261): the pending events, then `f` TICKs. -/
def bufferCommands (events : List Instr) (f : Nat) : List Instr :=
  events ++ List.replicate f .tick

end Sys2Proof.Machine
end

