-- ==== Sys2Proof/Machine/Notes.lean ====
section
/-! DEFINITION. The meanings of NOTE_ON and NOTE_OFF (45_host_commands.md R243). -/

namespace Sys2Proof.Machine

/-- NOTE_ON (R243): the velocity is carried and ignored (42_voice_bank.md R155). -/
def execNoteOn (u : BitVec 4) (n : BitVec 7) (_vel : BitVec 7) (s : State) :
    Host.Outcome State Fault Refusal :=
  .next (noteOnUnit u n s)

/-- NOTE_OFF (R243). -/
def execNoteOff (u : BitVec 4) (n : BitVec 7) (_vel : BitVec 7) (s : State) :
    Host.Outcome State Fault Refusal :=
  .next (noteOffUnit u n s)

end Sys2Proof.Machine
end

