-- ==== Sys2Proof/Machine/Port.lean ====
section
/-! DEFINITION. The meanings of the register-access commands NOP, WRITE and READ
(45_host_commands.md R242, R244, R246). -/

namespace Sys2Proof.Machine

/-- NOP (R242): no state changes, no output. -/
def execNop (s : State) : Host.Outcome State Fault Refusal := .next s

/-- WRITE (R244): the header's dispatch, then the data word's. -/
def execWrite (a : Addr) (d : Word) (s : State) : Host.Outcome State Fault Refusal :=
  .next (writeData a d (writeHeader a s))

/-- READ (R246): emit RegRead(a). While the read-data queue is full the command is held: nothing
happens (R247, log 4). -/
def execRead (a : Addr) (s : State) : Host.Outcome State Fault Refusal :=
  if s.rdataFull then .next s else .next (s.emitRdata (regRead s a))

end Sys2Proof.Machine
end

