-- ==== Sys2Proof/Machine/Reserved.lean ====
section
/-! DEFINITION. The meanings of the ten reserved opcodes (45_host_commands.md R248): the word is
consumed and nothing happens. -/

namespace Sys2Proof.Machine

/-- What every reserved command does (R248): no state changes, no output, the parser stays HEADER. -/
def reservedEffect (s : State) : Host.Outcome State Fault Refusal := .next s

/-- RSVD.6 (R248). -/
def execRsvd6 (s : State) : Host.Outcome State Fault Refusal := reservedEffect s

/-- RSVD.7 (R248). -/
def execRsvd7 (s : State) : Host.Outcome State Fault Refusal := reservedEffect s

/-- RSVD.8 (R248). -/
def execRsvd8 (s : State) : Host.Outcome State Fault Refusal := reservedEffect s

/-- RSVD.9 (R248). -/
def execRsvd9 (s : State) : Host.Outcome State Fault Refusal := reservedEffect s

/-- RSVD.A (R248). -/
def execRsvdA (s : State) : Host.Outcome State Fault Refusal := reservedEffect s

/-- RSVD.B (R248). -/
def execRsvdB (s : State) : Host.Outcome State Fault Refusal := reservedEffect s

/-- RSVD.C (R248). -/
def execRsvdC (s : State) : Host.Outcome State Fault Refusal := reservedEffect s

/-- RSVD.D (R248). -/
def execRsvdD (s : State) : Host.Outcome State Fault Refusal := reservedEffect s

/-- RSVD.E (R248). -/
def execRsvdE (s : State) : Host.Outcome State Fault Refusal := reservedEffect s

/-- RSVD.F (R248). -/
def execRsvdF (s : State) : Host.Outcome State Fault Refusal := reservedEffect s

end Sys2Proof.Machine
end

