-- ==== Sys2Proof/Machine/Tick.lean ====
section
/-! DEFINITION. The meaning of TICK (44_mixer.md R210). -/

namespace Sys2Proof.Machine

/-- TICK (R210): one frame. -/
def execTick (s : State) : Host.Outcome State Fault Refusal := .next (tickState s)

end Sys2Proof.Machine
end

