-- ==== Sys2Proof/Machine/Dispatch.lean ====
section
/-! DEFINITION. The dispatch of every command to its meaning (30_encoding.md R83). -/

namespace Sys2Proof.Machine

def exec (i : Instr) (s : State) : Host.Outcome State Fault Refusal :=
  match i with
  | .nop => Sys2Proof.Machine.execNop s
  | .tick => Sys2Proof.Machine.execTick s
  | .noteOn u n vel => Sys2Proof.Machine.execNoteOn u n vel s
  | .noteOff u n vel => Sys2Proof.Machine.execNoteOff u n vel s
  | .write a d => Sys2Proof.Machine.execWrite a d s
  | .read a => Sys2Proof.Machine.execRead a s
  | .rsvd6 => Sys2Proof.Machine.execRsvd6 s
  | .rsvd7 => Sys2Proof.Machine.execRsvd7 s
  | .rsvd8 => Sys2Proof.Machine.execRsvd8 s
  | .rsvd9 => Sys2Proof.Machine.execRsvd9 s
  | .rsvdA => Sys2Proof.Machine.execRsvdA s
  | .rsvdB => Sys2Proof.Machine.execRsvdB s
  | .rsvdC => Sys2Proof.Machine.execRsvdC s
  | .rsvdD => Sys2Proof.Machine.execRsvdD s
  | .rsvdE => Sys2Proof.Machine.execRsvdE s
  | .rsvdF => Sys2Proof.Machine.execRsvdF s

end Sys2Proof.Machine
end

