-- ==== Sys2Proof/Machine/Step.lean ====
section
/-! DEFINITION. One step of the machine: take the next whole command from the port and run it
(45_host_commands.md R240, R241). -/

namespace Sys2Proof.Machine

/-- One step. An empty port leaves the state as it is (log 3); a held READ stays on the port (R247,
log 4); a WRITE header without its data word moves the parser (R244); a word met in DATA(a) is data
(R241); every other command is taken from the port and run to completion (R240). -/
def step (s : State) : Host.Outcome State Fault Refusal :=
  match s.fetch with
  | .nothing => .next s
  | .dataWord a d rest => .next (writeData a d (s.setPort rest))
  | .writeHeader a rest => .next (writeHeader a (s.setPort rest))
  | .command i rest => if held i s then .next s else exec i (s.setPort rest)

/-- The state with the instruction whose bits are `w` (numbered as spec/opcode_table.json numbers
them, the bits from `nbits` up being 0, up to two words) next on the command port and the parser
ready for a header, so that `step` fetches and runs it. It stands for the host's delivery of the
words (log 6). A one-word command leaves the second word, 0, behind it on the port: a NOP. -/
def State.withFetchWord (s : State) (nbits w : Nat) : State :=
  s.withWords [BitVec.ofNat 32 (w % 2 ^ nbits), BitVec.ofNat 32 (w % 2 ^ nbits / 2 ^ 32)]

end Sys2Proof.Machine
end

