-- ==== Sys2Proof/Safety.lean ====
section
/-! DEFINITION. What holds of every state the machine can be in (10_state.md, 41_envelope.md R132),
and the system of the machine and its host: every sequence of machine steps and host actions. -/

namespace Sys2Proof.Machine

/-! ## The invariant -/

/-- The level just before a ramp's last tick, if the ramp runs on undisturbed (R132.1): it does not
change as the ramp runs. -/
def Env.rampEnd (e : Env) : Int := (e.level.toNat : Int) + ((e.cnt.toNat - 1 : Nat) : Int) * s32 e.step

/-- The legal envelope records (R22, R29, R132): the ranges of the fields, an Idle record is all 0, a
Sustain record has no count and no step, and a running ramp lies between its level and its target,
rising in Attack, falling in Decay and Release. -/
def Env.wf (e : Env) : Prop :=
  e.level.toNat ≤ 2 ^ 31 ∧ e.tgt.toNat ≤ 2 ^ 31 ∧
  -2 ^ 30 ≤ s32 e.step ∧ s32 e.step ≤ 2 ^ 30 ∧
  (e.stage = .idle → e = Env.reset) ∧
  (e.stage = .attack → e.tgt = full ∧ e.level.toNat ≤ e.rampEnd ∧ e.rampEnd ≤ e.tgt.toNat) ∧
  (e.stage = .decay → e.tgt.toNat ≤ e.rampEnd ∧ e.rampEnd ≤ e.level.toNat) ∧
  (e.stage = .sustain → e.cnt = 0 ∧ e.step = 0) ∧
  (e.stage = .release → e.tgt = 0 ∧ 0 ≤ e.rampEnd ∧ e.rampEnd ≤ e.level.toNat)
deriving Decidable

/-- The invariant of R27 and R29: NV says that the voice is not Idle, and NOTE is 0 without NV. -/
def Voice.wf (v : Voice) : Prop :=
  v.env.wf ∧ (v.nv = true ↔ v.env.stage ≠ .idle) ∧ (v.nv = false → v.note = 0)
deriving Decidable

/-- A bank has exactly 16 voices (R31), and SUSTAIN is a level (R25). -/
def Bank.wf (bk : Bank) : Prop :=
  bk.voices.length = Config.nVoice ∧ bk.sustain.toNat ≤ 2 ^ 31 ∧ ∀ v ∈ bk.voices, v.wf
deriving Decidable

/-- LFSR is never 0 (R34), the lane's stage is only Idle or Release with target 0 (R35), and the
filter's inputs are noise samples (R36). -/
def Hat.wf (h : Hat) : Prop :=
  h.lfsr ≠ 0 ∧ h.env.wf ∧ (h.env.stage = .idle ∨ h.env.stage = .release) ∧ h.env.tgt = 0 ∧
  -2 ^ 23 ≤ h.x1.toInt ∧ h.x1.toInt ≤ 2 ^ 23 - 1 ∧ -2 ^ 23 ≤ h.x2.toInt ∧ h.x2.toInt ≤ 2 ^ 23 - 1
deriving Decidable

/-- The invariant of the machine: legal parameters (R5), as many banks, lanes, routes and channels as
they say, every unit legal, every ROUTE legal (R37), at most RDATA_DEPTH undelivered words (R247),
and OUTLAST the last frame of the stream (R39). -/
def State.Inv (s : State) : Prop :=
  s.cfg.legal ∧ s.banks.length = s.cfg.nBank ∧ s.hats.length = s.cfg.nHat ∧
  s.route.length = s.cfg.nSrc ∧ s.outlast.length = s.cfg.nCh ∧
  (∀ bk ∈ s.banks, bk.wf) ∧ (∀ h ∈ s.hats, h.wf) ∧
  s.route.all (routeLegal s.cfg.nCh) = true ∧
  s.rdata.length ≤ s.cfg.rdataDepth ∧
  (∀ f ∈ s.frames, f.length = s.cfg.nCh) ∧
  s.outlast = s.frames.getLast?.getD (List.replicate s.cfg.nCh 0)
deriving Decidable

/-- A binary32 word that is +0.0, or finite and normal with a biased exponent of 104 .. 140
(44_mixer.md R215). -/
def finiteWord (w : Word) : Prop :=
  w = 0 ∨ (104 ≤ (w.extractLsb' 23 8).toNat ∧ (w.extractLsb' 23 8).toNat ≤ 140)
deriving Decidable

end Sys2Proof.Machine

namespace Sys2Proof

/-! ## The register map, for statements (20_memory.md R63) -/

/-- The registers that an instance has (R63): indices below NBANK, 16, NHAT, NSRC and NCH. -/
def Reg.present (p : Config.Params) : Reg → Prop
  | .cfg => True
  | .bank b _ => b < p.nBank
  | .voice b v _ => b < p.nBank ∧ v < Config.nVoice
  | .hat h _ => h < p.nHat
  | .route i => i < p.nSrc
  | .outlast c => c < p.nCh

/-- The values a WRITE may store in a register (45_host_commands.md R245). -/
def Reg.legalValue (p : Config.Params) (d : Word) : Reg → Prop
  | .bank _ .wave => d.toNat < 4
  | .bank _ .attackN => d.toNat < 2 ^ 24
  | .bank _ .decayN => d.toNat < 2 ^ 24
  | .bank _ .releaseN => d.toNat < 2 ^ 24
  | .bank _ .sustain => d.toNat ≤ 2 ^ 31
  | .bank _ .notecnt => False
  | .hat _ .trigNote => d.toNat < 128
  | .hat _ .hdecayN => d.toNat < 2 ^ 24
  | .hat _ .b0 => True
  | .hat _ .b1 => True
  | .hat _ .b2 => True
  | .hat _ .a1 => True
  | .hat _ .a2 => True
  | .hat _ .seed => True
  | .hat _ _ => False
  | .route _ =>
    d.extractLsb' 9 23 = 0#23 ∧ d.extractLsb' 5 3 = 0#3 ∧ (d.extractLsb' 0 5).toNat < p.nCh
  | _ => False

end Sys2Proof

namespace Sys2Proof.Machine

/-- The address of offset `o` of bank `b`'s block. -/
def bankAddr (b o : Nat) : Addr := BitVec.ofNat 12 (0x100 * (b + 1) + o)

/-- The address of offset `o` of voice `v`'s group in bank `b`'s block. -/
def voiceAddr (b v o : Nat) : Addr := BitVec.ofNat 12 (0x100 * (b + 1) + 0x40 + 8 * v + o)

/-- The address of offset `o` of lane `h`'s block. -/
def hatAddr (h o : Nat) : Addr := BitVec.ofNat 12 (0x900 + 0x20 * h + o)

/-- The address of ROUTE[i]. -/
def routeAddr (i : Nat) : Addr := BitVec.ofNat 12 (0xA00 + i)

/-- The address of OUTLAST[c]. -/
def outlastAddr (c : Nat) : Addr := BitVec.ofNat 12 (0xC00 + c)

/-- The number a binary32 word that is not an infinity or a NaN stands for (20_memory.md R65). -/
def f32Value (w : Word) : ℚ :=
  let sign : ℚ := if w.getLsbD 31 then -1 else 1
  let e := (w.extractLsb' 23 8).toNat
  let f := (w.extractLsb' 0 23).toNat
  if e = 0 then sign * f * 2 ^ (-149 : ℤ) else sign * (2 ^ 23 + f) * 2 ^ ((e : ℤ) - 150)

/-! ## Runs -/

/-- `k` steps of the machine alone. -/
def runSteps : Nat → State → Host.Outcome State Fault Refusal
  | 0, s => .next s
  | k + 1, s =>
    match step s with
    | .next t => runSteps k t
    | .fault r => .fault r
    | .refused r => .refused r

/-- Dispatch the words one at a time (R241). -/
def dispatchWords (ws : List Word) (s : State) : State := ws.foldl (fun t w => dispatchWord w t) s

/-- Run commands one after the other, each to completion (R240). -/
def execAll : List Instr → State → Host.Outcome State Fault Refusal
  | [], s => .next s
  | i :: is, s =>
    match exec i s with
    | .next t => execAll is t
    | .fault r => .fault r
    | .refused r => .refused r

/-- The READs of a list of commands. -/
def readCount (is : List Instr) : Nat :=
  is.countP (fun i => match i with | .read _ => true | _ => false)

/-- One move of the system: a step of the machine or an action of the host (R250, R260). -/
def SysStep (s t : State) : Prop := step s = .next t ∨ ∃ a : HostAct, t = hostAct a s

/-- The states the system can reach from reset, for the instance `p`, whatever the host does. -/
inductive Reachable (p : Config.Params) : State → Prop where
  | reset : Reachable p (State.resetWith p)
  | move {s t : State} : Reachable p s → SysStep s t → Reachable p t

end Sys2Proof.Machine
end

