-- ==== Sys2Proof/Certificates/Slice0/Obligations.lean ====
section
/-! DEFINITION. The statements for the provers: what the numbered rules of spec/ say of the machine,
over every state and every instance. The only values of the model's own choosing that a statement
may meet are named in its docstring. -/

open Sys2Proof Sys2Proof.Machine

/-! ## Encoding -/

/-- R80 to R83: the decoder reads back every command the encoder writes, whatever words follow. -/
def Obligations.DecodeInvertsEncode : Prop :=
  ∀ (i : Instr) (rest : List Word), decode (encode i ++ rest) = .ok (i, rest)

/-- R84: a word with nonzero ignored bits does exactly what the same word with them cleared does. -/
def Obligations.IgnoredBitsChangeNothing : Prop :=
  ∀ (w : Word) (rest : List Word),
    decode (w :: rest) = decode ((w &&& usedBits (opcField w)) :: rest) ∧
    ∀ s : State, s.parser = .header →
      dispatchWord w s = dispatchWord (w &&& usedBits (opcField w)) s

/-- R81: encoding what was decoded rebuilds the header's used bits, the data word and the rest, so
decoding drops nothing but ignored bits. -/
def Obligations.EncodeRebuildsUsedBits : Prop :=
  ∀ (w : Word) (ws : List Word) (i : Instr) (rest : List Word),
    decode (w :: ws) = .ok (i, rest) →
      encode i ++ rest = (w &&& usedBits (opcField w)) :: ws

/-- R88: the worked encodings, written and read. -/
def Obligations.WorkedEncodings : Prop :=
  assembleCmd .tick = .ok [0x10000000#32] ∧
  assembleCmd (.noteOn 0 60 none) = .ok [0x2000003C#32] ∧
  assembleCmd (.noteOn 1 69 (some 100)) = .ok [0x21006445#32] ∧
  assembleCmd (.noteOff 0 60 none) = .ok [0x3000003C#32] ∧
  assembleCmd (.write (Reg.bank 0 .sustain).addr 0x80000000#32) =
    .ok [0x40000103#32, 0x80000000#32] ∧
  assembleCmd (.read (Reg.outlast 0).addr) = .ok [0x50000C00#32] ∧
  assembleCmd (.read (Reg.voice 0 15 .vstat).addr) = .ok [0x500001B8#32] ∧
  decode [0x10000000#32] = .ok (.tick, []) ∧
  decode [0x2000003C#32] = .ok (.noteOn 0 60 0, []) ∧
  decode [0x21006445#32] = .ok (.noteOn 1 69 100, []) ∧
  decode [0x3000003C#32] = .ok (.noteOff 0 60 0, []) ∧
  decode [0x40000103#32, 0x80000000#32] = .ok (.write 0x103 0x80000000, []) ∧
  decode [0x50000C00#32] = .ok (.read 0xC00, []) ∧
  decode [0x500001B8#32] = .ok (.read 0x1B8, [])

/-- R65: over a byte transport words are little-endian, and what is sent is received: whole words,
with the bytes of an unfinished word left over. -/
def Obligations.BytesCarryWords : Prop :=
  ∀ (ws : List Word) (bs : List Byte), bs.length < 4 →
    wordsOfBytes (bytesOfWords ws ++ bs) = (ws, bs) ∧
    ∀ w ∈ ws, ∀ k < 4, (bytesOfWord w)[k]? = some (w.extractLsb' (8 * k) 8)

/-- R86: the assembler's encodings, with the velocity 0 where it is not written, what it refuses, and
the register names of its examples. -/
def Obligations.AssemblerFollowsItsTable : Prop :=
  assembleCmd .nop = .ok [0x00000000#32] ∧
  assembleCmd .tick = .ok [0x10000000#32] ∧
  (∀ w : Word, assembleCmd (.word w) = .ok [w]) ∧
  (∀ u n v : Nat,
    ((∃ e, assembleCmd (.noteOn u n (some v)) = .error e) ↔ (15 < u ∨ 127 < n ∨ 127 < v)) ∧
    ((∃ e, assembleCmd (.noteOff u n (some v)) = .error e) ↔ (15 < u ∨ 127 < n ∨ 127 < v)) ∧
    (u ≤ 15 → n ≤ 127 → v ≤ 127 →
      assembleCmd (.noteOn u n (some v)) =
        .ok [BitVec.ofNat 32 (0x20000000 ||| u <<< 24 ||| v <<< 8 ||| n)] ∧
      assembleCmd (.noteOff u n (some v)) =
        .ok [BitVec.ofNat 32 (0x30000000 ||| u <<< 24 ||| v <<< 8 ||| n)])) ∧
  (∀ u n : Nat,
    ((∃ e, assembleCmd (.noteOn u n none) = .error e) ↔ (15 < u ∨ 127 < n)) ∧
    ((∃ e, assembleCmd (.noteOff u n none) = .error e) ↔ (15 < u ∨ 127 < n)) ∧
    (u ≤ 15 → n ≤ 127 →
      assembleCmd (.noteOn u n none) = .ok [BitVec.ofNat 32 (0x20000000 ||| u <<< 24 ||| n)] ∧
      assembleCmd (.noteOff u n none) = .ok [BitVec.ofNat 32 (0x30000000 ||| u <<< 24 ||| n)])) ∧
  (∀ (a : Nat) (d : Word),
    ((∃ e, assembleCmd (.write a d) = .error e) ↔ 0xFFF < a) ∧
    ((∃ e, assembleCmd (.read a) = .error e) ↔ 0xFFF < a) ∧
    (a ≤ 0xFFF →
      assembleCmd (.write a d) = .ok [BitVec.ofNat 32 (0x40000000 ||| a), d] ∧
      assembleCmd (.read a) = .ok [BitVec.ofNat 32 (0x50000000 ||| a)])) ∧
  (Reg.bank 0 .sustain).addr = 0x103 ∧ (Reg.voice 0 2 .vstat).addr = 0x150 ∧
  (Reg.hat 1 .b0).addr = 0x922 ∧ (Reg.route 3).addr = 0xA03 ∧ (Reg.outlast 1).addr = 0xC01

/-- R87: the words of every pseudo-command, for the indices the register map of some instance has
(R5, R63): banks 0 .. 7, sources 0 .. 30, lanes 0 .. 7. -/
def Obligations.PseudoCommandsExpand : Prop :=
  (∀ n : Nat, assemble (Pseudo.ticks n).expand = .ok (List.replicate n 0x10000000#32)) ∧
  (∀ (b : Nat) (a d s r w : Word), b < 8 →
    assemble (Pseudo.setAdsr b a d s r).expand =
      .ok [BitVec.ofNat 32 (0x40000101 + 0x100 * b), a, BitVec.ofNat 32 (0x40000102 + 0x100 * b), d,
        BitVec.ofNat 32 (0x40000103 + 0x100 * b), s, BitVec.ofNat 32 (0x40000104 + 0x100 * b), r] ∧
    assemble (Pseudo.setWave b w).expand = .ok [BitVec.ofNat 32 (0x40000100 + 0x100 * b), w]) ∧
  (∀ (s : Nat) (c : Word), s < 31 →
    assemble (Pseudo.setRoute s c).expand = .ok [BitVec.ofNat 32 (0x40000A00 + s), c] ∧
    assemble (Pseudo.setRouteAll s).expand = .ok [BitVec.ofNat 32 (0x40000A00 + s), 0x100#32]) ∧
  (∀ (h : Nat) (b0 b1 b2 a1 a2 note n : Word), h < 8 →
    assemble (Pseudo.setBiquad h b0 b1 b2 a1 a2).expand =
      .ok [BitVec.ofNat 32 (0x40000902 + 0x20 * h), b0, BitVec.ofNat 32 (0x40000903 + 0x20 * h), b1,
        BitVec.ofNat 32 (0x40000904 + 0x20 * h), b2, BitVec.ofNat 32 (0x40000905 + 0x20 * h), a1,
        BitVec.ofNat 32 (0x40000906 + 0x20 * h), a2] ∧
    assemble (Pseudo.setHat h note n).expand =
      .ok [BitVec.ofNat 32 (0x40000900 + 0x20 * h), note,
        BitVec.ofNat 32 (0x40000901 + 0x20 * h), n])

/-! ## The register space -/

/-- R63: every register an instance has is found at its address, and every address that names a
register names one the instance has, at that register's address: the map has no overlap. -/
def Obligations.RegisterMapIsExact : Prop :=
  ∀ p : Config.Params, p.legal →
    (∀ r : Reg, r.present p → regAt p (BitVec.ofNat 12 r.addr) = some r) ∧
    (∀ (a : Addr) (r : Reg), regAt p a = some r → r.present p ∧ r.addr = a.toNat)

/-- R64: an address that names no register of the instance reads 0 and ignores writes, and the
address ranges the rule lists are such. -/
def Obligations.UnmappedAddressesDoNothing : Prop :=
  ∀ s : State, s.cfg.legal →
    (∀ a : Addr, (∀ r : Reg, r.present s.cfg → r.addr ≠ a.toNat) →
      regRead s a = 0 ∧ ∀ d : Word, regWrite s a d = s) ∧
    (∀ a : Addr,
      ((1 ≤ a.toNat ∧ a.toNat < 0x100) ∨ (0xA20 ≤ a.toNat ∧ a.toNat < 0xC00) ∨ 0xC20 ≤ a.toNat ∨
       (∃ b o, b < 8 ∧ a.toNat = 0x100 * (b + 1) + o ∧
         ((0x06 ≤ o ∧ o < 0x40) ∨ (0xC0 ≤ o ∧ o < 0x100) ∨ (s.cfg.nBank ≤ b ∧ o < 0x100))) ∨
       (∃ b v, b < 8 ∧ v < 16 ∧ a.toNat = 0x100 * (b + 1) + 0x40 + 8 * v + 7) ∨
       (∃ h o, h < 8 ∧ a.toNat = 0x900 + 0x20 * h + o ∧
         ((0x10 ≤ o ∧ o < 0x20) ∨ (s.cfg.nHat ≤ h ∧ o < 0x20))) ∨
       (∃ i, s.cfg.nSrc ≤ i ∧ i < 0x200 ∧ a.toNat = 0xA00 + i) ∨
       (∃ c, s.cfg.nCh ≤ c ∧ c < 0x400 ∧ a.toNat = 0xC00 + c)) →
      regAt s.cfg a = none)

/-- R63, the column "read value": what RegRead returns for every register of the map, with the stage
codes 0 Idle, 1 Attack, 2 Decay, 3 Sustain, 4 Release of R22. -/
def Obligations.RegisterReadValues : Prop :=
  (Stage.code .idle = 0 ∧ Stage.code .attack = 1 ∧ Stage.code .decay = 2 ∧
    Stage.code .sustain = 3 ∧ Stage.code .release = 4) ∧
  ∀ s : State, s.Inv →
    regRead s 0 = cfgWord s.cfg ∧
    (∀ (b : Nat) (bk : Bank), s.banks[b]? = some bk →
      regRead s (bankAddr b 0) = bk.wave.setWidth 32 ∧
      regRead s (bankAddr b 1) = bk.attackN.setWidth 32 ∧
      regRead s (bankAddr b 2) = bk.decayN.setWidth 32 ∧
      regRead s (bankAddr b 3) = bk.sustain ∧
      regRead s (bankAddr b 4) = bk.releaseN.setWidth 32 ∧
      regRead s (bankAddr b 5) = bk.notecnt ∧
      ∀ (v : Nat) (x : Voice), bk.voices[v]? = some x →
        (regRead s (voiceAddr b v 0)).extractLsb' 0 3 = x.env.stage.code ∧
        (regRead s (voiceAddr b v 0)).extractLsb' 3 4 = 0#4 ∧
        (regRead s (voiceAddr b v 0)).getLsbD 7 = x.nv ∧
        (regRead s (voiceAddr b v 0)).extractLsb' 8 7 = x.note ∧
        (regRead s (voiceAddr b v 0)).extractLsb' 15 17 = 0#17 ∧
        regRead s (voiceAddr b v 1) = x.phase ∧
        regRead s (voiceAddr b v 2) = x.env.level ∧
        regRead s (voiceAddr b v 3) = x.ts ∧
        regRead s (voiceAddr b v 4) = x.env.cnt.setWidth 32 ∧
        regRead s (voiceAddr b v 5) = x.env.step ∧
        regRead s (voiceAddr b v 6) = x.env.tgt) ∧
    (∀ (i : Nat) (h : Hat), s.hats[i]? = some h →
      regRead s (hatAddr i 0x0) = h.trigNote.setWidth 32 ∧
      regRead s (hatAddr i 0x1) = h.hdecayN.setWidth 32 ∧
      regRead s (hatAddr i 0x2) = h.b0 ∧ regRead s (hatAddr i 0x3) = h.b1 ∧
      regRead s (hatAddr i 0x4) = h.b2 ∧ regRead s (hatAddr i 0x5) = h.a1 ∧
      regRead s (hatAddr i 0x6) = h.a2 ∧ regRead s (hatAddr i 0x7) = h.lfsr ∧
      (regRead s (hatAddr i 0x8)).extractLsb' 0 3 = h.env.stage.code ∧
      (regRead s (hatAddr i 0x8)).extractLsb' 3 29 = 0#29 ∧
      regRead s (hatAddr i 0x9) = h.env.level ∧
      regRead s (hatAddr i 0xA) = h.env.cnt.setWidth 32 ∧
      regRead s (hatAddr i 0xB) = h.env.step ∧
      (regRead s (hatAddr i 0xC)).toInt = h.x1.toInt ∧
      (regRead s (hatAddr i 0xD)).toInt = h.x2.toInt ∧
      regRead s (hatAddr i 0xE) = h.y1 ∧ regRead s (hatAddr i 0xF) = h.y2) ∧
    (∀ (i : Nat) (r : Word), s.route[i]? = some r → regRead s (routeAddr i) = r) ∧
    (∀ (c : Nat) (w : Word), s.outlast[c]? = some w → regRead s (outlastAddr c) = w)

/-- R41: CFG is a constant word of the instance's counts, all other bits 0, and no WRITE to any address
changes it. -/
def Obligations.CfgHoldsTheCounts : Prop :=
  ∀ s : State, s.cfg.legal →
    ((regRead s 0).extractLsb' 0 4).toNat = s.cfg.nBank ∧
    ((regRead s 0).extractLsb' 4 4).toNat = s.cfg.nHat ∧
    ((regRead s 0).extractLsb' 8 6).toNat = s.cfg.nCh ∧
    ((regRead s 0).extractLsb' 16 4).toNat = s.cfg.nExt ∧
    (regRead s 0).extractLsb' 14 2 = 0#2 ∧ (regRead s 0).extractLsb' 20 12 = 0#12 ∧
    ∀ (a : Addr) (d : Word), regRead (regWrite s a d) 0 = regRead s 0

/-! ## WRITE and READ -/

/-- R245: what a WRITE stores in each register of a voice bank; an illegal value, NOTECNT and the voice
registers leave the state as it was. -/
def Obligations.WriteToBankRegisters : Prop :=
  ∀ (s : State) (b : Nat) (d : Word), s.cfg.legal → s.parser = .header → b < s.cfg.nBank →
    exec (.write (bankAddr b 0) d) s = .next (if d.toNat < 4 then
      { s with banks := s.banks.modify b (fun k => { k with wave := d.setWidth 2 }) } else s) ∧
    exec (.write (bankAddr b 1) d) s = .next (if d.toNat < 2 ^ 24 then
      { s with banks := s.banks.modify b (fun k => { k with attackN := d.setWidth 24 }) } else s) ∧
    exec (.write (bankAddr b 2) d) s = .next (if d.toNat < 2 ^ 24 then
      { s with banks := s.banks.modify b (fun k => { k with decayN := d.setWidth 24 }) } else s) ∧
    exec (.write (bankAddr b 3) d) s = .next (if d.toNat ≤ 2 ^ 31 then
      { s with banks := s.banks.modify b (fun k => { k with sustain := d }) } else s) ∧
    exec (.write (bankAddr b 4) d) s = .next (if d.toNat < 2 ^ 24 then
      { s with banks := s.banks.modify b (fun k => { k with releaseN := d.setWidth 24 }) } else s) ∧
    exec (.write (bankAddr b 5) d) s = .next s ∧
    ∀ v o : Nat, v < 16 → o < 8 → exec (.write (voiceAddr b v o) d) s = .next s

/-- R245: what a WRITE stores in each register of a hat lane, SEED 0 as 1; an illegal value, the
read-only registers and the unmapped offsets of the lane leave the state as it was. -/
def Obligations.WriteToHatRegisters : Prop :=
  ∀ (s : State) (i : Nat) (d : Word), s.cfg.legal → s.parser = .header → i < s.cfg.nHat →
    exec (.write (hatAddr i 0) d) s = .next (if d.toNat < 128 then
      { s with hats := s.hats.modify i (fun h => { h with trigNote := d.setWidth 7 }) } else s) ∧
    exec (.write (hatAddr i 1) d) s = .next (if d.toNat < 2 ^ 24 then
      { s with hats := s.hats.modify i (fun h => { h with hdecayN := d.setWidth 24 }) } else s) ∧
    exec (.write (hatAddr i 2) d) s =
      .next { s with hats := s.hats.modify i (fun h => { h with b0 := d }) } ∧
    exec (.write (hatAddr i 3) d) s =
      .next { s with hats := s.hats.modify i (fun h => { h with b1 := d }) } ∧
    exec (.write (hatAddr i 4) d) s =
      .next { s with hats := s.hats.modify i (fun h => { h with b2 := d }) } ∧
    exec (.write (hatAddr i 5) d) s =
      .next { s with hats := s.hats.modify i (fun h => { h with a1 := d }) } ∧
    exec (.write (hatAddr i 6) d) s =
      .next { s with hats := s.hats.modify i (fun h => { h with a2 := d }) } ∧
    exec (.write (hatAddr i 7) d) s =
      .next { s with hats := s.hats.modify i (fun h => { h with lfsr := if d = 0 then 1 else d }) } ∧
    ∀ o : Nat, 8 ≤ o → o < 0x20 → exec (.write (hatAddr i o) d) s = .next s

/-- R245: what a WRITE stores in ROUTE; an illegal ROUTE value and a WRITE to CFG, OUTLAST or an
unmapped address leave the state as it was. -/
def Obligations.WriteToRouteAndReadOnly : Prop :=
  ∀ (s : State) (d : Word), s.cfg.legal → s.parser = .header →
    (∀ i : Nat, i < s.cfg.nSrc → exec (.write (routeAddr i) d) s =
      .next (if d.extractLsb' 9 23 = 0#23 ∧ d.extractLsb' 5 3 = 0#3 ∧
          (d.extractLsb' 0 5).toNat < s.cfg.nCh then
        { s with route := s.route.set i d } else s)) ∧
    exec (.write 0 d) s = .next s ∧
    (∀ c : Nat, c < s.cfg.nCh → exec (.write (outlastAddr c) d) s = .next s) ∧
    (∀ a : Addr, (∀ r : Reg, r.present s.cfg → r.addr ≠ a.toNat) →
      exec (.write a d) s = .next s)

/-- R68: a WRITE changes only the register it names, repeating it changes nothing more, and a READ
changes no register: of the whole state it changes only the read-data queue. -/
def Obligations.WriteChangesOnlyItsRegister : Prop :=
  ∀ (s : State) (a : Addr) (d : Word), s.parser = .header →
    (∃ t : State, exec (.write a d) s = .next t ∧
      (∀ a' : Addr, a' ≠ a → regRead t a' = regRead s a') ∧
      t = { s with banks := t.banks, hats := t.hats, route := t.route } ∧
      exec (.write a d) t = .next t) ∧
    (∃ t : State, exec (.read a) s = .next t ∧ t = { s with rdata := t.rdata } ∧
      ∀ a' : Addr, regRead t a' = regRead s a')

/-- R62, R66, R245: what a legal WRITE stores reads back as the word written, SEED 0 as 1. -/
def Obligations.WriteThenReadBack : Prop :=
  ∀ (s : State) (r : Reg) (d : Word), s.Inv → r.present s.cfg → r.legalValue s.cfg d →
    (((∀ i, r ≠ .hat i .seed) ∨ d ≠ 0) →
      regRead (regWrite s (BitVec.ofNat 12 r.addr) d) (BitVec.ofNat 12 r.addr) = d) ∧
    ((∃ i, r = .hat i .seed) → d = 0 →
      regRead (regWrite s (BitVec.ofNat 12 r.addr) d) (BitVec.ofNat 12 r.addr) = 1)

/-- R246: a READ word emits RegRead(a) and changes nothing else; an unmapped address reads 0; after
reset READ CFG emits the counts, 0x00000211 for the instance of the rule's example. The parameters
the rule does not mention are free. -/
def Obligations.ReadEmitsTheRegister : Prop :=
  (∀ (s : State) (a : Addr), s.rdata.length < s.cfg.rdataDepth →
    exec (.read a) s = .next { s with rdata := s.rdata ++ [regRead s a] } ∧
    (regAt s.cfg a = none →
      exec (.read a) s = .next { s with rdata := s.rdata ++ [0] })) ∧
  (∀ (s : State) (w : Word) (rest : List Word), s.parser = .header → s.port = w :: rest →
    (opcField w).toNat = 5 → s.rdata.length < s.cfg.rdataDepth →
    step s = .next { s with port := rest, rdata := s.rdata ++ [regRead s (w.extractLsb' 0 12)] }) ∧
  (∀ p : Config.Params, p.legal → ∃ w : Word,
    exec (.read 0) (State.resetWith p) = .next { State.resetWith p with rdata := [w] } ∧
    w.toNat = p.nBank ||| p.nHat <<< 4 ||| p.nCh <<< 8 ||| p.nExt <<< 16 ∧
    (p.nBank = 1 → p.nHat = 1 → p.nCh = 2 → p.nExt = 0 → w = 0x00000211#32))

/-- R247: a READ appends one word to the read-data queue where there is room, and no step drops or
changes a word of it; while the queue is full a READ on the port is held, with everything behind it:
any number of steps changes nothing, until the host removes a word; then the READ runs and its word
is the last of the queue. That a held step answers the same state is the model's form of R247's stuck
state (log 4). -/
def Obligations.ReadIsHeldWhileTheQueueIsFull : Prop :=
  (∀ (s : State) (a : Addr), s.rdata.length < s.cfg.rdataDepth →
    exec (.read a) s = .next { s with rdata := s.rdata ++ [regRead s a] }) ∧
  (∀ s t : State, step s = .next t → ∃ ws : List Word, t.rdata = s.rdata ++ ws ∧ ws.length ≤ 1) ∧
  (∀ (s : State) (a : Addr) (rest : List Word), s.Inv → s.parser = .header →
    decode s.port = .ok (.read a, rest) → s.rdata.length = s.cfg.rdataDepth →
    (∀ k : Nat, runSteps k s = .next s) ∧
    step (hostAct .takeRdata s) =
      .next { s with port := rest, rdata := s.rdata.tail ++ [regRead s a] })

/-! ## NOP and the reserved opcodes -/

/-- R242, R248: NOP and the ten reserved commands change nothing and output nothing; a step takes
their one word from the port and nothing else, so the next word is a header again. -/
def Obligations.NopAndReservedDoNothing : Prop :=
  (∀ s : State,
    exec .nop s = .next s ∧ exec .rsvd6 s = .next s ∧ exec .rsvd7 s = .next s ∧
    exec .rsvd8 s = .next s ∧ exec .rsvd9 s = .next s ∧ exec .rsvdA s = .next s ∧
    exec .rsvdB s = .next s ∧ exec .rsvdC s = .next s ∧ exec .rsvdD s = .next s ∧
    exec .rsvdE s = .next s ∧ exec .rsvdF s = .next s) ∧
  (∀ (s : State) (w : Word) (rest : List Word), s.parser = .header → s.port = w :: rest →
    ((opcField w).toNat = 0 ∨ 6 ≤ (opcField w).toNat) → step s = .next { s with port := rest })

/-! ## Note commands -/

/-- R151, R152: `select` answers a voice of the bank: the least Idle voice; else, of the voices in
Release, the least one with the least level; else the least voice with the greatest age
(NOTECNT − TS) mod 2^32. -/
def Obligations.SelectFollowsThePriority : Prop :=
  ∀ bk : Bank, bk.voices ≠ [] →
    bk.select < bk.voices.length ∧
    ((∃ x ∈ bk.voices, x.env.stage = .idle) →
      (∃ x, bk.voices[bk.select]? = some x ∧ x.env.stage = .idle) ∧
      ∀ (j : Nat) (y : Voice), j < bk.select → bk.voices[j]? = some y → y.env.stage ≠ .idle) ∧
    ((∀ x ∈ bk.voices, x.env.stage ≠ .idle) → (∃ x ∈ bk.voices, x.env.stage = .release) →
      ∃ x, bk.voices[bk.select]? = some x ∧ x.env.stage = .release ∧
      ∀ (j : Nat) (y : Voice), bk.voices[j]? = some y → y.env.stage = .release →
        x.env.level.toNat ≤ y.env.level.toNat ∧
        (j < bk.select → x.env.level.toNat < y.env.level.toNat)) ∧
    ((∀ x ∈ bk.voices, x.env.stage ≠ .idle ∧ x.env.stage ≠ .release) →
      ∃ x, bk.voices[bk.select]? = some x ∧
      ∀ (j : Nat) (y : Voice), bk.voices[j]? = some y →
        ((bk.notecnt.toNat : Int) - y.ts.toNat) % 2 ^ 32 ≤
          ((bk.notecnt.toNat : Int) - x.ts.toNat) % 2 ^ 32 ∧
        (j < bk.select → ((bk.notecnt.toNat : Int) - y.ts.toNat) % 2 ^ 32 <
          ((bk.notecnt.toNat : Int) - x.ts.toNat) % 2 ^ 32))

/-- R153: NOTE_ON on a bank runs, gives the selected voice the note, phase 0, the time stamp and an
Attack from its present level, counts NOTECNT up, and changes nothing else; the velocity does not
matter (R155). -/
def Obligations.NoteOnAllocatesAVoice : Prop :=
  ∀ (s : State) (u : BitVec 4) (n vel : BitVec 7) (bk : Bank), s.Inv →
    s.banks[u.toNat]? = some bk →
    ∃ (t : State) (bk' : Bank) (x y : Voice),
      exec (.noteOn u n vel) s = .next t ∧ t = { s with banks := t.banks } ∧
      t.banks.length = s.banks.length ∧ t.banks[u.toNat]? = some bk' ∧
      (∀ b : Nat, b ≠ u.toNat → t.banks[b]? = s.banks[b]?) ∧
      bk' = { bk with notecnt := bk.notecnt + 1, voices := bk'.voices } ∧
      bk'.voices.length = bk.voices.length ∧
      bk.voices[bk.select]? = some x ∧ bk'.voices[bk.select]? = some y ∧
      (∀ j : Nat, j ≠ bk.select → bk'.voices[j]? = bk.voices[j]?) ∧
      y.note = n ∧ y.nv = true ∧ y.phase = 0 ∧ y.ts = bk.notecnt ∧
      y.env.stage = .attack ∧ y.env.level = x.env.level ∧ y.env.tgt.toNat = 2 ^ 31 ∧
      y.env.cnt = bk.attackN ∧
      y.env.step.toInt = if bk.attackN.toNat ≤ 1 then 0
        else ((2 ^ 31 - x.env.level.toNat) / bk.attackN.toNat : Nat)

/-- R154: NOTE_OFF on a bank runs and moves every voice that holds the note in Attack, Decay or
Sustain to Release from its present level; every other voice and everything else is unchanged. -/
def Obligations.NoteOffReleasesEveryMatch : Prop :=
  ∀ (s : State) (u : BitVec 4) (n vel : BitVec 7) (bk : Bank), s.Inv →
    s.banks[u.toNat]? = some bk →
    ∃ (t : State) (bk' : Bank),
      exec (.noteOff u n vel) s = .next t ∧ t = { s with banks := t.banks } ∧
      t.banks.length = s.banks.length ∧ t.banks[u.toNat]? = some bk' ∧
      (∀ b : Nat, b ≠ u.toNat → t.banks[b]? = s.banks[b]?) ∧
      bk' = { bk with voices := bk'.voices } ∧ bk'.voices.length = bk.voices.length ∧
      ∀ (j : Nat) (x : Voice), bk.voices[j]? = some x → ∃ y, bk'.voices[j]? = some y ∧
        if x.nv = true ∧ x.note = n ∧
            (x.env.stage = .attack ∨ x.env.stage = .decay ∨ x.env.stage = .sustain) then
          y = { x with env := y.env } ∧ y.env.stage = .release ∧ y.env.level = x.env.level ∧
          y.env.tgt = 0 ∧ y.env.cnt = bk.releaseN ∧
          y.env.step.toInt = if bk.releaseN.toNat ≤ 1 then 0
            else -((x.env.level.toNat / bk.releaseN.toNat : Nat) : Int)
        else y = x

/-- R186: NOTE_ON on a hat lane: the trigger note restarts the lane from any stage with level FULL and
a cleared filter history, LFSR and everything else unchanged; any other note changes nothing. -/
def Obligations.NoteOnTriggersAHatLane : Prop :=
  ∀ (s : State) (u : BitVec 4) (n vel : BitVec 7) (i : Nat) (h : Hat), s.Inv →
    u.toNat = s.cfg.nBank + i → s.hats[i]? = some h →
    (n = h.trigNote → ∃ step : Word,
      exec (.noteOn u n vel) s = .next { s with hats := s.hats.set i { h with
        env := { stage := .release, level := 0x80000000#32, cnt := h.hdecayN, step := step, tgt := 0 }
        x1 := 0, x2 := 0, y1 := 0, y2 := 0 } } ∧
      step.toInt = if h.hdecayN.toNat ≤ 1 then 0 else -((2 ^ 31 / h.hdecayN.toNat : Nat) : Int)) ∧
    (n ≠ h.trigNote → exec (.noteOn u n vel) s = .next s)

/-- R187, R243: NOTE_OFF on a hat lane, and either note command to a unit that does not exist, change
nothing. -/
def Obligations.HatNoteOffAndAbsentUnits : Prop :=
  ∀ (s : State) (u : BitVec 4) (n vel : BitVec 7),
    (s.cfg.nBank ≤ u.toNat → exec (.noteOff u n vel) s = .next s) ∧
    (s.cfg.nBank + s.cfg.nHat ≤ u.toNat → exec (.noteOn u n vel) s = .next s)

/-- R158: sixteen NOTE_ONs to one bank leave its 16 voices active, and so does a seventeenth, which
therefore reuses a voice; with all voices Idle at the start the first 16 notes go to voices 0 .. 15 in
order, no voice is then in Release, `select` answers voice 0, and the 17th note replaces voice 0's. -/
def Obligations.SeventeenNoteOns : Prop :=
  ∀ (s : State) (u : BitVec 4) (vel n : BitVec 7) (notes : List (BitVec 7)) (bk : Bank), s.Inv →
    notes.length = 16 → s.banks[u.toNat]? = some bk →
    ∃ (t t' : State) (bk' bk'' : Bank),
      execAll (notes.map (fun m => Instr.noteOn u m vel)) s = .next t ∧
      exec (.noteOn u n vel) t = .next t' ∧
      t.banks[u.toNat]? = some bk' ∧ t'.banks[u.toNat]? = some bk'' ∧
      bk'.voices.length = 16 ∧ bk''.voices.length = 16 ∧
      (∀ x ∈ bk'.voices, x.env.stage ≠ .idle) ∧ (∀ x ∈ bk''.voices, x.env.stage ≠ .idle) ∧
      ((∀ x ∈ bk.voices, x.env.stage = .idle) →
        bk'.voices.map Voice.note = notes ∧ (∀ x ∈ bk'.voices, x.env.stage ≠ .release) ∧
        bk'.select = 0 ∧ bk''.voices.map Voice.note = n :: notes.drop 1)

/-! ## The envelope -/

/-- R121: ramp entry keeps the level and the stage, takes target and length, and fixes the step; no
step is larger than 2^30, and no tick of the ramp computes it again. -/
def Obligations.RampEntryFixesTheStep : Prop :=
  ∀ (e : Env) (t : Word) (n : BitVec 24), e.level.toNat ≤ 2 ^ 31 → t.toNat ≤ 2 ^ 31 →
    (e.enterRamp t n).level = e.level ∧ (e.enterRamp t n).stage = e.stage ∧
    (e.enterRamp t n).tgt = t ∧ (e.enterRamp t n).cnt = n ∧
    (e.enterRamp t n).step.toInt = (if n.toNat ≤ 1 then 0
      else if e.level.toNat ≤ t.toNat then (((t.toNat - e.level.toNat) / n.toNat : Nat) : Int)
      else -(((e.level.toNat - t.toNat) / n.toNat : Nat) : Int)) ∧
    -2 ^ 30 ≤ (e.enterRamp t n).step.toInt ∧ (e.enterRamp t n).step.toInt ≤ 2 ^ 30 ∧
    ∀ (dn : BitVec 24) (sus : Word) (j : Nat), j < max n.toNat 1 →
      ((Env.voiceTick · dn sus)^[j] (e.enterRamp t n)).step = (e.enterRamp t n).step ∧
      (Env.hatTick^[j] (e.enterRamp t n)).step = (e.enterRamp t n).step

/-- R122 to R127: a ramp is entered with a step towards its target of |target − level| div N, or 0 for
N ≤ 1, and ends at its target after exactly max(N, 1) ticks: before that the stage stays, the level is the start plus a step
per tick and the count goes down. The last tick sets the level to the target and enters the next
stage; the Decay that follows an Attack runs from FULL to the SUSTAIN of that tick, with the step for
its DECAY_N. A Decay ends at the SUSTAIN of its entry, whatever SUSTAIN is by then (`sus'`). -/
def Obligations.RampLastsItsLength : Prop :=
  ∀ (e : Env) (sus sus' : Word) (n dn : BitVec 24), e.level.toNat ≤ 2 ^ 31 → sus.toNat ≤ 2 ^ 31 →
    (e.enterAttack n).step.toInt =
      (if n.toNat ≤ 1 then 0 else (((2 ^ 31 - e.level.toNat) / n.toNat : Nat) : Int)) ∧
    (∀ j : Nat, j < max n.toNat 1 →
      ((Env.voiceTick · dn sus)^[j] (e.enterAttack n)).stage = .attack ∧
      (((Env.voiceTick · dn sus)^[j] (e.enterAttack n)).level.toNat : Int) =
        e.level.toNat + j * (e.enterAttack n).step.toInt ∧
      ((Env.voiceTick · dn sus)^[j] (e.enterAttack n)).cnt.toNat = n.toNat - j) ∧
    ((Env.voiceTick · dn sus)^[max n.toNat 1] (e.enterAttack n)).stage = .decay ∧
    ((Env.voiceTick · dn sus)^[max n.toNat 1] (e.enterAttack n)).level.toNat = 2 ^ 31 ∧
    ((Env.voiceTick · dn sus)^[max n.toNat 1] (e.enterAttack n)).cnt = dn ∧
    ((Env.voiceTick · dn sus)^[max n.toNat 1] (e.enterAttack n)).tgt = sus ∧
    ((Env.voiceTick · dn sus)^[max n.toNat 1] (e.enterAttack n)).step.toInt =
      (if dn.toNat ≤ 1 then 0 else -(((2 ^ 31 - sus.toNat) / dn.toNat : Nat) : Int)) ∧
    (sus.toNat ≤ e.level.toNat →
      (e.enterDecay sus n).step.toInt =
        (if n.toNat ≤ 1 then 0 else -(((e.level.toNat - sus.toNat) / n.toNat : Nat) : Int)) ∧
      (∀ j : Nat, j < max n.toNat 1 →
        ((Env.voiceTick · dn sus')^[j] (e.enterDecay sus n)).stage = .decay ∧
        (((Env.voiceTick · dn sus')^[j] (e.enterDecay sus n)).level.toNat : Int) =
          e.level.toNat + j * (e.enterDecay sus n).step.toInt ∧
        ((Env.voiceTick · dn sus')^[j] (e.enterDecay sus n)).cnt.toNat = n.toNat - j) ∧
      (Env.voiceTick · dn sus')^[max n.toNat 1] (e.enterDecay sus n) =
        { stage := .sustain, level := sus, cnt := 0, step := 0, tgt := sus }) ∧
    (e.enterRelease n).step.toInt =
      (if n.toNat ≤ 1 then 0 else -((e.level.toNat / n.toNat : Nat) : Int)) ∧
    (∀ j : Nat, j < max n.toNat 1 →
      ((Env.voiceTick · dn sus')^[j] (e.enterRelease n)).stage = .release ∧
      (((Env.voiceTick · dn sus')^[j] (e.enterRelease n)).level.toNat : Int) =
        e.level.toNat + j * (e.enterRelease n).step.toInt ∧
      ((Env.voiceTick · dn sus')^[j] (e.enterRelease n)).cnt.toNat = n.toNat - j ∧
      Env.hatTick^[j] (e.enterRelease n) = (Env.voiceTick · dn sus')^[j] (e.enterRelease n)) ∧
    (Env.voiceTick · dn sus')^[max n.toNat 1] (e.enterRelease n) =
      { stage := .idle, level := 0, cnt := 0, step := 0, tgt := 0 } ∧
    Env.hatTick^[max n.toNat 1] (e.enterRelease n) =
      { stage := .idle, level := 0, cnt := 0, step := 0, tgt := 0 }

/-- R120, R128, R130, R131: the stage after each event, and what a Sustain or Idle tick and a gate-off
in Release or Idle leave unchanged. -/
def Obligations.StageTransitions : Prop :=
  ∀ (e : Env) (sus : Word) (n dn : BitVec 24),
    (e.stage = .idle → e.voiceTick dn sus = e ∧ e.hatTick = e ∧ e.gateOff n = e) ∧
    (e.stage = .attack →
      (e.voiceTick dn sus).stage = (if e.cnt.toNat ≤ 1 then .decay else .attack) ∧
      (e.gateOff n).stage = .release ∧ (e.gateOff n).level = e.level) ∧
    (e.stage = .decay →
      (e.voiceTick dn sus).stage = (if e.cnt.toNat ≤ 1 then .sustain else .decay) ∧
      (e.gateOff n).stage = .release ∧ (e.gateOff n).level = e.level) ∧
    (e.stage = .sustain → e.voiceTick dn sus = { e with level := sus } ∧
      (e.gateOff n).stage = .release ∧ (e.gateOff n).level = e.level) ∧
    (e.stage = .release →
      (e.voiceTick dn sus).stage = (if e.cnt.toNat ≤ 1 then .idle else .release) ∧
      e.hatTick = e.voiceTick dn sus ∧ e.gateOff n = e) ∧
    (e.enterAttack n).stage = .attack ∧ (e.enterAttack n).level = e.level ∧
    (e.oneShot n).stage = .release ∧ (e.oneShot n).level.toNat = 2 ^ 31

/-- R120: no command but a NOTE_ON to its bank takes a voice out of Idle, and a voice enters Idle only
by a TICK that ends its Release. -/
def Obligations.IdleIsLeftByNoteOnOnly : Prop :=
  ∀ (i : Instr) (s t : State) (b v : Nat) (bk bk' : Bank) (x y : Voice),
    exec i s = .next t → s.banks[b]? = some bk → t.banks[b]? = some bk' →
    bk.voices[v]? = some x → bk'.voices[v]? = some y →
    (x.env.stage = .idle → y.env.stage ≠ .idle →
      ∃ (u : BitVec 4) (n vel : BitVec 7), i = .noteOn u n vel ∧ u.toNat = b ∧ bk.select = v) ∧
    (x.env.stage ≠ .idle → y.env.stage = .idle →
      i = .tick ∧ x.env.stage = .release ∧ x.env.cnt.toNat ≤ 1 ∧ y.nv = false ∧ y.note = 0)

/-- R132: in a legal record the level stays within 0 .. FULL, never falls in Attack and never rises in
Decay and Release. -/
def Obligations.EnvelopeIsMonotone : Prop :=
  ∀ (e : Env) (sus : Word) (dn : BitVec 24), e.wf → sus.toNat ≤ 2 ^ 31 →
    (e.voiceTick dn sus).level.toNat ≤ 2 ^ 31 ∧
    (e.stage = .attack → e.level.toNat ≤ (e.voiceTick dn sus).level.toNat) ∧
    (e.stage = .decay → (e.voiceTick dn sus).level.toNat ≤ e.level.toNat) ∧
    (e.stage = .release → (e.voiceTick dn sus).level.toNat ≤ e.level.toNat ∧
      e.hatTick.level.toNat ≤ e.level.toNat)

/-- R133: no WRITE changes an envelope record, and no tick of a running ramp depends on the parameters
of its bank, so the ramp keeps its step and target: not a tick before the last, of any ramp, and not
the last tick of a Decay or a Release. The last tick of an Attack or a Decay sets the level to the
latched target; a Sustain tick reads SUSTAIN anew. -/
def Obligations.ParametersAreLatched : Prop :=
  (∀ (s : State) (a : Addr) (d : Word), ∃ t, exec (.write a d) s = .next t ∧
    t.banks.map Bank.voices = s.banks.map Bank.voices ∧
    t.hats.map Hat.env = s.hats.map Hat.env) ∧
  (∀ (e : Env) (s1 s2 : Word) (d1 d2 : BitVec 24),
    (2 ≤ e.cnt.toNat → e.stage ≠ .sustain →
      e.voiceTick d1 s1 = e.voiceTick d2 s2 ∧ (e.voiceTick d1 s1).tgt = e.tgt ∧
      (e.voiceTick d1 s1).step = e.step ∧ (e.voiceTick d1 s1).stage = e.stage) ∧
    (e.stage = .decay ∨ e.stage = .release → e.voiceTick d1 s1 = e.voiceTick d2 s2) ∧
    (e.stage = .attack ∨ e.stage = .decay → e.cnt.toNat ≤ 1 →
      (e.voiceTick d1 s1).level = e.tgt) ∧
    (e.stage = .sustain → (e.voiceTick d1 s1).level = s1))

/-! ## Waveforms and noise -/

/-- R103, R106 to R109: the selector's triangle, sawtooth and square of every phase, and every
waveform, the sine too, is bounded by ±2^23 at every phase. -/
def Obligations.WaveIsBounded : Prop :=
  (∀ (w : BitVec 2) (p : Word), -2 ^ 23 ≤ wave w p ∧ wave w p ≤ 2 ^ 23) ∧
  ∀ p : Word,
    (p.toNat < 2 ^ 30 → wave 1 p = (p.toNat / 2 ^ 7 : Nat)) ∧
    (2 ^ 30 ≤ p.toNat → p.toNat < 3 * 2 ^ 30 → wave 1 p = 2 ^ 24 - (p.toNat / 2 ^ 7 : Nat)) ∧
    (3 * 2 ^ 30 ≤ p.toNat → wave 1 p = (p.toNat / 2 ^ 7 : Nat) - 2 ^ 25) ∧
    wave 2 p = (p.toNat / 2 ^ 8 : Nat) - 2 ^ 23 ∧
    (p.toNat < 2 ^ 31 → wave 3 p = 2 ^ 23) ∧ (2 ^ 31 ≤ p.toNat → wave 3 p = -2 ^ 23)

/-- R104, R105: T[k] is 2^23 · sin(2πk/1024) rounded to the nearest integer, for k = 0 .. 1024, no entry
being a tie; the sine is the table interpolated, by floor division, between the entries at P[31:22]
and the next, so it lies between them and is exact at the table's phases. -/
def Obligations.SineLiesBetweenEntries : Prop :=
  (∀ k : Nat, k ≤ 1024 →
    |(sineTable k : ℝ) - 2 ^ 23 * Real.sin (2 * Real.pi * k / 1024)| < 1 / 2) ∧
  (∀ p : Word,
    wave 0 p = sineTable (p.toNat / 2 ^ 22) +
      (sineTable (p.toNat / 2 ^ 22 + 1) - sineTable (p.toNat / 2 ^ 22)) *
        (p.toNat % 2 ^ 22 : Nat) / 2 ^ 22 ∧
    min (sineTable (p.toNat / 2 ^ 22)) (sineTable (p.toNat / 2 ^ 22 + 1)) ≤ wave 0 p ∧
    wave 0 p ≤ max (sineTable (p.toNat / 2 ^ 22)) (sineTable (p.toNat / 2 ^ 22 + 1))) ∧
  (∀ k : Nat, k < 1024 → wave 0 (BitVec.ofNat 32 (k * 2 ^ 22)) = sineTable k)

/-- R180: the noise step is the recurrence with the shifts 13 left, 17 right and 5 left, each an
exclusive or; it is injective, so two generator states never merge, and only 0 steps to 0. -/
def Obligations.NoiseStepIsInjective : Prop :=
  (∀ x : Word, ∃ y z : Nat,
    y = x.toNat ^^^ (x.toNat * 2 ^ 13 % 2 ^ 32) ∧ z = y ^^^ (y / 2 ^ 17) ∧
    (xorshift x).toNat = z ^^^ (z * 2 ^ 5 % 2 ^ 32)) ∧
  Function.Injective xorshift ∧ ∀ x : Word, xorshift x = 0 ↔ x = 0

/-! ## TICK -/

/-- R156, R210: TICK runs; every Idle voice is unchanged, every other voice advances its phase and
envelope, entering Idle drops its note; parameters, time stamps and everything outside the units and
the output are unchanged. The port schedule `extIn` and the count `tickNo` are the model's (log 2). -/
def Obligations.TickAdvancesVoices : Prop :=
  ∀ s : State, s.Inv → ∃ t : State, exec .tick s = .next t ∧
    t = { s with banks := t.banks, hats := t.hats, outlast := t.outlast, frames := t.frames,
                 extIn := s.extIn.tail, tickNo := s.tickNo + 1 } ∧
    t.banks.length = s.banks.length ∧ t.hats.length = s.hats.length ∧
    ∀ (b : Nat) (bk : Bank), s.banks[b]? = some bk → ∃ bk' : Bank, t.banks[b]? = some bk' ∧
      bk' = { bk with voices := bk'.voices } ∧ bk'.voices.length = bk.voices.length ∧
      ∀ (v : Nat) (x : Voice), bk.voices[v]? = some x → ∃ y : Voice, bk'.voices[v]? = some y ∧
        (x.env.stage = .idle → y = x) ∧
        (x.env.stage ≠ .idle → ∃ inc : Word, s.cfg.noteInc[x.note.toNat]? = some inc ∧
          y.phase.toNat = (x.phase.toNat + inc.toNat) % 2 ^ 32 ∧ y.ts = x.ts ∧
          y.env = x.env.voiceTick bk.decayN bk.sustain ∧
          (y.env.stage = .idle → y.nv = false ∧ y.note = 0) ∧
          (y.env.stage ≠ .idle → y.nv = x.nv ∧ y.note = x.note))

/-- R180, R181, R184, R188: in a TICK an Idle lane is unchanged; any other lane steps its noise
generator, filters the new sample, shifts the filter history and ticks its envelope; its parameters
are unchanged. -/
def Obligations.TickAdvancesHatLanes : Prop :=
  ∀ s : State, s.Inv → ∃ t : State, exec .tick s = .next t ∧
    ∀ (i : Nat) (h : Hat), s.hats[i]? = some h → ∃ h' : Hat, t.hats[i]? = some h' ∧
      (h.env.stage = .idle → h' = h) ∧
      (h.env.stage ≠ .idle → ∃ x y acc : Int,
        x = (h'.lfsr.toNat / 2 ^ 8 : Nat) - 2 ^ 23 ∧
        acc = h.b0.toInt * x + h.b1.toInt * h.x1.toInt + h.b2.toInt * h.x2.toInt
          - h.a1.toInt * h.y1.toInt - h.a2.toInt * h.y2.toInt ∧
        y = max (-2 ^ 31) (min (acc / 2 ^ 30) (2 ^ 31 - 1)) ∧
        h'.lfsr = xorshift h.lfsr ∧ h'.x1.toInt = x ∧ h'.x2 = h.x1 ∧ h'.y1.toInt = y ∧
        h'.y2 = h.y1 ∧ h'.env = h.env.hatTick ∧
        h' = { h with lfsr := h'.lfsr, x1 := h'.x1, x2 := h'.x2, y1 := h'.y1, y2 := h'.y2,
                      env := h'.env } ∧
        s.sources[s.cfg.nBank + i]? = some (y * h.env.level.toNat / 2 ^ 31))

/-- R210, R213, R214, R216: TICK emits exactly one frame of NCH words, which is also OUTLAST; its word
for channel c is f32 of the exact sum of the sources whose ROUTE has ALL set or CH = c. -/
def Obligations.TickEmitsTheMixedFrame : Prop :=
  ∀ s : State, s.Inv → ∃ t : State, exec .tick s = .next t ∧
    t.frames = s.frames ++ [t.outlast] ∧ t.outlast.length = s.cfg.nCh ∧
    s.sources.length = s.cfg.nSrc ∧
    ∀ c : Nat, c < s.cfg.nCh → t.outlast[c]? = some (f32 (∑ i ∈ Finset.range s.cfg.nSrc,
      if (s.route.getD i 0).getLsbD 8 = true ∨ ((s.route.getD i 0).extractLsb' 0 5).toNat = c then
        s.sources.getD i 0 else 0))

/-- R157, R188: a bank's source value is the sum of its voices' samples; a lane's is 0 when it is Idle
and else the filtered noise sample times the level before the envelope tick; with their ranges, and
every accumulator stays below 2^36 in magnitude. An external port's source value is its word read as
signed: which word that is, the vector scheduled in `extIn` or, where that has none, the free value
`Config.extPort`, is the model's choice (log 2, DESIGN CHOICE). -/
def Obligations.SourceValuesAndRanges : Prop :=
  ∀ s : State, s.Inv →
    (∀ (b : Nat) (bk : Bank), s.banks[b]? = some bk → ∃ src : Int, s.sources[b]? = some src ∧
      src = (bk.voices.map (fun x => if x.env.stage = .idle then 0 else
        wave bk.wave (x.phase + s.cfg.noteInc.getD x.note.toNat 0) * x.env.level.toNat / 2 ^ 31)).sum ∧
      -2 ^ 27 ≤ src ∧ src ≤ 2 ^ 27) ∧
    (∀ (i : Nat) (h : Hat), s.hats[i]? = some h → ∃ src : Int,
      s.sources[s.cfg.nBank + i]? = some src ∧ -2 ^ 31 ≤ src ∧ src ≤ 2 ^ 31 - 1 ∧
      (h.env.stage = .idle → src = 0) ∧
      (h.env.stage ≠ .idle → ∃ x acc : Int,
        x = ((xorshift h.lfsr).toNat / 2 ^ 8 : Nat) - 2 ^ 23 ∧
        acc = h.b0.toInt * x + h.b1.toInt * h.x1.toInt + h.b2.toInt * h.x2.toInt
          - h.a1.toInt * h.y1.toInt - h.a2.toInt * h.y2.toInt ∧
        src = max (-2 ^ 31) (min (acc / 2 ^ 30) (2 ^ 31 - 1)) * h.env.level.toNat / 2 ^ 31)) ∧
    (∀ e : Nat, e < s.cfg.nExt →
      (s.extIn = [] →
        s.sources[s.cfg.nBank + s.cfg.nHat + e]? = some (Config.extPort s.tickNo e).toInt) ∧
      (∀ (v : List Word) (vs : List (List Word)), s.extIn = v :: vs →
        (∀ w : Word, v[e]? = some w →
          s.sources[s.cfg.nBank + s.cfg.nHat + e]? = some w.toInt) ∧
        (v[e]? = none →
          s.sources[s.cfg.nBank + s.cfg.nHat + e]? =
            some (Config.extPort s.tickNo e).toInt))) ∧
    (∀ (c : Nat), |mixAcc s.route s.sources c| < 2 ^ 36)

/-- R215: f32(a) is the binary32 value nearest to a · 2^−23, ties to even, for every value an
accumulator can have. What number a word stands for is `f32Value`, the general-knowledge layout that
the spec adopts (log 14). -/
def Obligations.F32RoundsToNearestEven : Prop :=
  ∀ (a : Int), |a| < 2 ^ 36 → ∀ w : Word, (w.extractLsb' 23 8).toNat ≠ 255 →
    |f32Value (f32 a) - (a : ℚ) / 2 ^ 23| ≤ |f32Value w - (a : ℚ) / 2 ^ 23| ∧
    (|f32Value (f32 a) - (a : ℚ) / 2 ^ 23| = |f32Value w - (a : ℚ) / 2 ^ 23| →
      f32Value w ≠ f32Value (f32 a) → (f32 a).getLsbD 0 = false)

/-- R215: f32 gives +0.0 for 0 and else a finite normal word with a biased exponent of 104 .. 140 and
the sign of a; its number, read by `f32Value` (log 14), is exact below 2^24. -/
def Obligations.F32IsFiniteAndNormal : Prop :=
  f32 0 = 0x00000000#32 ∧
  ∀ a : Int, a ≠ 0 → |a| < 2 ^ 36 →
    104 ≤ ((f32 a).extractLsb' 23 8).toNat ∧ ((f32 a).extractLsb' 23 8).toNat ≤ 140 ∧
    ((f32 a).getLsbD 31 = true ↔ a < 0) ∧
    (|a| < 2 ^ 24 → f32Value (f32 a) = (a : ℚ) / 2 ^ 23)

/-- R217, R215: whatever the legal state of the units and the port values, a TICK's frame holds only
words that are +0.0 or finite and normal with a biased exponent of 104 .. 140 (layout: log 14). -/
def Obligations.EveryFrameIsFinite : Prop :=
  ∀ (s t : State), s.Inv → exec .tick s = .next t → ∀ w ∈ t.outlast, finiteWord w

/-- R210, R290: with every unit Idle and no external port, a TICK outputs +0.0 on every channel and
advances no unit. -/
def Obligations.SilentWhileIdle : Prop :=
  ∀ s : State, s.Inv → s.cfg.nExt = 0 →
    (∀ bk ∈ s.banks, ∀ x ∈ bk.voices, x.env.stage = .idle) →
    (∀ h ∈ s.hats, h.env.stage = .idle) →
    ∃ t : State, exec .tick s = .next t ∧ t.outlast = List.replicate s.cfg.nCh 0x00000000#32 ∧
      t.banks = s.banks ∧ t.hats = s.hats

/-- R211: a unit's part of a TICK reads only its own state, its own parameters and NOTE_INC: two
states that agree on these agree on the unit after the TICK and on its source value. -/
def Obligations.UnitsDoNotInteract : Prop :=
  ∀ (s s' t t' : State), s.Inv → s'.Inv → s.cfg.noteInc = s'.cfg.noteInc →
    exec .tick s = .next t → exec .tick s' = .next t' →
    (∀ (b : Nat), s.banks[b]? = s'.banks[b]? → b < s.banks.length →
      t.banks[b]? = t'.banks[b]? ∧ s.sources[b]? = s'.sources[b]?) ∧
    (∀ (i : Nat), s.hats[i]? = s'.hats[i]? → i < s.hats.length →
      t.hats[i]? = t'.hats[i]? ∧
      s.sources[s.cfg.nBank + i]? = s'.sources[s'.cfg.nBank + i]?)

/-! ## Whole-machine rules -/

/-- R26: NOTECNT is 0 at reset, counts up by one modulo 2^32 with every NOTE_ON its bank accepts, and
nothing else changes it. -/
def Obligations.NotecntCountsNoteOns : Prop :=
  (∀ (p : Config.Params), ∀ bk ∈ (State.resetWith p).banks, bk.notecnt = 0) ∧
  (∀ (i : Instr) (s : State), s.Inv → ∃ t : State, exec i s = .next t ∧
    ∀ (b : Nat) (bk : Bank), s.banks[b]? = some bk → ∃ bk' : Bank, t.banks[b]? = some bk' ∧
      ((∃ (u : BitVec 4) (n vel : BitVec 7), i = .noteOn u n vel ∧ u.toNat = b) →
        bk'.notecnt.toNat = (bk.notecnt.toNat + 1) % 2 ^ 32) ∧
      ((∀ (u : BitVec 4) (n vel : BitVec 7), i = .noteOn u n vel → u.toNat ≠ b) →
        bk'.notecnt = bk.notecnt))

/-- R8, R246, R249: only TICK adds a frame and moves OUTLAST, only READ adds a read-data word, only
WRITE changes a parameter, and no command changes the words behind it on the port. -/
def Obligations.OutputsComeFromTickAndRead : Prop :=
  ∀ (i : Instr) (s t : State), exec i s = .next t →
    (i ≠ .tick → t.frames = s.frames ∧ t.outlast = s.outlast) ∧
    ((∀ a, i ≠ .read a) → t.rdata = s.rdata) ∧
    ((∀ a d, i ≠ .write a d) → t.route = s.route ∧ t.parser = s.parser ∧
      t.banks.map (fun k => (k.wave, k.attackN, k.decayN, k.sustain, k.releaseN)) =
        s.banks.map (fun k => (k.wave, k.attackN, k.decayN, k.sustain, k.releaseN)) ∧
      t.hats.map (fun h => (h.trigNote, h.hdecayN, h.b0, h.b1, h.b2, h.a1, h.a2)) =
        s.hats.map (fun h => (h.trigNote, h.hdecayN, h.b0, h.b1, h.b2, h.a1, h.a2))) ∧
    t.port = s.port

/-- R295: a NOTE_ON to an Idle bank followed by its NOTE_OFF with no TICK between never sounds: the
bank's source value is 0 at each of the TICKs that follow. -/
def Obligations.NoteOnThenOffNeverSounds : Prop :=
  ∀ (bk : Bank) (n : BitVec 7) (inc : List Word) (k : Nat), bk.wf →
    (∀ x ∈ bk.voices, x.env.stage = .idle) →
    Bank.out inc ((Bank.tick inc)^[k] ((bk.noteOn n).noteOff n)) = 0

/-- R296: a NOTE_ON to an Idle voice leaves level 0, and the first TICK after it moves the phase to
NOTE_INC[n] and gives the sample 0. -/
def Obligations.FirstSampleAfterNoteOn : Prop :=
  ∀ (x : Voice) (n : BitVec 7) (c : Word) (a d : BitVec 24) (sus : Word) (inc : List Word)
    (w : BitVec 2), x.wf → x.env.stage = .idle → inc.length = 128 →
    (x.allocate n c a).env.level = 0 ∧ Voice.sample inc w (x.allocate n c a) = 0 ∧
    inc[n.toNat]? = some (Voice.tick inc d sus (x.allocate n c a)).phase

/-! ## Reset, invariant and runs -/

/-- R20 to R39, R290: the reset state of every legal instance meets the invariant. -/
def Obligations.ResetMeetsTheInvariant : Prop :=
  ∀ p : Config.Params, p.legal → (State.resetWith p).Inv

/-- R290: after reset every register reads 0 but CFG and the SEED of each lane, which reads 1; the
parser is at HEADER and both output streams are empty; the envelopes are Idle. -/
def Obligations.ResetRegisterValues : Prop :=
  ∀ p : Config.Params, p.legal →
    (∀ a : Addr, regRead (State.resetWith p) a =
      if a = 0 then cfgWord p
      else if ∃ h, h < p.nHat ∧ a = hatAddr h 7 then 1 else 0) ∧
    (State.resetWith p).parser = .header ∧ (State.resetWith p).frames = [] ∧
    (State.resetWith p).rdata = [] ∧
    (∀ bk ∈ (State.resetWith p).banks, bk.voices.length = 16 ∧
      ∀ x ∈ bk.voices, x.env.stage = .idle ∧ x.nv = false) ∧
    (∀ h ∈ (State.resetWith p).hats, h.env.stage = .idle)

/-- R291: reset takes effect on the whole TSD at once, drops a half-received WRITE and the undelivered
read data, and the next word delivered is dispatched as a header, whatever the parser held before.
What stays of the host's side is the model's choice (log 13) and no part of this statement. -/
def Obligations.ResetDropsHalfAWrite : Prop :=
  ∀ s : State,
    (hostAct .reset s).parser = .header ∧ (hostAct .reset s).rdata = [] ∧
    (hostAct .reset s).frames = [] ∧
    (hostAct .reset s).banks = (State.resetWith s.cfg).banks ∧
    (hostAct .reset s).hats = (State.resetWith s.cfg).hats ∧
    (hostAct .reset s).route = (State.resetWith s.cfg).route ∧
    (hostAct .reset s).outlast = (State.resetWith s.cfg).outlast ∧
    (hostAct .reset s).cfg = s.cfg ∧
    (s.Inv → s.port = [] → ∀ w : Word, (opcField w).toNat ≠ 4 →
      step (hostAct (.deliver w) (hostAct .reset s)) =
        .next (dispatchWord w (hostAct .reset s))) ∧
    (s.Inv → s.port = [] → ∀ w : Word, (opcField w).toNat = 4 →
      ∃ t : State, step (hostAct (.deliver w) (hostAct .reset s)) = .next t ∧
        t.parser = .data (w.extractLsb' 0 12) ∧ t.banks = (hostAct .reset s).banks ∧
        t.hats = (hostAct .reset s).hats ∧ t.route = (hostAct .reset s).route)

/-- Every step keeps the invariant: legal instance, 16 voices a bank, envelopes within their ramps,
NV and stage in agreement, LFSR never 0, ROUTE legal, the queue within its depth, OUTLAST the last
frame of the record (log 10). -/
def Obligations.EveryStepKeepsTheInvariant : Prop :=
  ∀ s t : State, s.Inv → step s = .next t → t.Inv

/-- Every host action keeps the invariant. -/
def Obligations.EveryHostActionKeepsTheInvariant : Prop :=
  ∀ (s : State) (a : HostAct), s.Inv → (hostAct a s).Inv

/-- Whatever the host does, every state the system reaches from the reset state of a legal instance
meets the invariant and is a state of that instance. -/
def Obligations.ReachableStatesMeetTheInvariant : Prop :=
  ∀ (p : Config.Params) (s : State), p.legal → Reachable p s → s.Inv ∧ s.cfg = p

/-- R270: a step always answers a next state. It takes at least one word from the port, but where the
port is empty or a READ is held because the read-data queue is full; then nothing changes. Answering
the same state in these two cases is the model's form of waiting (log 3, log 4). -/
def Obligations.OnlyTheHoldStopsProgress : Prop :=
  ∀ s : State, ∃ t : State, step s = .next t ∧
    (t.port.length < s.port.length ∨
     (t = s ∧ (s.port = [] ∨ ∃ (a : Addr) (rest : List Word), s.parser = .header ∧
       decode s.port = .ok (.read a, rest) ∧ s.cfg.rdataDepth ≤ s.rdata.length)))

/-- R5: no command and no host action changes the parameters of the instance. -/
def Obligations.ParametersAreFixed : Prop :=
  (∀ (i : Instr) (s t : State), exec i s = .next t → t.cfg = s.cfg) ∧
  (∀ s t : State, step s = .next t → t.cfg = s.cfg) ∧
  (∀ (a : HostAct) (s : State), (hostAct a s).cfg = s.cfg)

/-- R240, R241: where the words on the port decode to a command and the parser is at HEADER, a step is
`exec` of that command in the state with its words taken from the port; a held command stays. That a
WRITE whose two words are both there is one step, and that a held step answers the same state, are
the model's choices (log 5, log 4). -/
def Obligations.StepRunsTheDecodedCommand : Prop :=
  ∀ (s : State) (i : Instr) (rest : List Word), s.parser = .header →
    decode s.port = .ok (i, rest) →
    ((∀ a, i = .read a → s.rdata.length < s.cfg.rdataDepth) →
      step s = exec i { s with port := rest }) ∧
    ((∃ a, i = .read a) → s.cfg.rdataDepth ≤ s.rdata.length → step s = .next s)

/-- R241, R244: running a command whole, which is the model's choice for a WRITE (log 5), is
dispatching its words one after the other; a data word is taken as data whatever its bits; and a
WRITE whose words arrive one by one ends as one whose words arrive together. -/
def Obligations.WholeCommandIsItsWords : Prop :=
  (∀ (s : State) (i : Instr) (rest : List Word), s.parser = .header →
    decode s.port = .ok (i, rest) →
    (∀ a, i = .read a → s.rdata.length < s.cfg.rdataDepth) →
    ∃ used : List Word, s.port = used ++ rest ∧
      step s = .next (dispatchWords used { s with port := rest })) ∧
  (∀ (s : State) (a : Addr) (w : Word) (rest : List Word), s.parser = .data a →
    s.port = w :: rest → step s = .next (dispatchWord w { s with port := rest })) ∧
  (∀ (s : State) (w d : Word), s.parser = .header → s.port = [w] → (opcField w).toNat = 4 →
    ∃ t : State, step s = .next t ∧
      step (hostAct (.deliver d) t) = step (hostAct (.deliver d) s))

/-- R69, R240: a stream of commands on the port runs in order, each to completion: as many steps as
there are commands (log 5: a WRITE is one step), when there is room for the read-data words. -/
def Obligations.CommandsRunInOrder : Prop :=
  ∀ (is : List Instr) (s : State) (rest : List Word), s.parser = .header →
    s.port = encodeAll is ++ rest → s.rdata.length + readCount is ≤ s.cfg.rdataDepth →
    runSteps is.length s = execAll is { s with port := rest }

/-- R250: however the host merges two producers' commands into one stream, each producer's order is
kept, nothing is added or lost, and the merged stream runs command by command, one step for each
(log 5): no merge splits a WRITE. -/
def Obligations.MergedProducersRunInOrder : Prop :=
  ∀ (as bs cs : List Instr), Interleaving as bs cs →
    as.Sublist cs ∧ bs.Sublist cs ∧ cs.Perm (as ++ bs) ∧
    ∀ s : State, s.parser = .header → s.port = encodeAll cs →
      s.rdata.length + readCount cs ≤ s.cfg.rdataDepth →
      runSteps cs.length s = execAll cs { s with port := [] }

/-- R261, R216: the commands of one audio buffer of `f` frames, events first and then `f` TICKs, all
run, and emit exactly `f` frames after those emitted before. The record of frames is the model's
(log 10), and a READ among the events that finds the queue full has no effect here (log 4). -/
def Obligations.BufferEmitsItsFrames : Prop :=
  ∀ (events : List Instr) (f : Nat) (s : State), (∀ i ∈ events, i ≠ .tick) →
    ∃ (t : State) (fs : List (List Word)), execAll (bufferCommands events f) s = .next t ∧
      t.frames = s.frames ++ fs ∧ fs.length = f ∧ ∀ g ∈ fs, g.length = s.cfg.nCh
end

