-- ==== Sys2Proof/Laws/Arith.lean ====
section
/-! SUPPORT. Reading back what was narrowed, floor division, and the step of a ramp. -/

namespace Sys2Proof.Machine

/-- A value that fits 32 signed bits reads back. -/
theorem s32_word32 {a : Int} (h1 : -2 ^ 31 ≤ a) (h2 : a < 2 ^ 31) : s32 (word32 a) = a := by
  unfold s32 word32
  rw [BitVec.toInt_ofInt]
  apply Int.bmod_eq_of_le <;> omega

/-- A value that fits 32 unsigned bits reads back. -/
theorem toNat_word32 {a : Int} (h1 : 0 ≤ a) (h2 : a < 2 ^ 32) : ((word32 a).toNat : Int) = a := by
  unfold word32
  rw [BitVec.toNat_ofInt]
  omega

/-- A wave sample fits its 25-bit register. -/
theorem toInt_sample25 {a : Int} (h1 : -2 ^ 24 ≤ a) (h2 : a < 2 ^ 24) : (sample25 a).toInt = a := by
  unfold sample25
  rw [BitVec.toInt_ofInt]
  apply Int.bmod_eq_of_le <;> omega

theorem s32_bounds (w : Word) : -2 ^ 31 ≤ s32 w ∧ s32 w < 2 ^ 31 := by
  unfold s32
  have h1 := BitVec.toInt_lt (x := w)
  have h2 := BitVec.le_toInt (x := w)
  constructor <;> simpa using by omega

theorem full_toNat : full.toNat = 2 ^ 31 := by decide

theorem word_toNat_lt (w : Word) : w.toNat < 2 ^ 32 := w.isLt

/-- `clamp` stays in its range. -/
theorem clamp_bounds {a lo hi : Int} (h : lo ≤ hi) : lo ≤ clamp a lo hi ∧ clamp a lo hi ≤ hi := by
  unfold clamp
  split
  · exact ⟨le_refl _, h⟩
  · split <;> constructor <;> omega

/-- Floor division by a power of two keeps bounds that are multiples of it. -/
theorem fdivPow2_bounds {a lo hi : Int} {k : Nat} (h1 : lo * 2 ^ k ≤ a) (h2 : a ≤ hi * 2 ^ k) :
    lo ≤ fdivPow2 a k ∧ fdivPow2 a k ≤ hi := by
  have hp : (0 : Int) < 2 ^ k := by positivity
  unfold fdivPow2
  constructor
  · exact (Int.le_ediv_iff_mul_le hp).mpr h1
  · have := Int.ediv_le_ediv hp h2
    rwa [Int.mul_ediv_cancel _ (ne_of_gt hp)] at this

@[simp] theorem fdivPow2_zero (k : Nat) : fdivPow2 0 k = 0 := by simp [fdivPow2]

/-- The step of a rising ramp: not negative, and n − 1 steps stay within the distance (R121, R132). -/
theorem rampStep_nonneg {d : Int} {n : Nat} (hd : 0 ≤ d) :
    0 ≤ rampStep d n ∧ ((n - 1 : Nat) : Int) * rampStep d n ≤ d ∧ 2 * rampStep d n ≤ d := by
  unfold rampStep sgn
  split
  · simpa using hd
  · rename_i hn
    have hq : (d.natAbs : Int) = d := by omega
    by_cases h0 : d = 0
    · subst h0; simp
    · have hneg : ¬ d < 0 := by omega
      simp only [hneg, if_false, h0, one_mul]
      have hmul : (d.natAbs / n) * n ≤ d.natAbs := Nat.div_mul_le_self _ _
      have h1 : (n - 1) * (d.natAbs / n) ≤ d.natAbs := by
        calc (n - 1) * (d.natAbs / n) ≤ n * (d.natAbs / n) :=
              Nat.mul_le_mul_right _ (Nat.sub_le _ _)
          _ = (d.natAbs / n) * n := Nat.mul_comm _ _
          _ ≤ _ := hmul
      have h2 : 2 * (d.natAbs / n) ≤ d.natAbs := by
        calc 2 * (d.natAbs / n) ≤ n * (d.natAbs / n) := Nat.mul_le_mul_right _ (by omega)
          _ = (d.natAbs / n) * n := Nat.mul_comm _ _
          _ ≤ _ := hmul
      refine ⟨by positivity, ?_, ?_⟩
      · rw [← hq]; exact_mod_cast h1
      · rw [← hq]; exact_mod_cast h2

/-- A falling ramp mirrors the rising one. -/
theorem rampStep_neg (d : Int) (n : Nat) : rampStep (-d) n = -rampStep d n := by
  unfold rampStep sgn
  split
  · rfl
  · rcases lt_trichotomy d 0 with h | h | h
    · have h1 : ¬ 0 < d := by omega
      simp [h, h1, h.ne]
    · subst h; simp
    · have h1 : ¬ d < 0 := by omega
      simp [h, h1, h.ne']

theorem rampStep_nonpos {d : Int} {n : Nat} (hd : d ≤ 0) :
    rampStep d n ≤ 0 ∧ d ≤ ((n - 1 : Nat) : Int) * rampStep d n ∧ d ≤ 2 * rampStep d n := by
  have h := rampStep_nonneg (d := -d) (n := n) (by omega)
  rw [rampStep_neg] at h
  refine ⟨by omega, ?_, by omega⟩
  have := h.2.1
  rw [Int.mul_neg] at this
  omega

/-- The step fits its register: |step| ≤ 2^30 (R121). -/
theorem rampStep_bounds {d : Int} {n : Nat} (h1 : -2 ^ 31 ≤ d) (h2 : d ≤ 2 ^ 31) :
    -2 ^ 30 ≤ rampStep d n ∧ rampStep d n ≤ 2 ^ 30 := by
  rcases le_total 0 d with h | h
  · have := rampStep_nonneg (n := n) h; omega
  · have := rampStep_nonpos (n := n) h; omega

end Sys2Proof.Machine
end

