-- ==== Sys2Proof/Laws/Decode.lean ====
section
/-! SUPPORT. The fields of an encoded header word, and what a decoding error means. -/

namespace Sys2Proof

/-- Decoding fails only on no word at all, or on a lone WRITE header. -/
theorem decode_error {ws : List Word} {e : DecodeError} (h : decode ws = .error e) :
    (ws = [] ∧ e = .noWord) ∨ ∃ w, ws = [w] ∧ e = .noData (addrField w) := by
  cases ws with
  | nil =>
    simp only [decode, Except.error.injEq] at h
    exact .inl ⟨rfl, h.symm⟩
  | cons w rest =>
    right
    cases rest with
    | nil =>
      simp only [decode] at h
      split at h <;> simp only [Except.error.injEq, reduceCtorEq] at h
      exact ⟨w, rfl, h.symm⟩
    | cons d rest =>
      simp only [decode] at h
      split at h <;> simp only [reduceCtorEq] at h

/-! ## Fields of encoded words (R81, R82) -/

theorem opcField_encodeZ (o : BitVec 4) : opcField (encodeZ o) = o := by
  apply BitVec.eq_of_getLsbD_eq
  intro i hi
  simp only [opcField, encodeZ, BitVec.getLsbD_extractLsb', BitVec.getLsbD_append]
  have : ¬ 28 + i < 28 := by omega
  simp [this, hi]

theorem encodeN_fields (o u : BitVec 4) (v n : BitVec 7) :
    opcField (encodeN o u v n) = o ∧ unitField (encodeN o u v n) = u ∧
    velField (encodeN o u v n) = v ∧ noteField (encodeN o u v n) = n := by
  refine ⟨?_, ?_, ?_, ?_⟩ <;> apply BitVec.eq_of_getLsbD_eq <;> intro i hi <;>
    simp only [opcField, unitField, velField, noteField, encodeN, BitVec.getLsbD_extractLsb',
      BitVec.getLsbD_append]
  · have h1 : ¬ 28 + i < 7 := by omega
    have h2 : ¬ 28 + i - 7 < 1 := by omega
    have h3 : ¬ 28 + i - 7 - 1 < 7 := by omega
    have h4 : ¬ 28 + i - 7 - 1 - 7 < 9 := by omega
    have h5 : ¬ 28 + i - 7 - 1 - 7 - 9 < 4 := by omega
    have h6 : 28 + i - 7 - 1 - 7 - 9 - 4 = i := by omega
    simp [h1, h2, h3, h4, h5, h6, hi]
  · have h1 : ¬ 24 + i < 7 := by omega
    have h2 : ¬ 24 + i - 7 < 1 := by omega
    have h3 : ¬ 24 + i - 7 - 1 < 7 := by omega
    have h4 : ¬ 24 + i - 7 - 1 - 7 < 9 := by omega
    have h6 : 24 + i - 7 - 1 - 7 - 9 = i := by omega
    simp [h1, h2, h3, h4, h6, hi]
  · have h1 : ¬ 8 + i < 7 := by omega
    have h2 : ¬ 8 + i - 7 < 1 := by omega
    have h6 : 8 + i - 7 - 1 = i := by omega
    simp [h1, h2, h6, hi]
  · simp [hi]

theorem encodeA_fields (o : BitVec 4) (a : Addr) :
    opcField (encodeA o a) = o ∧ addrField (encodeA o a) = a := by
  refine ⟨?_, ?_⟩ <;> apply BitVec.eq_of_getLsbD_eq <;> intro i hi <;>
    simp only [opcField, addrField, encodeA, BitVec.getLsbD_extractLsb', BitVec.getLsbD_append]
  · have h1 : ¬ 28 + i < 12 := by omega
    have h2 : ¬ 28 + i - 12 < 16 := by omega
    have h6 : 28 + i - 12 - 16 = i := by omega
    simp [h1, h2, h6, hi]
  · simp [hi]

theorem opcField_encodeN (o u : BitVec 4) (v n : BitVec 7) :
    opcField (encodeN o u v n) = o := (encodeN_fields o u v n).1
theorem unitField_encodeN (o u : BitVec 4) (v n : BitVec 7) :
    unitField (encodeN o u v n) = u := (encodeN_fields o u v n).2.1
theorem velField_encodeN (o u : BitVec 4) (v n : BitVec 7) :
    velField (encodeN o u v n) = v := (encodeN_fields o u v n).2.2.1
theorem noteField_encodeN (o u : BitVec 4) (v n : BitVec 7) :
    noteField (encodeN o u v n) = n := (encodeN_fields o u v n).2.2.2
theorem opcField_encodeA (o : BitVec 4) (a : Addr) : opcField (encodeA o a) = o :=
  (encodeA_fields o a).1
theorem addrField_encodeA (o : BitVec 4) (a : Addr) : addrField (encodeA o a) = a :=
  (encodeA_fields o a).2

end Sys2Proof
end

