-- ==== Sys2Proof/Laws/State.lean ====
section
/-! SUPPORT. One lemma per field per update of State: what each update writes and what it leaves. -/

namespace Sys2Proof.Machine

variable (s : State)

@[simp] theorem State.updBank_cfg (b : Nat) (f : Bank → Bank) : (s.updBank b f).cfg = s.cfg := rfl
@[simp] theorem State.updBank_parser (b : Nat) (f : Bank → Bank) : (s.updBank b f).parser = s.parser := rfl
@[simp] theorem State.updBank_banks (b : Nat) (f : Bank → Bank) : (s.updBank b f).banks = s.banks.modify b f := rfl
@[simp] theorem State.updBank_hats (b : Nat) (f : Bank → Bank) : (s.updBank b f).hats = s.hats := rfl
@[simp] theorem State.updBank_route (b : Nat) (f : Bank → Bank) : (s.updBank b f).route = s.route := rfl
@[simp] theorem State.updBank_outlast (b : Nat) (f : Bank → Bank) : (s.updBank b f).outlast = s.outlast := rfl
@[simp] theorem State.updBank_frames (b : Nat) (f : Bank → Bank) : (s.updBank b f).frames = s.frames := rfl
@[simp] theorem State.updBank_rdata (b : Nat) (f : Bank → Bank) : (s.updBank b f).rdata = s.rdata := rfl
@[simp] theorem State.updBank_port (b : Nat) (f : Bank → Bank) : (s.updBank b f).port = s.port := rfl
@[simp] theorem State.updBank_extIn (b : Nat) (f : Bank → Bank) : (s.updBank b f).extIn = s.extIn := rfl
@[simp] theorem State.updBank_tickNo (b : Nat) (f : Bank → Bank) : (s.updBank b f).tickNo = s.tickNo := rfl

@[simp] theorem State.updHat_cfg (h : Nat) (f : Hat → Hat) : (s.updHat h f).cfg = s.cfg := rfl
@[simp] theorem State.updHat_parser (h : Nat) (f : Hat → Hat) : (s.updHat h f).parser = s.parser := rfl
@[simp] theorem State.updHat_banks (h : Nat) (f : Hat → Hat) : (s.updHat h f).banks = s.banks := rfl
@[simp] theorem State.updHat_hats (h : Nat) (f : Hat → Hat) : (s.updHat h f).hats = s.hats.modify h f := rfl
@[simp] theorem State.updHat_route (h : Nat) (f : Hat → Hat) : (s.updHat h f).route = s.route := rfl
@[simp] theorem State.updHat_outlast (h : Nat) (f : Hat → Hat) : (s.updHat h f).outlast = s.outlast := rfl
@[simp] theorem State.updHat_frames (h : Nat) (f : Hat → Hat) : (s.updHat h f).frames = s.frames := rfl
@[simp] theorem State.updHat_rdata (h : Nat) (f : Hat → Hat) : (s.updHat h f).rdata = s.rdata := rfl
@[simp] theorem State.updHat_port (h : Nat) (f : Hat → Hat) : (s.updHat h f).port = s.port := rfl
@[simp] theorem State.updHat_extIn (h : Nat) (f : Hat → Hat) : (s.updHat h f).extIn = s.extIn := rfl
@[simp] theorem State.updHat_tickNo (h : Nat) (f : Hat → Hat) : (s.updHat h f).tickNo = s.tickNo := rfl

@[simp] theorem State.setRoute_cfg (i : Nat) (d : Word) : (s.setRoute i d).cfg = s.cfg := rfl
@[simp] theorem State.setRoute_parser (i : Nat) (d : Word) : (s.setRoute i d).parser = s.parser := rfl
@[simp] theorem State.setRoute_banks (i : Nat) (d : Word) : (s.setRoute i d).banks = s.banks := rfl
@[simp] theorem State.setRoute_hats (i : Nat) (d : Word) : (s.setRoute i d).hats = s.hats := rfl
@[simp] theorem State.setRoute_route (i : Nat) (d : Word) : (s.setRoute i d).route = s.route.set i d := rfl
@[simp] theorem State.setRoute_outlast (i : Nat) (d : Word) : (s.setRoute i d).outlast = s.outlast := rfl
@[simp] theorem State.setRoute_frames (i : Nat) (d : Word) : (s.setRoute i d).frames = s.frames := rfl
@[simp] theorem State.setRoute_rdata (i : Nat) (d : Word) : (s.setRoute i d).rdata = s.rdata := rfl
@[simp] theorem State.setRoute_port (i : Nat) (d : Word) : (s.setRoute i d).port = s.port := rfl
@[simp] theorem State.setRoute_extIn (i : Nat) (d : Word) : (s.setRoute i d).extIn = s.extIn := rfl
@[simp] theorem State.setRoute_tickNo (i : Nat) (d : Word) : (s.setRoute i d).tickNo = s.tickNo := rfl

@[simp] theorem State.setParser_cfg (p : Parser) : (s.setParser p).cfg = s.cfg := rfl
@[simp] theorem State.setParser_parser (p : Parser) : (s.setParser p).parser = p := rfl
@[simp] theorem State.setParser_banks (p : Parser) : (s.setParser p).banks = s.banks := rfl
@[simp] theorem State.setParser_hats (p : Parser) : (s.setParser p).hats = s.hats := rfl
@[simp] theorem State.setParser_route (p : Parser) : (s.setParser p).route = s.route := rfl
@[simp] theorem State.setParser_outlast (p : Parser) : (s.setParser p).outlast = s.outlast := rfl
@[simp] theorem State.setParser_frames (p : Parser) : (s.setParser p).frames = s.frames := rfl
@[simp] theorem State.setParser_rdata (p : Parser) : (s.setParser p).rdata = s.rdata := rfl
@[simp] theorem State.setParser_port (p : Parser) : (s.setParser p).port = s.port := rfl
@[simp] theorem State.setParser_extIn (p : Parser) : (s.setParser p).extIn = s.extIn := rfl
@[simp] theorem State.setParser_tickNo (p : Parser) : (s.setParser p).tickNo = s.tickNo := rfl

@[simp] theorem State.setPort_cfg (ws : List Word) : (s.setPort ws).cfg = s.cfg := rfl
@[simp] theorem State.setPort_parser (ws : List Word) : (s.setPort ws).parser = s.parser := rfl
@[simp] theorem State.setPort_banks (ws : List Word) : (s.setPort ws).banks = s.banks := rfl
@[simp] theorem State.setPort_hats (ws : List Word) : (s.setPort ws).hats = s.hats := rfl
@[simp] theorem State.setPort_route (ws : List Word) : (s.setPort ws).route = s.route := rfl
@[simp] theorem State.setPort_outlast (ws : List Word) : (s.setPort ws).outlast = s.outlast := rfl
@[simp] theorem State.setPort_frames (ws : List Word) : (s.setPort ws).frames = s.frames := rfl
@[simp] theorem State.setPort_rdata (ws : List Word) : (s.setPort ws).rdata = s.rdata := rfl
@[simp] theorem State.setPort_port (ws : List Word) : (s.setPort ws).port = ws := rfl
@[simp] theorem State.setPort_extIn (ws : List Word) : (s.setPort ws).extIn = s.extIn := rfl
@[simp] theorem State.setPort_tickNo (ws : List Word) : (s.setPort ws).tickNo = s.tickNo := rfl

@[simp] theorem State.emitRdata_cfg (w : Word) : (s.emitRdata w).cfg = s.cfg := rfl
@[simp] theorem State.emitRdata_parser (w : Word) : (s.emitRdata w).parser = s.parser := rfl
@[simp] theorem State.emitRdata_banks (w : Word) : (s.emitRdata w).banks = s.banks := rfl
@[simp] theorem State.emitRdata_hats (w : Word) : (s.emitRdata w).hats = s.hats := rfl
@[simp] theorem State.emitRdata_route (w : Word) : (s.emitRdata w).route = s.route := rfl
@[simp] theorem State.emitRdata_outlast (w : Word) : (s.emitRdata w).outlast = s.outlast := rfl
@[simp] theorem State.emitRdata_frames (w : Word) : (s.emitRdata w).frames = s.frames := rfl
@[simp] theorem State.emitRdata_rdata (w : Word) : (s.emitRdata w).rdata = s.rdata ++ [w] := rfl
@[simp] theorem State.emitRdata_port (w : Word) : (s.emitRdata w).port = s.port := rfl
@[simp] theorem State.emitRdata_extIn (w : Word) : (s.emitRdata w).extIn = s.extIn := rfl
@[simp] theorem State.emitRdata_tickNo (w : Word) : (s.emitRdata w).tickNo = s.tickNo := rfl

@[simp] theorem State.emitFrame_cfg (fr : List Word) : (s.emitFrame fr).cfg = s.cfg := rfl
@[simp] theorem State.emitFrame_parser (fr : List Word) : (s.emitFrame fr).parser = s.parser := rfl
@[simp] theorem State.emitFrame_banks (fr : List Word) : (s.emitFrame fr).banks = s.banks := rfl
@[simp] theorem State.emitFrame_hats (fr : List Word) : (s.emitFrame fr).hats = s.hats := rfl
@[simp] theorem State.emitFrame_route (fr : List Word) : (s.emitFrame fr).route = s.route := rfl
@[simp] theorem State.emitFrame_outlast (fr : List Word) : (s.emitFrame fr).outlast = fr := rfl
@[simp] theorem State.emitFrame_frames (fr : List Word) : (s.emitFrame fr).frames = s.frames ++ [fr] := rfl
@[simp] theorem State.emitFrame_rdata (fr : List Word) : (s.emitFrame fr).rdata = s.rdata := rfl
@[simp] theorem State.emitFrame_port (fr : List Word) : (s.emitFrame fr).port = s.port := rfl
@[simp] theorem State.emitFrame_extIn (fr : List Word) : (s.emitFrame fr).extIn = s.extIn := rfl
@[simp] theorem State.emitFrame_tickNo (fr : List Word) : (s.emitFrame fr).tickNo = s.tickNo := rfl

@[simp] theorem State.advance_cfg : s.advance.cfg = s.cfg := rfl
@[simp] theorem State.advance_parser : s.advance.parser = s.parser := rfl
@[simp] theorem State.advance_banks : s.advance.banks = s.banks.map (Bank.tick s.cfg.noteInc) := rfl
@[simp] theorem State.advance_hats : s.advance.hats = s.hats.map Hat.tick := rfl
@[simp] theorem State.advance_route : s.advance.route = s.route := rfl
@[simp] theorem State.advance_outlast : s.advance.outlast = s.outlast := rfl
@[simp] theorem State.advance_frames : s.advance.frames = s.frames := rfl
@[simp] theorem State.advance_rdata : s.advance.rdata = s.rdata := rfl
@[simp] theorem State.advance_port : s.advance.port = s.port := rfl
@[simp] theorem State.advance_extIn : s.advance.extIn = s.extIn.tail := rfl
@[simp] theorem State.advance_tickNo : s.advance.tickNo = s.tickNo + 1 := rfl

/-! The state after a host's delivery and after reset. -/

@[simp] theorem resetWith_cfg (p : Config.Params) : (State.resetWith p).cfg = p := rfl
@[simp] theorem resetWith_parser (p : Config.Params) : (State.resetWith p).parser = .header := rfl
@[simp] theorem resetWith_port (p : Config.Params) : (State.resetWith p).port = [] := rfl
@[simp] theorem resetWith_rdata (p : Config.Params) : (State.resetWith p).rdata = [] := rfl
@[simp] theorem resetWith_frames (p : Config.Params) : (State.resetWith p).frames = [] := rfl

/-! ## The records inside the state -/

@[simp] theorem Env.enterRamp_stage (e : Env) (t : Word) (n : BitVec 24) :
    (e.enterRamp t n).stage = e.stage := rfl
@[simp] theorem Env.enterRamp_level (e : Env) (t : Word) (n : BitVec 24) :
    (e.enterRamp t n).level = e.level := rfl
@[simp] theorem Env.enterRamp_tgt (e : Env) (t : Word) (n : BitVec 24) :
    (e.enterRamp t n).tgt = t := rfl
@[simp] theorem Env.enterRamp_cnt (e : Env) (t : Word) (n : BitVec 24) :
    (e.enterRamp t n).cnt = n := rfl
@[simp] theorem Env.snap_stage (e : Env) : e.snap.stage = e.stage := rfl
@[simp] theorem Env.snap_level (e : Env) : e.snap.level = e.tgt := rfl
@[simp] theorem Env.snap_tgt (e : Env) : e.snap.tgt = e.tgt := rfl
@[simp] theorem Env.rampTick_stage (e : Env) : e.rampTick.stage = e.stage := rfl
@[simp] theorem Env.rampTick_step (e : Env) : e.rampTick.step = e.step := rfl
@[simp] theorem Env.rampTick_tgt (e : Env) : e.rampTick.tgt = e.tgt := rfl
@[simp] theorem Env.enterIdle_eq (e : Env) : e.enterIdle = Env.reset := rfl
@[simp] theorem Bank.tick_wave (inc : List Word) (bk : Bank) : (bk.tick inc).wave = bk.wave := rfl
@[simp] theorem Bank.tick_attackN (inc : List Word) (bk : Bank) :
    (bk.tick inc).attackN = bk.attackN := rfl
@[simp] theorem Bank.tick_decayN (inc : List Word) (bk : Bank) :
    (bk.tick inc).decayN = bk.decayN := rfl
@[simp] theorem Bank.tick_sustain (inc : List Word) (bk : Bank) :
    (bk.tick inc).sustain = bk.sustain := rfl
@[simp] theorem Bank.tick_releaseN (inc : List Word) (bk : Bank) :
    (bk.tick inc).releaseN = bk.releaseN := rfl
@[simp] theorem Bank.tick_notecnt (inc : List Word) (bk : Bank) :
    (bk.tick inc).notecnt = bk.notecnt := rfl
@[simp] theorem Bank.tick_voices (inc : List Word) (bk : Bank) :
    (bk.tick inc).voices = bk.voices.map (Voice.tick inc bk.decayN bk.sustain) := rfl

end Sys2Proof.Machine
end

