-- ==== Sys2Proof/Laws/Envelope.lean ====
section
/-! SUPPORT. The envelope generator keeps envelope records legal (`Env.wf`), one lemma per operation. -/

namespace Sys2Proof.Machine

/-- An Idle record is legal. -/
theorem Env.reset_wf : Env.reset.wf := by decide

/-- What `enter_ramp` leaves as the ramp's end: level + (N − 1) · step (R121, R132). -/
theorem Env.enterRamp_rampEnd (e : Env) (t : Word) (n : BitVec 24)
    (hl : e.level.toNat ≤ 2 ^ 31) (ht : t.toNat ≤ 2 ^ 31) :
    (e.enterRamp t n).rampEnd =
      (e.level.toNat : Int) +
        ((n.toNat - 1 : Nat) : Int) * rampStep ((t.toNat : Int) - e.level.toNat) n.toNat := by
  have hb := rampStep_bounds (d := (t.toNat : Int) - e.level.toNat) (n := n.toNat) (by omega) (by omega)
  unfold Env.rampEnd Env.enterRamp
  simp only
  rw [s32_word32 (by omega) (by omega)]

/-- The step that `enter_ramp` stores reads back as the step of R121. -/
theorem Env.enterRamp_step (e : Env) (t : Word) (n : BitVec 24)
    (hl : e.level.toNat ≤ 2 ^ 31) (ht : t.toNat ≤ 2 ^ 31) :
    s32 (e.enterRamp t n).step = rampStep ((t.toNat : Int) - e.level.toNat) n.toNat := by
  have hb := rampStep_bounds (d := (t.toNat : Int) - e.level.toNat) (n := n.toNat) (by omega) (by omega)
  exact s32_word32 (by omega) (by omega)

/-- Entering Attack from any level up to FULL gives a legal record. -/
theorem Env.enterAttack_wf (e : Env) (n : BitVec 24) (hl : e.level.toNat ≤ 2 ^ 31) :
    (e.enterAttack n).wf := by
  have hf := full_toNat
  have hst := Env.enterRamp_step { e with stage := .attack } full n hl (by omega)
  have hre := Env.enterRamp_rampEnd { e with stage := .attack } full n hl (by omega)
  have hb := rampStep_bounds (d := (full.toNat : Int) - e.level.toNat) (n := n.toNat)
    (by omega) (by omega)
  have hr := rampStep_nonneg (d := (full.toNat : Int) - e.level.toNat) (n := n.toNat) (by omega)
  have hp : 0 ≤ ((n.toNat - 1 : Nat) : Int) * rampStep ((full.toNat : Int) - e.level.toNat) n.toNat :=
    mul_nonneg (by positivity) hr.1
  unfold Env.enterAttack Env.wf
  rw [hst, hre]
  simp only [Env.enterRamp_stage, Env.enterRamp_level, Env.enterRamp_tgt, Env.enterRamp_cnt]
  refine ⟨hl, by omega, by omega, by omega, by simp, fun _ => ⟨trivial, by omega, by omega⟩,
    by simp, by simp, by simp⟩

/-- Entering Decay towards a level at or below the present one gives a legal record. -/
theorem Env.enterDecay_wf (e : Env) (t : Word) (n : BitVec 24) (hl : e.level.toNat ≤ 2 ^ 31)
    (ht : t.toNat ≤ e.level.toNat) : (e.enterDecay t n).wf := by
  have hst := Env.enterRamp_step { e with stage := .decay } t n hl (by omega)
  have hre := Env.enterRamp_rampEnd { e with stage := .decay } t n hl (by omega)
  have hb := rampStep_bounds (d := (t.toNat : Int) - e.level.toNat) (n := n.toNat)
    (by omega) (by omega)
  have hr := rampStep_nonpos (d := (t.toNat : Int) - e.level.toNat) (n := n.toNat) (by omega)
  have hp : ((n.toNat - 1 : Nat) : Int) * rampStep ((t.toNat : Int) - e.level.toNat) n.toNat ≤ 0 :=
    mul_nonpos_of_nonneg_of_nonpos (by positivity) hr.1
  unfold Env.enterDecay Env.wf
  rw [hst, hre]
  simp only [Env.enterRamp_stage, Env.enterRamp_level, Env.enterRamp_tgt, Env.enterRamp_cnt]
  refine ⟨hl, by omega, by omega, by omega, by simp, by simp, fun _ => ⟨by omega, by omega⟩,
    by simp, by simp⟩

/-- Entering Release from any level up to FULL gives a legal record. -/
theorem Env.enterRelease_wf (e : Env) (n : BitVec 24) (hl : e.level.toNat ≤ 2 ^ 31) :
    (e.enterRelease n).wf := by
  have h0 : ((0 : Word).toNat : Int) = 0 := by simp
  have hst := Env.enterRamp_step { e with stage := .release } 0 n hl (by simp)
  have hre := Env.enterRamp_rampEnd { e with stage := .release } 0 n hl (by simp)
  have hb := rampStep_bounds (d := ((0 : Word).toNat : Int) - e.level.toNat) (n := n.toNat)
    (by omega) (by omega)
  have hr := rampStep_nonpos (d := ((0 : Word).toNat : Int) - e.level.toNat) (n := n.toNat) (by omega)
  have hp : ((n.toNat - 1 : Nat) : Int) *
      rampStep (((0 : Word).toNat : Int) - e.level.toNat) n.toNat ≤ 0 :=
    mul_nonpos_of_nonneg_of_nonpos (by positivity) hr.1
  unfold Env.enterRelease Env.wf
  rw [hst, hre]
  simp only [Env.enterRamp_stage, Env.enterRamp_level, Env.enterRamp_tgt, Env.enterRamp_cnt]
  refine ⟨hl, by simp, by omega, by omega, by simp, by simp, by simp, by simp,
    fun _ => ⟨trivial, by omega, by omega⟩⟩

/-- Entering Sustain keeps level and target and leaves no ramp. -/
theorem Env.enterSustain_wf (e : Env) (hl : e.level.toNat ≤ 2 ^ 31) (ht : e.tgt.toNat ≤ 2 ^ 31) :
    e.enterSustain.wf := by
  have h0 : -2 ^ 30 ≤ s32 (0 : Word) ∧ s32 (0 : Word) ≤ 2 ^ 30 := by decide
  unfold Env.enterSustain Env.wf
  exact ⟨hl, ht, h0.1, h0.2, by simp, by simp, by simp, by simp, by simp⟩

/-- A tick that does not end a ramp moves the level by the step, and the ramp's end stays where it is
(R127, R132.1). -/
theorem Env.rampTick_level (e : Env) (hw : e.wf) (he : e.ends = false)
    (hs : e.stage = .attack ∨ e.stage = .decay ∨ e.stage = .release) :
    (e.rampTick.level.toNat : Int) = e.level.toNat + s32 e.step ∧
    e.rampTick.rampEnd = e.rampEnd ∧ e.rampTick.cnt.toNat = e.cnt.toNat - 1 := by
  obtain ⟨hl, ht, hs1, hs2, -, ha, hd, -, hr⟩ := hw
  have hc : 2 ≤ e.cnt.toNat := by
    simp only [Env.ends, decide_eq_false_iff_not] at he; omega
  have hcnt : e.rampTick.cnt.toNat = e.cnt.toNat - 1 := by
    show (e.cnt - 1).toNat = _
    have := e.cnt.isLt
    rw [BitVec.toNat_sub_of_le]
    · rfl
    · simp [BitVec.le_def]; omega
  obtain ⟨m, hm⟩ : ∃ m : Nat, e.cnt.toNat = m + 2 := ⟨e.cnt.toNat - 2, by omega⟩
  have hend : e.rampEnd = e.level.toNat + s32 e.step + (m : Int) * s32 e.step := by
    unfold Env.rampEnd
    rw [hm]
    push_cast
    ring
  have hsign : (0 ≤ s32 e.step → 0 ≤ (m : Int) * s32 e.step) ∧
      (s32 e.step ≤ 0 → (m : Int) * s32 e.step ≤ 0) :=
    ⟨fun h => mul_nonneg (by positivity) h,
     fun h => mul_nonpos_of_nonneg_of_nonpos (by positivity) h⟩
  have hneg : s32 e.step < 0 → (m : Int) * s32 e.step ≤ 0 := fun h => hsign.2 h.le
  have hrange : 0 ≤ (e.level.toNat : Int) + s32 e.step ∧
      (e.level.toNat : Int) + s32 e.step ≤ 2 ^ 31 := by
    rcases hs with h | h | h
    · have := ha h
      by_cases h0 : 0 ≤ s32 e.step
      · have := hsign.1 h0; omega
      · have := hneg (by omega); omega
    · have := hd h
      by_cases h0 : 0 ≤ s32 e.step
      · have := hsign.1 h0; omega
      · have := hneg (by omega); omega
    · have := hr h
      by_cases h0 : 0 ≤ s32 e.step
      · have := hsign.1 h0; omega
      · have := hneg (by omega); omega
  have hlev : (e.rampTick.level.toNat : Int) = e.level.toNat + s32 e.step :=
    toNat_word32 hrange.1 (by omega)
  refine ⟨hlev, ?_, hcnt⟩
  rw [hend]
  show (e.rampTick.level.toNat : Int) +
      ((e.rampTick.cnt.toNat - 1 : Nat) : Int) * s32 e.rampTick.step = _
  rw [hlev, hcnt, hm, Env.rampTick_step]
  congr 2

/-- The sign of a running ramp's step: rising in Attack, falling in Decay and Release (R132.2). -/
theorem Env.step_sign (e : Env) (hw : e.wf) (he : e.ends = false) :
    (e.stage = .attack → 0 ≤ s32 e.step) ∧
    (e.stage = .decay ∨ e.stage = .release → s32 e.step ≤ 0) := by
  obtain ⟨-, -, -, -, -, ha, hd, -, hr⟩ := hw
  have hc : (1 : Int) ≤ ((e.cnt.toNat - 1 : Nat) : Int) := by
    simp only [Env.ends, decide_eq_false_iff_not] at he; omega
  unfold Env.rampEnd at ha hd hr
  constructor
  · intro h
    by_contra hneg
    have := mul_neg_of_pos_of_neg (by omega : (0 : Int) < ((e.cnt.toNat - 1 : Nat) : Int))
      (by omega : s32 e.step < 0)
    have := (ha h).2.1
    omega
  · intro h
    by_contra hpos
    have := mul_pos (by omega : (0 : Int) < ((e.cnt.toNat - 1 : Nat) : Int))
      (by omega : 0 < s32 e.step)
    rcases h with h | h
    · have := (hd h).2; omega
    · have := (hr h).2.2; omega

/-- A tick that does not end a ramp keeps the record legal. -/
theorem Env.rampTick_wf (e : Env) (hw : e.wf) (he : e.ends = false)
    (hs : e.stage = .attack ∨ e.stage = .decay ∨ e.stage = .release) : e.rampTick.wf := by
  obtain ⟨hlev, hend, -⟩ := Env.rampTick_level e hw he hs
  obtain ⟨sa, sd⟩ := Env.step_sign e hw he
  have hc : (1 : Int) ≤ ((e.cnt.toNat - 1 : Nat) : Int) := by
    simp only [Env.ends, decide_eq_false_iff_not] at he; omega
  have hmul : 0 ≤ s32 e.step → s32 e.step ≤ ((e.cnt.toNat - 1 : Nat) : Int) * s32 e.step :=
    fun h => by nlinarith
  have hmul' : s32 e.step ≤ 0 → ((e.cnt.toNat - 1 : Nat) : Int) * s32 e.step ≤ s32 e.step :=
    fun h => by nlinarith
  obtain ⟨hl, ht, hs1, hs2, hi, ha, hd, hsu, hr⟩ := hw
  unfold Env.wf
  rw [hend]
  simp only [Env.rampTick_stage, Env.rampTick_step, Env.rampTick_tgt]
  have e1 : e.rampEnd = e.level.toNat + ((e.cnt.toNat - 1 : Nat) : Int) * s32 e.step := rfl
  refine ⟨?_, ht, hs1, hs2, ?_, ?_, ?_, ?_, ?_⟩
  · rcases hs with h | h | h
    · have := ha h; have := hmul (sa h); omega
    · have := sd (.inl h); omega
    · have := sd (.inr h); omega
  · intro h; rcases hs with h' | h' | h' <;> simp [h] at h'
  · intro h; have h1 := ha h; have := hmul (sa h); exact ⟨h1.1, by omega, by omega⟩
  · intro h; have := hd h; have := hmul' (sd (.inl h)); exact ⟨by omega, by omega⟩
  · intro h; rcases hs with h' | h' | h' <;> simp [h] at h'
  · intro h; have h1 := hr h; have := hmul' (sd (.inr h)); exact ⟨h1.1, by omega, by omega⟩

/-- The envelope tick of a voice keeps the record legal. -/
theorem Env.voiceTick_wf (e : Env) (n : BitVec 24) (sus : Word) (hw : e.wf)
    (hsus : sus.toNat ≤ 2 ^ 31) : (e.voiceTick n sus).wf := by
  have hf := full_toNat
  unfold Env.voiceTick
  split
  · exact hw
  · rename_i h
    split
    · have ht := (hw.2.2.2.2.2.1 h).1
      apply Env.enterDecay_wf <;> simp only [Env.snap_level, ht] <;> omega
    · rename_i he; exact Env.rampTick_wf e hw (by simpa using he) (.inl h)
  · rename_i h
    split
    · exact Env.enterSustain_wf _ hw.2.1 hw.2.1
    · rename_i he; exact Env.rampTick_wf e hw (by simpa using he) (.inr (.inl h))
  · rename_i h
    obtain ⟨-, ht, hs1, hs2, -, -, -, hsu, -⟩ := hw
    unfold Env.wf
    exact ⟨hsus, ht, hs1, hs2, by simp [h], by simp [h], by simp [h], hsu, by simp [h]⟩
  · rename_i h
    split
    · exact Env.reset_wf
    · rename_i he; exact Env.rampTick_wf e hw (by simpa using he) (.inr (.inr h))

/-- The envelope tick of a hat lane keeps the record legal. -/
theorem Env.hatTick_wf (e : Env) (hw : e.wf) : e.hatTick.wf := by
  unfold Env.hatTick
  split
  · exact hw
  · exact hw
  · exact hw
  · exact hw
  · rename_i h
    split
    · exact Env.reset_wf
    · rename_i he; exact Env.rampTick_wf e hw (by simpa using he) (.inr (.inr h))

/-- Gate-off keeps the record legal. -/
theorem Env.gateOff_wf (e : Env) (n : BitVec 24) (hw : e.wf) : (e.gateOff n).wf := by
  unfold Env.gateOff
  split
  · exact hw
  · exact Env.enterRelease_wf e n hw.1
  · exact Env.enterRelease_wf e n hw.1
  · exact Env.enterRelease_wf e n hw.1
  · exact hw

/-- A one-shot trigger gives a legal record from any record. -/
theorem Env.oneShot_wf (e : Env) (n : BitVec 24) : (e.oneShot n).wf := by
  have hf := full_toNat
  exact Env.enterRelease_wf _ n (by simp only; omega)

end Sys2Proof.Machine
end

