-- ==== Sys2Proof/Laws/HatLane.lean ====
section
/-! SUPPORT. The noise generator never reaches 0, and the hat lane's operations keep it legal. -/

namespace Sys2Proof.Machine

/-- Only 0 equals itself shifted left. -/
theorem eq_zero_of_eq_shiftLeft {x : Word} {k : Nat} (hk : 0 < k) (h : x = x <<< k) : x = 0 := by
  have hbit : ∀ i, x.getLsbD i = false := by
    intro i
    induction i using Nat.strongRecOn with
    | _ i ih =>
      rw [h, BitVec.getLsbD_shiftLeft]
      by_cases hi : i < k
      · simp [hi]
      · simp [ih (i - k) (by omega)]
  apply BitVec.eq_of_getLsbD_eq
  intro i _
  simpa using hbit i

/-- Only 0 equals itself shifted right. -/
theorem eq_zero_of_eq_shiftRight {x : Word} {k : Nat} (hk : 0 < k) (h : x = x >>> k) : x = 0 := by
  have hn : x.toNat = x.toNat / 2 ^ k := by
    conv_lhs => rw [h]
    rw [BitVec.toNat_ushiftRight, Nat.shiftRight_eq_div_pow]
  have h2 : 2 ≤ 2 ^ k := by
    calc 2 = 2 ^ 1 := by norm_num
      _ ≤ 2 ^ k := Nat.pow_le_pow_right (by norm_num) hk
  have h0 : x.toNat = 0 := by
    by_contra hne
    have := Nat.div_lt_self (Nat.pos_of_ne_zero hne) (show 1 < 2 ^ k by omega)
    omega
  exact BitVec.eq_of_toNat_eq (by simpa using h0)

/-- An exclusive or is 0 only for equal words. -/
theorem eq_of_xor_eq_zero {x y : Word} (h : x ^^^ y = 0) : x = y := by
  have := congrArg (fun z => z ^^^ y) h
  simpa [BitVec.xor_assoc] using this

/-- The generator never leaves the nonzero states (R180, R34). -/
theorem xorshift_ne_zero {x : Word} (h : x ≠ 0) : xorshift x ≠ 0 := by
  unfold xorshift
  intro h3
  have h2 := eq_zero_of_eq_shiftLeft (by norm_num) (eq_of_xor_eq_zero h3)
  have h1 := eq_zero_of_eq_shiftRight (by norm_num) (eq_of_xor_eq_zero h2)
  exact h (eq_zero_of_eq_shiftLeft (by norm_num) (eq_of_xor_eq_zero h1))

/-- The noise sample is a wave sample of 24 bits (R181). -/
theorem noiseSample_bounds (x : Word) : -2 ^ 23 ≤ noiseSample x ∧ noiseSample x ≤ 2 ^ 23 - 1 := by
  have := x.isLt
  unfold noiseSample
  constructor <;> omega

/-- The filter output is a signed 32-bit value (R184). -/
theorem biquadOut_bounds (acc : Int) : -2 ^ 31 ≤ biquadOut acc ∧ biquadOut acc ≤ 2 ^ 31 - 1 :=
  clamp_bounds (by norm_num)

theorem Hat.reset_wf : Hat.reset.wf := by decide

/-- A hat envelope only ever goes on in Release or ends in Idle. -/
theorem Env.hatTick_stage (e : Env) (h : e.stage = .idle ∨ e.stage = .release) :
    e.hatTick.stage = .idle ∨ e.hatTick.stage = .release := by
  unfold Env.hatTick
  rcases h with h | h
  · simp [h]
  · simp only [h]
    split
    · exact .inl rfl
    · exact .inr h

theorem Env.hatTick_tgt (e : Env) (h : e.tgt = 0) : e.hatTick.tgt = 0 := by
  unfold Env.hatTick
  split
  · exact h
  · exact h
  · exact h
  · exact h
  · split
    · rfl
    · exact h

theorem Hat.tick_wf (h : Hat) (hw : h.wf) : h.tick.wf := by
  unfold Hat.tick
  split
  · exact hw
  · obtain ⟨hl, he, hs, ht, hx1, hx1', -, -⟩ := hw
    have hn := noiseSample_bounds (xorshift h.lfsr)
    have hsx : (sample25 h.noise).toInt = h.noise := by
      unfold Hat.noise; exact toInt_sample25 (by omega) (by omega)
    refine ⟨xorshift_ne_zero hl, Env.hatTick_wf _ he, Env.hatTick_stage _ hs, Env.hatTick_tgt _ ht,
      ?_, ?_, hx1, hx1'⟩ <;> simp only [hsx] <;> unfold Hat.noise <;> omega

theorem Hat.noteOn_wf (n : BitVec 7) (h : Hat) (hw : h.wf) : (h.noteOn n).wf := by
  unfold Hat.noteOn
  split
  · refine ⟨hw.1, Env.oneShot_wf _ _, .inr ?_, ?_, by simp, by simp, by simp, by simp⟩ <;>
      simp [Env.oneShot, Env.enterRelease]
  · exact hw

theorem Hat.writeReg_wf (r : HatReg) (d : Word) (h : Hat) (hw : h.wf) : (h.writeReg r d).wf := by
  cases r <;> unfold Hat.writeReg <;> simp only
  case trigNote => split <;> exact hw
  case hdecayN => split <;> exact hw
  case seed =>
    refine ⟨?_, hw.2⟩
    simp only
    split
    · decide
    · assumption
  all_goals exact hw

end Sys2Proof.Machine
end

