-- ==== Sys2Proof/Laws/VoiceBank.lean ====
section
/-! SUPPORT. Voice selection picks the first best entry, and the bank's operations keep it legal. -/

namespace Sys2Proof.Machine

/-! ## `firstBest` -/

/-- No entry is found exactly when no entry has a key. -/
theorem firstBest_eq_none {α : Type} (better : Nat → Nat → Bool) (key : α → Option Nat)
    (xs : List α) : firstBest better key xs = none ↔ ∀ x ∈ xs, key x = none := by
  induction xs with
  | nil => simp [firstBest]
  | cons x xs ih =>
    rw [List.forall_mem_cons, ← ih, firstBest]
    cases hx : key x <;> cases hr : firstBest better key xs
    · simp
    · simp
    · simp
    · simp only [reduceCtorEq, and_false, iff_false]
      split <;> simp

/-- What `firstBest` answers, once over: it is the place and key of an entry; every entry with a key is
no better, and every earlier one is strictly worse. `better` must be total and transitive. -/
theorem firstBest_spec {α : Type} {better : Nat → Nat → Bool} {key : α → Option Nat}
    (total : ∀ a b, better a b = true ∨ better b a = true)
    (trans : ∀ a b c, better a b = true → better b c = true → better a c = true)
    (xs : List α) (i k : Nat) (h : firstBest better key xs = some (i, k)) :
    (∃ x, xs[i]? = some x ∧ key x = some k) ∧
    (∀ (j : Nat) (x : α) (k' : Nat), xs[j]? = some x → key x = some k' →
      better k k' = true ∧ (j < i → better k' k = false)) := by
  induction xs generalizing i k with
  | nil => simp [firstBest] at h
  | cons x xs ih =>
    have hrefl : ∀ a, better a a = true := fun a => by
      rcases total a a with h | h <;> exact h
    unfold firstBest at h
    cases hx : key x with
    | none =>
      cases hr : firstBest better key xs with
      | none => simp [hx, hr] at h
      | some p =>
        obtain ⟨i', k'⟩ := p
        simp only [hx, hr, Option.some.injEq, Prod.mk.injEq] at h
        obtain ⟨rfl, rfl⟩ := h
        obtain ⟨⟨y, hy, hk⟩, hall⟩ := ih i' k' hr
        refine ⟨⟨y, by simpa using hy, hk⟩, ?_⟩
        intro j z kz hz hkz
        cases j with
        | zero => simp only [List.getElem?_cons_zero, Option.some.injEq] at hz; subst hz; simp [hx] at hkz
        | succ j =>
          have := hall j z kz (by simpa using hz) hkz
          exact ⟨this.1, fun hj => this.2 (by omega)⟩
    | some kx =>
      cases hr : firstBest better key xs with
      | none =>
        simp only [hx, hr, Option.some.injEq, Prod.mk.injEq] at h
        obtain ⟨rfl, rfl⟩ := h
        refine ⟨⟨x, by simp, hx⟩, ?_⟩
        intro j z kz hz hkz
        cases j with
        | zero =>
          simp only [List.getElem?_cons_zero, Option.some.injEq] at hz
          subst hz
          rw [hx, Option.some.injEq] at hkz
          subst hkz
          exact ⟨hrefl _, fun h => absurd h (by omega)⟩
        | succ j =>
          have hmem : z ∈ xs := List.mem_of_getElem? (by simpa using hz)
          have := (firstBest_eq_none better key xs).mp hr z hmem
          simp [this] at hkz
      | some p =>
        obtain ⟨i', k'⟩ := p
        obtain ⟨⟨y, hy, hk⟩, hall⟩ := ih i' k' hr
        simp only [hx, hr] at h
        split at h
        · rename_i hb
          simp only [Option.some.injEq, Prod.mk.injEq] at h
          obtain ⟨rfl, rfl⟩ := h
          refine ⟨⟨x, by simp, hx⟩, ?_⟩
          intro j z kz hz hkz
          cases j with
          | zero =>
            simp only [List.getElem?_cons_zero, Option.some.injEq] at hz
            subst hz
            rw [hx, Option.some.injEq] at hkz
            subst hkz
            exact ⟨hrefl _, fun h => absurd h (by omega)⟩
          | succ j =>
            have := hall j z kz (by simpa using hz) hkz
            exact ⟨trans _ _ _ hb this.1, fun h => absurd h (by omega)⟩
        · rename_i hb
          simp only [Option.some.injEq, Prod.mk.injEq] at h
          obtain ⟨rfl, rfl⟩ := h
          refine ⟨⟨y, by simpa using hy, hk⟩, ?_⟩
          intro j z kz hz hkz
          cases j with
          | zero =>
            simp only [List.getElem?_cons_zero, Option.some.injEq] at hz
            subst hz
            rw [hx, Option.some.injEq] at hkz
            subst hkz
            have hb' : better kx k' = false := by simpa using hb
            refine ⟨?_, fun _ => hb'⟩
            rcases total k' kx with h | h
            · exact h
            · simp [h] at hb'
          | succ j =>
            have := hall j z kz (by simpa using hz) hkz
            exact ⟨this.1, fun hj => this.2 (by omega)⟩

/-- The answer of `firstBest` is a place of the list. -/
theorem firstBest_lt {α : Type} {better : Nat → Nat → Bool} {key : α → Option Nat}
    (xs : List α) (i k : Nat) (h : firstBest better key xs = some (i, k)) : i < xs.length := by
  induction xs generalizing i k with
  | nil => simp [firstBest] at h
  | cons x xs ih =>
    unfold firstBest at h
    cases hx : key x <;> cases hr : firstBest better key xs with
    | none =>
      simp only [hx, hr, reduceCtorEq, Option.some.injEq, Prod.mk.injEq] at h
      try simp only [List.length_cons]; omega
    | some p =>
      obtain ⟨i', k'⟩ := p
      have := ih i' k' hr
      simp only [hx, hr] at h
      first
        | (split at h <;> simp only [Option.some.injEq, Prod.mk.injEq] at h <;>
            simp only [List.length_cons] <;> omega)
        | (simp only [Option.some.injEq, Prod.mk.injEq] at h; simp only [List.length_cons]; omega)

/-- `select` answers a voice of the bank (R152). -/
theorem Bank.select_lt (bk : Bank) (h : bk.voices ≠ []) : bk.select < bk.voices.length := by
  unfold Bank.select
  split
  · rename_i v k h1; exact firstBest_lt _ _ _ h1
  · split
    · rename_i v k h1; exact firstBest_lt _ _ _ h1
    · split
      · rename_i v k h1; exact firstBest_lt _ _ _ h1
      · exact List.length_pos_of_ne_nil h

/-! ## Voices stay legal -/

theorem Voice.reset_wf : Voice.reset.wf := by decide

theorem Voice.allocate_wf (n : BitVec 7) (c : Word) (a : BitVec 24) (v : Voice) (h : v.wf) :
    (v.allocate n c a).wf :=
  ⟨Env.enterAttack_wf _ _ h.1.1, by simp [Voice.allocate, Env.enterAttack], by simp [Voice.allocate]⟩

/-- Gate-off of an active stage leaves a stage that is not Idle. -/
theorem Env.gateOff_idle (e : Env) (n : BitVec 24) : (e.gateOff n).stage = .idle ↔ e.stage = .idle := by
  unfold Env.gateOff Env.enterRelease
  split <;> simp_all

theorem Voice.noteOff_wf (n : BitVec 7) (r : BitVec 24) (v : Voice) (h : v.wf) :
    (v.noteOff n r).wf := by
  unfold Voice.noteOff
  split
  · refine ⟨Env.gateOff_wf _ _ h.1, ?_, h.2.2⟩
    rw [h.2.1]
    simp [Env.gateOff_idle]
  · exact h

theorem Voice.tick_wf (inc : List Word) (d : BitVec 24) (sus : Word) (v : Voice) (h : v.wf)
    (hs : sus.toNat ≤ 2 ^ 31) : (v.tick inc d sus).wf := by
  have he := Env.voiceTick_wf v.env d sus h.1 hs
  unfold Voice.tick
  split
  · exact h
  · rename_i hi
    unfold Voice.envTick
    simp only
    split
    · rename_i hi'
      exact ⟨he, by simp [hi'], by simp⟩
    · rename_i hi'
      have hnv : v.nv = true := h.2.1.mpr hi
      exact ⟨he, by simp [hnv, hi'], by simp [hnv]⟩

/-! ## Banks stay legal -/

theorem Bank.reset_wf : Bank.reset.wf := by decide +kernel

/-- Changing the voices of a legal bank by a map or at one place, each voice staying legal. -/
theorem Bank.wf_of_voices {bk : Bank} (h : bk.wf) {bk' : Bank} (hl : bk'.voices.length = bk.voices.length)
    (hs : bk'.sustain.toNat ≤ 2 ^ 31) (hv : ∀ v ∈ bk'.voices, v.wf) : bk'.wf :=
  ⟨hl.trans h.1, hs, hv⟩

/-- An entry of a list with one place changed is an old entry or the changed one. -/
theorem mem_modify {α : Type} {f : α → α} {xs : List α} {i : Nat} {y : α} (h : y ∈ xs.modify i f) :
    y ∈ xs ∨ ∃ x ∈ xs, y = f x := by
  obtain ⟨j, hj⟩ := List.mem_iff_getElem?.mp h
  rw [List.getElem?_modify] at hj
  cases hx : xs[j]? with
  | none => simp [hx] at hj
  | some x =>
    have hmem : x ∈ xs := List.mem_of_getElem? hx
    rw [hx] at hj
    by_cases hij : i = j
    · simp only [hij, if_true, Option.map_eq_map, Option.map_some, Option.some.injEq] at hj
      exact .inr ⟨x, hmem, hj.symm⟩
    · simp only [hij, if_false, Option.map_eq_map, Option.map_some, Option.some.injEq] at hj
      exact .inl (hj ▸ hmem)

theorem Bank.noteOn_wf (n : BitVec 7) (bk : Bank) (h : bk.wf) : (bk.noteOn n).wf := by
  refine Bank.wf_of_voices h (by simp [Bank.noteOn]) h.2.1 ?_
  intro v hv
  rcases mem_modify hv with hv | ⟨x, hx, rfl⟩
  · exact h.2.2 v hv
  · exact Voice.allocate_wf _ _ _ _ (h.2.2 x hx)

theorem Bank.noteOff_wf (n : BitVec 7) (bk : Bank) (h : bk.wf) : (bk.noteOff n).wf := by
  refine Bank.wf_of_voices h (by simp [Bank.noteOff]) h.2.1 ?_
  intro v hv
  obtain ⟨x, hx, rfl⟩ := List.mem_map.mp hv
  exact Voice.noteOff_wf _ _ _ (h.2.2 x hx)

theorem Bank.tick_wf (inc : List Word) (bk : Bank) (h : bk.wf) : (bk.tick inc).wf := by
  refine Bank.wf_of_voices h (by simp) h.2.1 ?_
  intro v hv
  obtain ⟨x, hx, rfl⟩ := List.mem_map.mp hv
  exact Voice.tick_wf _ _ _ _ (h.2.2 x hx) h.2.1

end Sys2Proof.Machine
end

