-- ==== Sys2Proof/Laws/Ops.lean ====
section
/-! SUPPORT. What each shared operation of Machine/Ops.lean can do, and that it keeps the invariant. -/

namespace Sys2Proof.Machine

/-! ## Updates of one unit -/

theorem State.updBank_inv (s : State) (b : Nat) (f : Bank → Bank) (h : s.Inv)
    (hf : ∀ bk, bk.wf → (f bk).wf) : (s.updBank b f).Inv := by
  obtain ⟨h1, h2, h3, h4, h5, h6, h7⟩ := h
  refine ⟨h1, by simpa using h2, h3, h4, h5, ?_, h7⟩
  intro bk hbk
  rcases mem_modify hbk with hm | ⟨x, hx, rfl⟩
  · exact h6 bk hm
  · exact hf x (h6 x hx)

theorem State.updHat_inv (s : State) (i : Nat) (f : Hat → Hat) (h : s.Inv)
    (hf : ∀ x : Hat, x.wf → (f x).wf) : (s.updHat i f).Inv := by
  obtain ⟨h1, h2, h3, h4, h5, h6, h7, h8⟩ := h
  refine ⟨h1, h2, by simpa using h3, h4, h5, h6, ?_, h8⟩
  intro x hx
  rcases mem_modify hx with hm | ⟨y, hy, rfl⟩
  · exact h7 x hm
  · exact hf y (h7 y hy)

theorem State.setRoute_inv (s : State) (i : Nat) (d : Word) (h : s.Inv)
    (hd : routeLegal s.cfg.nCh d = true) : (s.setRoute i d).Inv := by
  obtain ⟨h1, h2, h3, h4, h5, h6, h7, h8, h9⟩ := h
  refine ⟨h1, h2, h3, by simpa using h4, h5, h6, h7, ?_, h9⟩
  rw [List.all_eq_true] at h8 ⊢
  intro r hr
  rcases List.mem_or_eq_of_mem_set hr with hm | rfl
  · exact h8 r hm
  · exact hd

/-! ## RegWrite -/

/-- What RegWrite can do, once over: nothing, or write one bank, lane or ROUTE register. -/
theorem regWrite_cases (s : State) (a : Addr) (d : Word) :
    regWrite s a d = s ∨
    (∃ b r, regAt s.cfg a = some (.bank b r) ∧ regWrite s a d = s.updBank b (Bank.writeReg r d)) ∨
    (∃ i r, regAt s.cfg a = some (.hat i r) ∧ regWrite s a d = s.updHat i (Hat.writeReg r d)) ∨
    (∃ i, regAt s.cfg a = some (.route i) ∧ routeLegal s.cfg.nCh d = true ∧
      regWrite s a d = s.setRoute i d) := by
  unfold regWrite
  cases hr : regAt s.cfg a with
  | none => exact .inl rfl
  | some r =>
    cases r with
    | cfg => exact .inl rfl
    | bank b r => exact .inr (.inl ⟨b, r, rfl, rfl⟩)
    | voice b v r => exact .inl rfl
    | hat i r => exact .inr (.inr (.inl ⟨i, r, rfl, rfl⟩))
    | route i =>
      simp only [writeReg]
      split
      · rename_i h; exact .inr (.inr (.inr ⟨i, rfl, h, rfl⟩))
      · exact .inl rfl
    | outlast c => exact .inl rfl

/-- A write to a bank register never touches the voices or the note-on counter. -/
theorem Bank.writeReg_frame (r : BankReg) (d : Word) (bk : Bank) :
    (bk.writeReg r d).voices = bk.voices ∧ (bk.writeReg r d).notecnt = bk.notecnt := by
  cases r <;> dsimp only [Bank.writeReg] <;> (try split) <;> simp

/-- A write to a lane register never touches the envelope or the filter history. -/
theorem Hat.writeReg_frame (r : HatReg) (d : Word) (h : Hat) :
    (h.writeReg r d).env = h.env ∧ (h.writeReg r d).x1 = h.x1 ∧ (h.writeReg r d).x2 = h.x2 ∧
    (h.writeReg r d).y1 = h.y1 ∧ (h.writeReg r d).y2 = h.y2 := by
  cases r <;> dsimp only [Hat.writeReg] <;> (try split) <;> simp

theorem Bank.writeReg_wf (r : BankReg) (d : Word) (bk : Bank) (h : bk.wf) : (bk.writeReg r d).wf := by
  cases r <;> unfold Bank.writeReg <;> simp only <;> (try split) <;> (try exact h)
  rename_i hd
  exact ⟨h.1, hd, h.2.2⟩

/-- RegWrite writes units and routes only: the rest of the state is left. -/
theorem regWrite_frame (s : State) (a : Addr) (d : Word) :
    (regWrite s a d).cfg = s.cfg ∧ (regWrite s a d).parser = s.parser ∧
    (regWrite s a d).outlast = s.outlast ∧ (regWrite s a d).frames = s.frames ∧
    (regWrite s a d).rdata = s.rdata ∧ (regWrite s a d).port = s.port ∧
    (regWrite s a d).extIn = s.extIn ∧ (regWrite s a d).tickNo = s.tickNo := by
  rcases regWrite_cases s a d with h | ⟨b, r, -, h⟩ | ⟨i, r, -, h⟩ | ⟨i, -, -, h⟩ <;> rw [h] <;>
    exact ⟨rfl, rfl, rfl, rfl, rfl, rfl, rfl, rfl⟩

theorem regWrite_inv (s : State) (a : Addr) (d : Word) (h : s.Inv) : (regWrite s a d).Inv := by
  rcases regWrite_cases s a d with e | ⟨b, r, -, e⟩ | ⟨i, r, -, e⟩ | ⟨i, -, hd, e⟩ <;> rw [e]
  · exact h
  · exact State.updBank_inv _ _ _ h (Bank.writeReg_wf r d)
  · exact State.updHat_inv _ _ _ h (Hat.writeReg_wf r d)
  · exact State.setRoute_inv _ _ _ h hd

theorem writeData_inv (a : Addr) (d : Word) (s : State) (h : s.Inv) : (writeData a d s).Inv :=
  regWrite_inv _ _ _ h

theorem writeHeader_inv (a : Addr) (s : State) (h : s.Inv) : (writeHeader a s).Inv := h

/-! ## Note commands -/

theorem noteOnUnit_inv (u : BitVec 4) (n : BitVec 7) (s : State) (h : s.Inv) :
    (noteOnUnit u n s).Inv := by
  unfold noteOnUnit
  split
  · exact State.updBank_inv _ _ _ h (Bank.noteOn_wf n)
  · split
    · exact State.updHat_inv _ _ _ h (Hat.noteOn_wf n)
    · exact h

theorem noteOffUnit_inv (u : BitVec 4) (n : BitVec 7) (s : State) (h : s.Inv) :
    (noteOffUnit u n s).Inv := by
  unfold noteOffUnit
  split
  · exact State.updBank_inv _ _ _ h (Bank.noteOff_wf n)
  · split
    · exact State.updHat_inv _ _ _ h (fun _ hx => hx)
    · exact h

/-! ## TICK and the streams -/

@[simp] theorem State.frame_length (s : State) : s.frame.length = s.cfg.nCh := by simp [State.frame]

theorem State.advance_inv (s : State) (h : s.Inv) : s.advance.Inv := by
  obtain ⟨h1, h2, h3, h4, h5, h6, h7, h8⟩ := h
  refine ⟨h1, by simpa using h2, by simpa using h3, h4, h5, ?_, ?_, h8⟩
  · intro bk hbk
    obtain ⟨x, hx, rfl⟩ := List.mem_map.mp hbk
    exact Bank.tick_wf _ _ (h6 x hx)
  · intro x hx
    obtain ⟨y, hy, rfl⟩ := List.mem_map.mp hx
    exact Hat.tick_wf _ (h7 y hy)

theorem State.emitFrame_inv (s : State) (f : List Word) (h : s.Inv) (hf : f.length = s.cfg.nCh) :
    (s.emitFrame f).Inv := by
  obtain ⟨h1, h2, h3, h4, -, h6, h7, h8, h9, h10, -⟩ := h
  refine ⟨h1, h2, h3, h4, hf, h6, h7, h8, h9, ?_, by simp⟩
  intro g hg
  rcases List.mem_append.mp hg with hg | hg
  · exact h10 g hg
  · rw [List.mem_singleton.mp hg]; exact hf

theorem tickState_inv (s : State) (h : s.Inv) : (tickState s).Inv :=
  State.emitFrame_inv _ _ (State.advance_inv s h) (by simp)

theorem State.emitRdata_inv (s : State) (w : Word) (h : s.Inv) (hr : s.rdataFull = false) :
    (s.emitRdata w).Inv := by
  obtain ⟨h1, h2, h3, h4, h5, h6, h7, h8, -, h10⟩ := h
  refine ⟨h1, h2, h3, h4, h5, h6, h7, h8, ?_, h10⟩
  simp only [State.rdataFull, decide_eq_false_iff_not] at hr
  simp only [State.emitRdata_rdata, List.length_append, List.length_singleton, State.emitRdata_cfg]
  omega

/-! ## Fetch -/

/-- What the fetch can answer, once over. -/
theorem State.fetch_cases (s : State) :
    (s.port = [] ∧ s.fetch = .nothing) ∨
    (∃ a d rest, s.parser = .data a ∧ s.port = d :: rest ∧ s.fetch = .dataWord a d rest) ∨
    (∃ a w, s.parser = .header ∧ s.port = [w] ∧ decode s.port = .error (.noData a) ∧
      s.fetch = .writeHeader a []) ∨
    (∃ i rest, s.parser = .header ∧ decode s.port = .ok (i, rest) ∧ s.fetch = .command i rest) := by
  unfold State.fetch
  cases hp : s.parser with
  | data a =>
    cases hq : s.port with
    | nil => exact .inl ⟨rfl, rfl⟩
    | cons d rest => exact .inr (.inl ⟨a, d, rest, rfl, rfl, rfl⟩)
  | header =>
    cases hd : decode s.port with
    | ok r => exact .inr (.inr (.inr ⟨r.1, r.2, rfl, rfl, rfl⟩))
    | error e =>
      rcases decode_error hd with ⟨hq, rfl⟩ | ⟨w, hq, rfl⟩
      · exact .inl ⟨hq, rfl⟩
      · exact .inr (.inr (.inl ⟨addrField w, w, rfl, hq, rfl, by simp [hq]⟩))

end Sys2Proof.Machine
end

