-- ==== Sys2Proof/Laws/PerInstr.lean ====
section
/-! SUPPORT. The per-instruction family EncodeHeader: the header word of every command carries the
opcode of its row, and the command has as many words as that opcode tells (30_encoding.md R80, R83). -/

namespace Sys2Proof

/-- The opcode of a command's row of spec/opcode_table.json (R83). -/
def Instr.opcode : Instr → BitVec 4
  | .nop => 0x0#4
  | .tick => 0x1#4
  | .noteOn _ _ _ => 0x2#4
  | .noteOff _ _ _ => 0x3#4
  | .write _ _ => 0x4#4
  | .read _ => 0x5#4
  | .rsvd6 => 0x6#4
  | .rsvd7 => 0x7#4
  | .rsvd8 => 0x8#4
  | .rsvd9 => 0x9#4
  | .rsvdA => 0xA#4
  | .rsvdB => 0xB#4
  | .rsvdC => 0xC#4
  | .rsvdD => 0xD#4
  | .rsvdE => 0xE#4
  | .rsvdF => 0xF#4

/-- The family's statement about one instruction. -/
def Laws.EncodeHeader.Statement (i : Instr) : Prop :=
  ∃ w ws, encode i = w :: ws ∧ opcField w = i.opcode ∧ (encode i).length = commandWords i.opcode

theorem Laws.EncodeHeader.nop : Laws.EncodeHeader.Statement .nop :=
  ⟨_, _, rfl, opcField_encodeZ _, rfl⟩
theorem Laws.EncodeHeader.tick : Laws.EncodeHeader.Statement .tick :=
  ⟨_, _, rfl, opcField_encodeZ _, rfl⟩
theorem Laws.EncodeHeader.noteOn (u : BitVec 4) (n v : BitVec 7) : Laws.EncodeHeader.Statement (.noteOn u n v) :=
  ⟨_, _, rfl, opcField_encodeN _ _ _ _, rfl⟩
theorem Laws.EncodeHeader.noteOff (u : BitVec 4) (n v : BitVec 7) : Laws.EncodeHeader.Statement (.noteOff u n v) :=
  ⟨_, _, rfl, opcField_encodeN _ _ _ _, rfl⟩
theorem Laws.EncodeHeader.write (a : Addr) (d : Word) : Laws.EncodeHeader.Statement (.write a d) :=
  ⟨_, _, rfl, opcField_encodeA _ _, rfl⟩
theorem Laws.EncodeHeader.read (a : Addr) : Laws.EncodeHeader.Statement (.read a) :=
  ⟨_, _, rfl, opcField_encodeA _ _, rfl⟩
theorem Laws.EncodeHeader.rsvd6 : Laws.EncodeHeader.Statement .rsvd6 :=
  ⟨_, _, rfl, opcField_encodeZ _, rfl⟩
theorem Laws.EncodeHeader.rsvd7 : Laws.EncodeHeader.Statement .rsvd7 :=
  ⟨_, _, rfl, opcField_encodeZ _, rfl⟩
theorem Laws.EncodeHeader.rsvd8 : Laws.EncodeHeader.Statement .rsvd8 :=
  ⟨_, _, rfl, opcField_encodeZ _, rfl⟩
theorem Laws.EncodeHeader.rsvd9 : Laws.EncodeHeader.Statement .rsvd9 :=
  ⟨_, _, rfl, opcField_encodeZ _, rfl⟩
theorem Laws.EncodeHeader.rsvdA : Laws.EncodeHeader.Statement .rsvdA :=
  ⟨_, _, rfl, opcField_encodeZ _, rfl⟩
theorem Laws.EncodeHeader.rsvdB : Laws.EncodeHeader.Statement .rsvdB :=
  ⟨_, _, rfl, opcField_encodeZ _, rfl⟩
theorem Laws.EncodeHeader.rsvdC : Laws.EncodeHeader.Statement .rsvdC :=
  ⟨_, _, rfl, opcField_encodeZ _, rfl⟩
theorem Laws.EncodeHeader.rsvdD : Laws.EncodeHeader.Statement .rsvdD :=
  ⟨_, _, rfl, opcField_encodeZ _, rfl⟩
theorem Laws.EncodeHeader.rsvdE : Laws.EncodeHeader.Statement .rsvdE :=
  ⟨_, _, rfl, opcField_encodeZ _, rfl⟩
theorem Laws.EncodeHeader.rsvdF : Laws.EncodeHeader.Statement .rsvdF :=
  ⟨_, _, rfl, opcField_encodeZ _, rfl⟩

end Sys2Proof
end

