-- ==== Sys2Proof/Laws/Step.lean ====
section
/-! SUPPORT. What `exec` and `step` can do, once over. -/

namespace Sys2Proof.Machine

/-- Every command, in every state, answers a next state: one of six shapes. -/
theorem exec_cases (i : Instr) (s : State) :
    exec i s = .next s ∨ exec i s = .next (tickState s) ∨
    (∃ u n, exec i s = .next (noteOnUnit u n s)) ∨
    (∃ u n, exec i s = .next (noteOffUnit u n s)) ∨
    (∃ a d, exec i s = .next (writeData a d (writeHeader a s))) ∨
    (∃ a, s.rdataFull = false ∧ exec i s = .next (s.emitRdata (regRead s a))) := by
  cases i with
  | nop => exact .inl rfl
  | tick => exact .inr (.inl rfl)
  | noteOn u n v => exact .inr (.inr (.inl ⟨u, n, rfl⟩))
  | noteOff u n v => exact .inr (.inr (.inr (.inl ⟨u, n, rfl⟩)))
  | write a d => exact .inr (.inr (.inr (.inr (.inl ⟨a, d, rfl⟩))))
  | read a =>
    cases h : s.rdataFull with
    | true => exact .inl (by simp [exec, execRead, h])
    | false => exact .inr (.inr (.inr (.inr (.inr ⟨a, rfl, by simp [exec, execRead, h]⟩))))
  | rsvd6 => exact .inl rfl
  | rsvd7 => exact .inl rfl
  | rsvd8 => exact .inl rfl
  | rsvd9 => exact .inl rfl
  | rsvdA => exact .inl rfl
  | rsvdB => exact .inl rfl
  | rsvdC => exact .inl rfl
  | rsvdD => exact .inl rfl
  | rsvdE => exact .inl rfl
  | rsvdF => exact .inl rfl

/-- What a step can do, once over: wait, take a data word, take a lone WRITE header, hold a READ, or
run a command. -/
theorem step_cases (s : State) :
    (s.port = [] ∧ step s = .next s) ∨
    (∃ a d rest, s.parser = .data a ∧ s.port = d :: rest ∧
      step s = .next (writeData a d (s.setPort rest))) ∨
    (∃ a w, s.parser = .header ∧ s.port = [w] ∧ decode s.port = .error (.noData a) ∧
      step s = .next (writeHeader a (s.setPort []))) ∨
    (∃ i rest, s.parser = .header ∧ decode s.port = .ok (i, rest) ∧ held i s = true ∧
      step s = .next s) ∨
    (∃ i rest, s.parser = .header ∧ decode s.port = .ok (i, rest) ∧ held i s = false ∧
      step s = exec i (s.setPort rest)) := by
  rcases s.fetch_cases with ⟨h, hf⟩ | ⟨a, d, rest, h1, h2, hf⟩ | ⟨a, w, h1, h2, h3, hf⟩ |
    ⟨i, rest, h1, h2, hf⟩
  · exact .inl ⟨h, by simp [step, hf]⟩
  · exact .inr (.inl ⟨a, d, rest, h1, h2, by simp [step, hf]⟩)
  · exact .inr (.inr (.inl ⟨a, w, h1, h2, h3, by simp [step, hf]⟩))
  · cases hh : held i s with
    | true => exact .inr (.inr (.inr (.inl ⟨i, rest, h1, h2, hh, by simp [step, hf, hh]⟩)))
    | false => exact .inr (.inr (.inr (.inr ⟨i, rest, h1, h2, hh, by simp [step, hf, hh]⟩)))

end Sys2Proof.Machine
end

