-- ==== Sys2Proof/Tests/Slice0.lean ====
section
/-! SUPPORT. Tests: words written out bit by bit from the encoding tables, the assembler's checks,
worked examples and vectors of the spec, and for every statement with hypotheses one concrete case
that meets them all (`witness_<statement>`). -/

open Sys2Proof Sys2Proof.Machine

namespace Sys2Proof.Tests

-- One theorem at a time: many kernel evaluations at once use up the threads of a small machine.
set_option Elab.async false

/-! ## Decoding: words written out from 30_encoding.md R81 and R83, ignored bits set -/

/-- Format Z: OPC 0000, then 28 ignored bits, here 0x0ABCDEF0 of R242. -/
theorem test_decode_nop :
    decode [0b00001010101111001101111011110000#32] = .ok (.nop, []) := by decide

/-- Format Z: OPC 0001. -/
theorem test_decode_tick :
    decode [0b00010000000000000000000000000000#32, 7#32] = .ok (.tick, [7#32]) := by decide

/-- Format N: OPC 0010, UNIT 0001, nine ignored bits, VEL 1100100, one ignored bit, NOTE 1000101. -/
theorem test_decode_noteOn :
    decode [0b00100001000000000110010001000101#32] = .ok (.noteOn 1 69 100, []) ∧
    decode [0b00100001111111111110010011000101#32] = .ok (.noteOn 1 69 100, []) := by decide

/-- Format N: OPC 0011, UNIT 1111, VEL 0000001, NOTE 1111111. -/
theorem test_decode_noteOff :
    decode [0b00111111000000000000000101111111#32] = .ok (.noteOff 15 127 1, []) := by decide

/-- Format A: OPC 0100, 16 ignored bits, ADDR 000100000011; the data word looks like a TICK. -/
theorem test_decode_write :
    decode [0b01000000000000000000000100000011#32, 0x10000000#32, 9#32] =
      .ok (.write 0x103 0x10000000, [9#32]) ∧
    decode [0b01001111111111111111000100000011#32, 5#32] = .ok (.write 0x103 5, []) ∧
    decode [0b01000000000000000000000100000011#32] = .error (.noData 0x103) := by decide

/-- Format A: OPC 0101, ADDR 110000000000. -/
theorem test_decode_read :
    decode [0b01010000000000000000110000000000#32] = .ok (.read 0xC00, []) := by decide

theorem test_decode_rsvd6 : decode [0b01100000000000000000000000000000#32] = .ok (.rsvd6, []) := by
  decide
theorem test_decode_rsvd7 : decode [0b01110000000000000000000000000000#32] = .ok (.rsvd7, []) := by
  decide
theorem test_decode_rsvd8 : decode [0b10000000000000000000000000000000#32] = .ok (.rsvd8, []) := by
  decide
theorem test_decode_rsvd9 : decode [0b10010000000000000000000000000000#32] = .ok (.rsvd9, []) := by
  decide
theorem test_decode_rsvdA : decode [0b10100000000000000000000000000000#32] = .ok (.rsvdA, []) := by
  decide
theorem test_decode_rsvdB : decode [0b10110000000000000000000000000000#32] = .ok (.rsvdB, []) := by
  decide
theorem test_decode_rsvdC : decode [0b11000000000000000000000000000000#32] = .ok (.rsvdC, []) := by
  decide
theorem test_decode_rsvdD : decode [0b11010000000000000000000000000000#32] = .ok (.rsvdD, []) := by
  decide
theorem test_decode_rsvdE : decode [0b11100000000000000000000000000000#32] = .ok (.rsvdE, []) := by
  decide
theorem test_decode_rsvdF :
    decode [0b11111111111111111111111111111111#32] = .ok (.rsvdF, []) := by decide

theorem test_decode_empty : decode [] = .error .noWord := by decide

/-- The host's numbering: a WRITE is 64 bits, its data word above its header; a table row that gives
fewer bits has zeros above them. -/
theorem test_decodeTableWord :
    decodeTableWord 64 0x0000000540000103 = some (.write 0x103 5) ∧
    decodeTableWord 32 0x40000103 = some (.write 0x103 0) ∧
    decodeTableWord 32 0x2000003C = some (.noteOn 0 60 0) := by decide

/-! ## The assembler's checks (R86): one ill-formed source command for each -/

theorem test_refuses_unit : (Cmd.noteOn 16 60 none).error = some .unitTooLarge ∧
    (Cmd.noteOff 16 60 none).wellFormed = false ∧
    (Cmd.noteOn 15 127 (some 127)).wellFormed = true := by decide
theorem test_refuses_note : (Cmd.noteOn 0 128 none).error = some .noteTooLarge ∧
    assembleCmd (.noteOff 0 128 (some 0)) = .error .noteTooLarge := by decide
theorem test_refuses_vel : (Cmd.noteOn 0 60 (some 128)).error = some .velTooLarge ∧
    assembleCmd (.noteOff 0 60 (some 128)) = .error .velTooLarge := by decide
theorem test_refuses_addr : (Cmd.write 0x1000 0).error = some .addrTooLarge ∧
    assembleCmd (.read 0x1000) = .error .addrTooLarge ∧ (Cmd.read 0xFFF).wellFormed = true := by
  decide

/-- R86: the velocity defaults to 0; the examples of R153 and R154. -/
theorem test_two_operand_forms : assembleCmd (.noteOn 0 60 none) = .ok [0x2000003C#32] ∧
    assembleCmd (.noteOff 0 60 none) = .ok [0x3000003C#32] ∧
    assembleCmd (.noteOn 1 69 (some 100)) = .ok [0x21006445#32] := by decide

/-- R65: bits [7:0] are the first byte. -/
theorem test_bytes : bytesOfWord 0x40000103#32 = [0x03#8, 0x01#8, 0x00#8, 0x40#8] ∧
    wordsOfBytes [0x03#8, 0x01#8, 0x00#8, 0x40#8, 0xFF#8] = ([0x40000103#32], [0xFF#8]) := by decide

/-! ## Vectors of the units -/

/-- R110, row 0x12345678 and row 0xDEADBEEF. -/
theorem test_wave_vectors :
    (wave 0 0x12345678, wave 1 0x12345678, wave 2 0x12345678, wave 3 0x12345678) =
      (3624587, 2386092, -7195562, 8388608) ∧
    (wave 0 0xDEADBEEF, wave 1 0xDEADBEEF, wave 2 0xDEADBEEF, wave 3 0xDEADBEEF) =
      (-6120827, -4367491, 6204862, -8388608) := by decide +kernel

/-- R218: an exact value, two ties to even, a rounding down, and the largest accumulator. -/
theorem test_f32_vectors :
    f32 (-1) = 0xB4000000#32 ∧ f32 16777217 = 0x40000000#32 ∧ f32 16777219 = 0x40000002#32 ∧
    f32 33554437 = 0x40800001#32 ∧ f32 66571993088 = 0x45F80000#32 := by decide +kernel

/-- R182, steps 1 to 3. -/
theorem test_noise_vectors :
    xorshift 1 = 0x00042021#32 ∧ xorshift 0x00042021 = 0x04080601#32 ∧
    xorshift 0x04080601 = 0x9DCCA8C5#32 ∧ noiseSample 0x00042021 = -8387552 ∧
    noiseSample 0x9DCCA8C5 = 1952936 := by decide +kernel

/-- R134: the gate-on row, tick 4 (Attack ends), tick 6 (Decay ends), the gate-off row, tick 9. -/
theorem test_envelope_vectors :
    Env.reset.enterAttack 4 = ⟨.attack, 0, 4, 0x20000000, 0x80000000⟩ ∧
    (⟨.attack, 0x60000000, 1, 0x20000000, 0x80000000⟩ : Env).voiceTick 2 0x40000000 =
      ⟨.decay, 0x80000000, 2, 0xE0000000, 0x40000000⟩ ∧
    (⟨.decay, 0x60000000, 1, 0xE0000000, 0x40000000⟩ : Env).voiceTick 2 0x40000000 =
      ⟨.sustain, 0x40000000, 0, 0, 0x40000000⟩ ∧
    (⟨.sustain, 0x40000000, 0, 0, 0x40000000⟩ : Env).gateOff 3 =
      ⟨.release, 0x40000000, 3, 0xEAAAAAAB, 0⟩ ∧
    (⟨.release, 357913942, 1, 0xEAAAAAAB, 0⟩ : Env).voiceTick 2 0x40000000 = Env.reset := by
  decide +kernel

/-- R185: the example saturates. -/
theorem test_biquad_saturates :
    biquadOut ({ Hat.reset with a1 := 0x80000000, y1 := 0x7FFFFFFF }.biquadAcc 0) = 2 ^ 31 - 1 := by
  decide +kernel

/-! ## A small state for one-step tests and witnesses -/

/-- One bank, one lane, one external port, two channels. -/
def demoParams : Config.Params := { resetInstance with nExt := 1, rdataDepth := 2 }

/-- A bank with a voice in each stage, the other voices Idle. -/
def demoBank : Bank :=
  { Bank.reset with
    wave := 3, sustain := 0x80000000, notecnt := 4
    voices := [
      ⟨true, 60, 0, ⟨.attack, 0x10000000, 100, 0, 0x80000000⟩, 0⟩,
      ⟨true, 61, 0, ⟨.decay, 0x80000000, 100, 0, 0x80000000⟩, 1⟩,
      ⟨true, 60, 0, ⟨.sustain, 0x80000000, 0, 0, 0x80000000⟩, 2⟩,
      ⟨true, 62, 0, ⟨.release, 0x00000010, 1, 0, 0⟩, 3⟩] ++ List.replicate 12 Voice.reset }

/-- The pass-through lane of R191, triggered by note 42. -/
def demoHat : Hat := { Hat.reset with trigNote := 42, hdecayN := 2, b0 := 0x40000000 }.noteOn 42

/-- The state: bank, lane, one scheduled port vector (a CV gate of 8.0, R212), the port routed to
channel 1, nothing on the command port. -/
def demo : State :=
  { State.resetWith demoParams with
    banks := [demoBank], hats := [demoHat], route := [0x000, 0x000, 0x001]
    extIn := [[0x04000000#32]] }

/-- `demo` with words on its command port. -/
def demoWith (ws : List Word) : State := { demo with port := ws }

/-- `demo` with a full read-data queue and words on its command port. -/
def demoFull (ws : List Word) : State := { demo with rdata := [1, 2], port := ws }

theorem test_demo_inv : demo.Inv := by decide +kernel

/-! ## One step of each command -/

/-- NOP: 0x0ABCDEF0 (R242). -/
theorem test_nop : ∃ t, step (demoWith [0x0ABCDEF0#32, 1#32]) = .next t ∧ t = demoWith [1#32] :=
  ⟨_, rfl, by decide +kernel⟩

/-- A reserved word takes only itself: what follows is a header (R248). -/
theorem test_reserved : ∃ t, step (demoWith [0xF0000000#32, 0x10000000#32]) = .next t ∧
    t = demoWith [0x10000000#32] := ⟨_, rfl, by decide +kernel⟩

/-- TICK: the port value goes to channel 1 unchanged (R212), as 8.0 (R218). -/
theorem test_tick_ext : ∃ t, exec .tick demo = .next t ∧ t.outlast[1]? = some 0x41000000#32 ∧
    t.extIn = [] := ⟨_, rfl, by decide +kernel⟩

/-- TICK: a voice alone at FULL with the square wave gives 1.0 (R160, last row), on channel 0 only. -/
theorem test_tick_voice : ∃ t,
    exec .tick { demo with hats := [Hat.reset], extIn := [[0#32]], banks := [{ demoBank with
      voices := [⟨true, 69, 0, ⟨.decay, 0x80000000, 0, 0, 0x80000000⟩, 0⟩] ++
        List.replicate 15 Voice.reset }] } = .next t ∧
    t.outlast = [0x3F800000#32, 0x00000000#32] ∧ t.frames = [t.outlast] :=
  ⟨_, rfl, by decide +kernel⟩

/-- The lane of R191: its first tick. -/
theorem test_tick_hat : demoHat.out = -8387552 ∧ demoHat.tick.env.level = 1073741824 ∧
    demoHat.tick.env.stage = .release ∧ demoHat.tick.x1.toInt = -8387552 ∧
    demoHat.tick.y1.toInt = -8387552 := by decide +kernel

/-- The example of R153, from reset. -/
theorem test_noteOn_bank : ∃ t, exec (.noteOn 0 60 0) State.reset = .next t ∧
    (t.banks.map (fun k => (k.notecnt, k.voices[0]?))) =
      [(1, some ⟨true, 60, 0, ⟨.attack, 0, 0, 0, 0x80000000⟩, 0⟩)] := ⟨_, rfl, by decide +kernel⟩

/-- The example of R186, with NBANK = 0. -/
theorem test_noteOn_hat : ∃ t,
    exec (.noteOn 0 42 0) { State.resetWith { resetInstance with nBank := 0 } with
      hats := [{ Hat.reset with trigNote := 42, hdecayN := 2 }] } = .next t ∧
    t.hats.map Hat.env = [⟨.release, 0x80000000, 2, 0xC0000000, 0⟩] := ⟨_, rfl, by decide +kernel⟩

/-- R154: both voices that hold note 60 are released, the others are left (R160). -/
theorem test_noteOff_bank : ∃ t, exec (.noteOff 0 60 0) demo = .next t ∧
    (t.banks.map (fun k => (k.voices.take 5).map (fun v => v.env.stage))) =
      [[.release, .decay, .release, .release, .idle]] := ⟨_, rfl, by decide +kernel⟩

/-- R187: a lane ignores NOTE_OFF. -/
theorem test_noteOff_hat : ∃ t, exec (.noteOff 1 42 0) demo = .next t ∧ t = demo :=
  ⟨_, rfl, by decide +kernel⟩

/-- The example of R244. -/
theorem test_write : ∃ t, step (demoWith [0x40000103#32, 0x40000000#32]) = .next t ∧
    t.banks.map Bank.sustain = [0x40000000#32] ∧ t.port = [] := ⟨_, rfl, by decide +kernel⟩

/-- R245: an illegal SUSTAIN and an illegal ROUTE leave the state; SEED 0 is stored as 1. -/
theorem test_write_illegal : regWrite demo 0x103 0x80000001 = demo ∧
    regWrite demo 0xA00 2 = demo ∧ regRead (regWrite demo 0x907 0) 0x907 = 1 := by decide +kernel

/-- The example of R246. -/
theorem test_read_cfg : ∃ t, exec (.read 0) State.reset = .next t ∧ t.rdata = [0x00000211#32] :=
  ⟨_, rfl, by decide +kernel⟩

/-- VSTAT of voice 0 (stage 1, NV, NOTE 60) and an unmapped address (R63, R64). -/
theorem test_read_vstat : regRead demo 0x140 = 0x00003C81#32 ∧ regRead demo 0x147 = 0 := by
  decide +kernel

/-- R241, R291: a lone WRITE header moves the parser; reset brings it back. -/
theorem test_lone_header : ∃ t, step (demoWith [0x40000902#32]) = .next t ∧
    t.parser = .data 0x902 ∧ (hostAct .reset t).parser = .header := ⟨_, rfl, by decide +kernel⟩

/-- The host's run of one instruction from reset. -/
theorem test_withFetchWord : ∃ t,
    step (State.reset.withFetchWord 64 0x0000000340000100) = .next t ∧
    t.banks.map Bank.wave = [3] ∧ t.port = [] := ⟨_, rfl, by decide +kernel⟩

/-! ## Witnesses: each meets all hypotheses of its statement together -/

theorem witness_IgnoredBitsChangeNothing : demo.parser = .header := by decide

theorem witness_EncodeRebuildsUsedBits :
    decode [0x4ABC0103#32, 5#32, 6#32] = .ok (.write 0x103 5, [6#32]) ∧
    decode [0x2F80F0BC#32] = .ok (.noteOn 15 60 112, []) := by decide

theorem witness_BytesCarryWords : ([] : List Byte).length < 4 ∧ [1#8, 2#8, 3#8].length < 4 ∧
    (7#32) ∈ [7#32] ∧ 3 < 4 := by decide

theorem witness_AssemblerFollowsItsTable :
    15 ≤ 15 ∧ 127 ≤ 127 ∧ 0xFFF ≤ 0xFFF ∧
    assembleCmd (.noteOn 16 0 none) = .error .unitTooLarge ∧
    assembleCmd (.noteOff 0 128 none) = .error .noteTooLarge ∧
    assembleCmd (.noteOn 0 0 (some 128)) = .error .velTooLarge ∧
    assembleCmd (.write 0x1000 0) = .error .addrTooLarge := by decide

theorem witness_PseudoCommandsExpand : 7 < 8 ∧ 30 < 31 ∧
    assemble (Pseudo.setHat 7 42 2).expand =
      .ok [0x400009E0#32, 42#32, 0x400009E1#32, 2#32] := by decide

/-- The smallest and the largest instance. -/
theorem witness_legal :
    ({ resetInstance with nBank := 0, nHat := 0, nCh := 1, rdataDepth := 1 } : Config.Params).legal ∧
    ({ resetInstance with nBank := 8, nHat := 8, nExt := 15, nCh := 32 } : Config.Params).legal ∧
    demoParams.legal ∧ resetInstance.legal := by decide +kernel

/-- For RegisterMapIsExact: the last register of each kind in the largest instance. -/
theorem witness_RegisterMapIsExact :
    regAt { resetInstance with nBank := 8, nHat := 8, nExt := 15, nCh := 32 } 0x8BE =
      some (.voice 7 15 .etgt) ∧
    regAt { resetInstance with nBank := 8, nHat := 8, nExt := 15, nCh := 32 } 0x9EF =
      some (.hat 7 .y2) ∧
    regAt { resetInstance with nBank := 8, nHat := 8, nExt := 15, nCh := 32 } 0xA1E =
      some (.route 30) ∧
    regAt { resetInstance with nBank := 8, nHat := 8, nExt := 15, nCh := 32 } 0xC1F =
      some (.outlast 31) ∧
    (Reg.voice 0 15 .etgt).present demoParams := by
  refine ⟨by decide, by decide, by decide, by decide, ?_⟩
  exact ⟨by decide, by decide⟩

/-- For UnmappedAddressesDoNothing: one address at an end of each range. -/
theorem witness_UnmappedAddressesDoNothing : demo.cfg.legal ∧
    regAt demo.cfg 0x001 = none ∧ regAt demo.cfg 0x0FF = none ∧ regAt demo.cfg 0xA20 = none ∧
    regAt demo.cfg 0xFFF = none ∧ regAt demo.cfg 0x106 = none ∧ regAt demo.cfg 0x1FF = none ∧
    regAt demo.cfg 0x200 = none ∧ regAt demo.cfg 0x1BF = none ∧ regAt demo.cfg 0x910 = none ∧
    regAt demo.cfg 0x920 = none ∧ regAt demo.cfg 0xA03 = none ∧ regAt demo.cfg 0xC02 = none := by
  decide +kernel

/-- For UnmappedAddressesDoNothing: an address no register of the instance has. -/
theorem witness_UnmappedAddress : ∀ r : Reg, r.present demo.cfg → r.addr ≠ (0x001 : Addr).toNat := by
  intro r _
  have h : (0x001 : Addr).toNat = 1 := by decide
  rw [h]
  cases r <;> simp only [Reg.addr] <;> omega

/-- For RegisterReadValues and every statement about a bank, voice, lane, ROUTE or OUTLAST of a legal
state. -/
theorem witness_RegisterReadValues : demo.Inv ∧ demo.banks[0]? = some demoBank ∧
    demoBank.voices[15]? = some Voice.reset ∧ demo.hats[0]? = some demoHat ∧
    demo.route[2]? = some 1 ∧ demo.outlast[1]? = some 0 := by decide +kernel

theorem witness_CfgHoldsTheCounts : demo.cfg.legal := by decide +kernel

/-- Each clause at its last legal and its first illegal value. -/
theorem witness_WriteToBankRegisters : demo.cfg.legal ∧ demo.parser = .header ∧
    0 < demo.cfg.nBank ∧ (3#32).toNat < 4 ∧ ¬ (4#32).toNat < 4 ∧ (0x00FFFFFF#32).toNat < 2 ^ 24 ∧
    ¬ (0x01000000#32).toNat < 2 ^ 24 ∧ (0x80000000#32).toNat ≤ 2 ^ 31 ∧
    ¬ (0x80000001#32).toNat ≤ 2 ^ 31 ∧ 15 < 16 ∧ 7 < 8 := by decide +kernel

theorem witness_WriteToHatRegisters : demo.cfg.legal ∧ demo.parser = .header ∧
    0 < demo.cfg.nHat ∧ (127#32).toNat < 128 ∧ ¬ (128#32).toNat < 128 ∧ 8 ≤ 8 ∧ 0x1F < 0x20 := by
  decide +kernel

/-- CH = 1 is the last legal channel; CH = 2, bit 9 and bit 5 are illegal. -/
theorem witness_WriteToRouteAndReadOnly : demo.cfg.legal ∧ demo.parser = .header ∧
    2 < demo.cfg.nSrc ∧ 1 < demo.cfg.nCh ∧ routeLegal 2 0x101 = true ∧ routeLegal 2 0x002 = false ∧
    routeLegal 2 0x200 = false ∧ routeLegal 2 0x020 = false := by decide +kernel

theorem witness_WriteChangesOnlyItsRegister : demo.parser = .header ∧ (0x100 : Addr) ≠ 0x101 := by
  decide

/-- A register, the SEED with a value that is not 0, and the SEED with 0. -/
theorem witness_WriteThenReadBack : demo.Inv ∧ (Reg.bank 0 .wave).present demo.cfg ∧
    (Reg.bank 0 .wave).legalValue demo.cfg 3 ∧ (Reg.hat 0 .seed).present demo.cfg ∧
    (Reg.hat 0 .seed).legalValue demo.cfg 0 ∧ (5#32) ≠ 0 ∧
    (∀ i, Reg.bank 0 .wave ≠ .hat i .seed) := by
  refine ⟨by decide +kernel, ?_, ?_, ?_, trivial, by decide, by simp⟩
  · show 0 < 1; decide
  · show (3#32).toNat < 4; decide
  · show 0 < 1; decide

theorem witness_ReadEmitsTheRegister : demo.rdata.length < demo.cfg.rdataDepth ∧
    regAt demo.cfg 0x001 = none ∧ demo.parser = .header ∧
    (demoWith [0x50000000#32]).port = [0x50000000#32] ∧ (opcField 0x50000000#32).toNat = 5 ∧
    resetInstance.legal ∧ resetInstance.nBank = 1 ∧ resetInstance.nHat = 1 ∧
    resetInstance.nCh = 2 ∧ resetInstance.nExt = 0 := by decide +kernel

theorem witness_ReadIsHeldWhileTheQueueIsFull :
    (demoFull [0x50000C00#32, 0x10000000#32]).Inv ∧ (demoFull [0x50000C00#32]).parser = .header ∧
    decode (demoFull [0x50000C00#32, 0x10000000#32]).port = .ok (.read 0xC00, [0x10000000#32]) ∧
    (demoFull []).rdata.length = (demoFull []).cfg.rdataDepth ∧
    demo.rdata.length < demo.cfg.rdataDepth := by decide +kernel

theorem witness_NopAndReservedDoNothing : (demoWith [0x0ABCDEF0#32]).parser = .header ∧
    (demoWith [0x0ABCDEF0#32]).port = [0x0ABCDEF0#32] ∧ (opcField 0x0ABCDEF0#32).toNat = 0 ∧
    6 ≤ (opcField 0x60000000#32).toNat ∧ 6 ≤ (opcField 0xFFFFFFFF#32).toNat := by decide

/-- A bank with an Idle voice; one with none but one in Release; one with neither. -/
theorem witness_SelectFollowsThePriority :
    demoBank.voices ≠ [] ∧ (∃ x ∈ demoBank.voices, x.env.stage = .idle) ∧
    (∀ x ∈ demoBank.voices.take 4, x.env.stage ≠ .idle) ∧
    (∃ x ∈ demoBank.voices.take 4, x.env.stage = .release) ∧
    (∀ x ∈ demoBank.voices.take 3, x.env.stage ≠ .idle ∧ x.env.stage ≠ .release) ∧
    demoBank.voices.take 3 ≠ [] ∧
    demoBank.select = 4 ∧ { demoBank with voices := demoBank.voices.take 4 }.select = 3 ∧
    { demoBank with voices := demoBank.voices.take 3 }.select = 0 := by decide +kernel

theorem witness_NoteOnAllocatesAVoice : demo.Inv ∧
    demo.banks[(0 : BitVec 4).toNat]? = some demoBank := by decide +kernel

/-- Voice 0 holds note 60 in Attack, voice 3 is in Release. -/
theorem witness_NoteOffReleasesEveryMatch : demo.Inv ∧
    demo.banks[(0 : BitVec 4).toNat]? = some demoBank ∧
    (demoBank.voices.map (Voice.holds 60)).take 4 = [true, false, true, false] := by decide +kernel

theorem witness_NoteOnTriggersAHatLane : demo.Inv ∧ (1 : BitVec 4).toNat = demo.cfg.nBank + 0 ∧
    demo.hats[0]? = some demoHat ∧ (42 : BitVec 7) = demoHat.trigNote ∧
    (41 : BitVec 7) ≠ demoHat.trigNote := by decide +kernel

theorem witness_HatNoteOffAndAbsentUnits : demo.cfg.nBank ≤ (1 : BitVec 4).toNat ∧
    demo.cfg.nBank + demo.cfg.nHat ≤ (2 : BitVec 4).toNat := by decide +kernel

theorem witness_SeventeenNoteOns : State.reset.Inv ∧
    (List.replicate 16 (60 : BitVec 7)).length = 16 ∧
    State.reset.banks[(0 : BitVec 4).toNat]? = some Bank.reset ∧
    ∀ x ∈ Bank.reset.voices, x.env.stage = .idle := by decide +kernel

/-- The levels at their ends. -/
theorem witness_RampEntryFixesTheStep : full.toNat ≤ 2 ^ 31 ∧ (0#32).toNat ≤ 2 ^ 31 ∧
    0 < max (0 : BitVec 24).toNat 1 ∧ 1 < max (2 : BitVec 24).toNat 1 := by decide

/-- A record at FULL and a sustain level below it. -/
theorem witness_RampLastsItsLength : ({ Env.reset with level := full }).level.toNat ≤ 2 ^ 31 ∧
    (0x40000000#32).toNat ≤ 2 ^ 31 ∧ (0x40000000#32).toNat ≤ full.toNat ∧
    0 < max (0 : BitVec 24).toNat 1 ∧ 1 < max (2 : BitVec 24).toNat 1 := by decide

theorem witness_StageTransitions :
    (demoBank.voices.take 5).map (fun v => v.env.stage) =
      [.attack, .decay, .sustain, .release, .idle] := by decide +kernel

/-- A NOTE_ON takes voice 4 out of Idle; a TICK takes voice 3 into it. -/
theorem witness_IdleIsLeftByNoteOnOnly :
    (∃ (t : State) (k : Bank) (y : Voice), exec (.noteOn 0 60 0) demo = .next t ∧
      t.banks[0]? = some k ∧ k.voices[4]? = some y ∧ demo.banks[0]? = some demoBank ∧
      demoBank.voices[4]? = some Voice.reset ∧ Voice.reset.env.stage = .idle ∧
      y.env.stage ≠ .idle) ∧
    (∃ (t : State) (k : Bank) (x y : Voice), exec .tick demo = .next t ∧
      t.banks[0]? = some k ∧ k.voices[3]? = some y ∧ demo.banks[0]? = some demoBank ∧
      demoBank.voices[3]? = some x ∧ x.env.stage ≠ .idle ∧ y.env.stage = .idle) :=
  ⟨⟨_, _, _, rfl, rfl, rfl, rfl, rfl, by decide +kernel⟩,
   ⟨_, _, _, _, rfl, rfl, rfl, rfl, rfl, by decide +kernel⟩⟩

theorem witness_EnvelopeIsMonotone :
    (∀ v ∈ demoBank.voices, v.env.wf) ∧ demoBank.sustain.toNat ≤ 2 ^ 31 := by decide +kernel

/-- A tick inside an Attack, the last tick of a Decay and a Release, a Sustain tick. -/
theorem witness_ParametersAreLatched :
    2 ≤ (⟨.attack, 0, 2, 0, full⟩ : Env).cnt.toNat ∧
    (⟨.attack, 0, 2, 0, full⟩ : Env).stage ≠ .sustain ∧
    (⟨.decay, full, 1, 0, 5⟩ : Env).stage = .decay ∧ (⟨.decay, full, 1, 0, 5⟩ : Env).cnt.toNat ≤ 1 ∧
    (⟨.release, full, 0, 0, 0⟩ : Env).stage = .release ∧
    (⟨.sustain, 5, 0, 0, 5⟩ : Env).stage = .sustain := by decide

/-- R133: a Decay's last tick sets the latched target, though SUSTAIN has since become 3. -/
theorem test_decay_target_is_latched :
    (Env.voiceTick ⟨.decay, 9, 1, 0, 5⟩ 7 3) = ⟨.sustain, 5, 0, 0, 5⟩ := by decide

/-- The ends of the triangle's three pieces and of the square's two (R106, R108). -/
theorem witness_WaveIsBounded : (0x3FFFFFFF#32).toNat < 2 ^ 30 ∧ 2 ^ 30 ≤ (0x40000000#32).toNat ∧
    (0xBFFFFFFF#32).toNat < 3 * 2 ^ 30 ∧ 3 * 2 ^ 30 ≤ (0xC0000000#32).toNat ∧
    (0x7FFFFFFF#32).toNat < 2 ^ 31 ∧ 2 ^ 31 ≤ (0x80000000#32).toNat := by decide

theorem witness_SineLiesBetweenEntries : 0 ≤ 1024 ∧ 1024 ≤ 1024 ∧ 0 < 1024 ∧ 1023 < 1024 := by decide

/-- For the statements about a TICK: a legal state with Idle and other voices and lanes. -/
theorem witness_TickAdvances : demo.Inv ∧ demo.banks[0]? = some demoBank ∧
    (demoBank.voices.map (fun v => decide (v.env.stage = .idle))).take 5 =
      [false, false, false, false, true] ∧
    demo.hats[0]? = some demoHat ∧ demoHat.env.stage ≠ .idle ∧ Hat.reset.env.stage = .idle ∧
    State.reset.Inv ∧ State.reset.hats[0]? = some Hat.reset ∧ 1 < demo.cfg.nCh := by decide +kernel

theorem witness_SourceValuesAndRanges : demo.Inv ∧ demo.banks[0]? = some demoBank ∧
    demo.hats[0]? = some demoHat ∧ State.reset.hats[0]? = some Hat.reset ∧
    Hat.reset.env.stage = .idle ∧ demoHat.env.stage ≠ .idle ∧ 0 < demo.cfg.nExt ∧
    demo.extIn = [0x04000000#32] :: [] ∧ [0x04000000#32][0]? = some 0x04000000#32 ∧
    { demo with extIn := [] }.Inv ∧ { demo with extIn := [[]] }.Inv ∧
    ([] : List Word)[0]? = none := by decide +kernel

/-- A tie: 2^24 + 1 lies between 2^24 and 2^24 + 2, whose words are 0x40000000 and 0x40000001. -/
theorem witness_F32RoundsToNearestEven : |(16777217 : Int)| < 2 ^ 36 ∧
    |(2 ^ 36 - 1 : Int)| < 2 ^ 36 ∧ ((0x40000001#32).extractLsb' 23 8).toNat ≠ 255 ∧
    |f32Value (f32 16777217) - (16777217 : ℚ) / 2 ^ 23| =
      |f32Value 0x40000001#32 - (16777217 : ℚ) / 2 ^ 23| ∧
    f32Value 0x40000001#32 ≠ f32Value (f32 16777217) := by decide +kernel

theorem witness_F32IsFiniteAndNormal : (-1 : Int) ≠ 0 ∧ |(-1 : Int)| < 2 ^ 36 ∧
    (1 - 2 ^ 36 : Int) ≠ 0 ∧ |(1 - 2 ^ 36 : Int)| < 2 ^ 36 ∧ |(2 ^ 24 - 1 : Int)| < 2 ^ 24 := by
  decide +kernel

theorem witness_EveryFrameIsFinite :
    demo.Inv ∧ ∃ t, exec .tick demo = .next t ∧ (0x41000000#32) ∈ t.outlast :=
  ⟨by decide +kernel, _, rfl, by decide +kernel⟩

theorem witness_SilentWhileIdle : State.reset.Inv ∧ State.reset.cfg.nExt = 0 ∧
    (∀ bk ∈ State.reset.banks, ∀ x ∈ bk.voices, x.env.stage = .idle) ∧
    (∀ h ∈ State.reset.hats, h.env.stage = .idle) := by decide +kernel

/-- Two states that agree on a bank and differ in the lane. -/
theorem witness_UnitsDoNotInteract :
    demo.Inv ∧ { demo with hats := [Hat.reset] }.Inv ∧
    demo.banks[0]? = { demo with hats := [Hat.reset] }.banks[0]? ∧ 0 < demo.banks.length ∧
    demo.hats ≠ [Hat.reset] ∧ demo.hats[0]? = { demo with banks := [Bank.reset] }.hats[0]? ∧
    { demo with banks := [Bank.reset] }.Inv ∧ 0 < demo.hats.length ∧
    (∃ t, exec .tick demo = .next t) ∧ ∃ t, exec .tick { demo with hats := [Hat.reset] } = .next t :=
  ⟨by decide +kernel, by decide +kernel, by decide +kernel, by decide +kernel, by decide +kernel,
   by decide +kernel, by decide +kernel, by decide +kernel, ⟨_, rfl⟩, ⟨_, rfl⟩⟩

/-- The instruction is a NOTE_ON to the bank, and one that is not. -/
theorem witness_NotecntCountsNoteOns : demo.Inv ∧ demo.banks[0]? = some demoBank ∧
    Instr.noteOn 0 60 5 = .noteOn 0 60 5 ∧ (0 : BitVec 4).toNat = 0 ∧ (1 : BitVec 4).toNat ≠ 0 := by
  decide +kernel

theorem witness_OutputsComeFromTickAndRead :
    (∃ t, exec (.noteOn 0 60 0) demo = .next t) ∧ Instr.noteOn 0 60 0 ≠ .tick ∧
    (∀ a, Instr.noteOn 0 60 0 ≠ .read a) ∧ (∀ a d, Instr.noteOn 0 60 0 ≠ .write a d) :=
  ⟨⟨_, rfl⟩, by decide, by simp, by simp⟩

theorem witness_NoteOnThenOffNeverSounds :
    Bank.reset.wf ∧ ∀ x ∈ Bank.reset.voices, x.env.stage = .idle := by decide +kernel

theorem witness_FirstSampleAfterNoteOn :
    Voice.reset.wf ∧ Voice.reset.env.stage = .idle ∧ noteInc48k.length = 128 := by decide +kernel

theorem witness_ResetRegisterValues : resetInstance.legal ∧
    (∃ h, h < resetInstance.nHat ∧ (0x907 : Addr) = hatAddr h 7) ∧
    Bank.reset ∈ State.reset.banks ∧ Hat.reset ∈ State.reset.hats := by
  refine ⟨by decide +kernel, ⟨0, by decide, by decide⟩, by decide +kernel, by decide +kernel⟩

/-- A state with a half-received WRITE; a header word that is no WRITE's and one that is. -/
theorem witness_ResetDropsHalfAWrite : { demo with parser := .data 0x103 }.Inv ∧
    { demo with parser := .data 0x103 }.port = [] ∧ (opcField 0x10000000#32).toNat ≠ 4 ∧
    (opcField 0x40000103#32).toNat = 4 := by decide +kernel

theorem witness_EveryStepKeepsTheInvariant :
    (demoWith [0x10000000#32]).Inv ∧ ∃ t, step (demoWith [0x10000000#32]) = .next t :=
  ⟨by decide +kernel, _, rfl⟩

theorem witness_EveryHostActionKeepsTheInvariant : demo.Inv := by decide +kernel

/-- A state reached by a delivery and the TICK it delivers. -/
theorem witness_ReachableStatesMeetTheInvariant :
    resetInstance.legal ∧ ∃ s, Reachable resetInstance s ∧ s.frames.length = 1 := by
  refine ⟨by decide +kernel, _,
    .move (.move .reset (.inr ⟨.deliver 0x10000000#32, rfl⟩)) (.inl rfl), by decide +kernel⟩

theorem witness_ParametersAreFixed :
    (∃ t, exec .tick demo = .next t) ∧ ∃ t, step (demoWith [0x10000000#32]) = .next t :=
  ⟨⟨_, rfl⟩, ⟨_, rfl⟩⟩

/-- A command that runs, and a READ that is held. -/
theorem witness_StepRunsTheDecodedCommand : demo.parser = .header ∧
    decode (demoWith [0x50000000#32]).port = .ok (.read 0, []) ∧
    (demoWith [0x50000000#32]).rdata.length < (demoWith [0x50000000#32]).cfg.rdataDepth ∧
    decode (demoFull [0x50000000#32]).port = .ok (.read 0, []) ∧
    (demoFull [0x50000000#32]).cfg.rdataDepth ≤ (demoFull [0x50000000#32]).rdata.length := by
  decide +kernel

/-- A whole WRITE; a data word in DATA(a); a lone WRITE header. -/
theorem witness_WholeCommandIsItsWords :
    (demoWith [0x40000103#32, 5#32]).parser = .header ∧
    decode (demoWith [0x40000103#32, 5#32]).port = .ok (.write 0x103 5, []) ∧
    (∀ a, Instr.write 0x103 5 ≠ .read a) ∧
    { demoWith [0x10000000#32] with parser := .data 0x103 }.parser = .data 0x103 ∧
    (demoWith [0x40000103#32]).port = [0x40000103#32] ∧ (opcField 0x40000103#32).toNat = 4 :=
  ⟨by decide, by decide +kernel, by simp, by decide, by decide, by decide⟩

/-- Two commands, one of them a READ, with exactly the room they need. -/
theorem witness_CommandsRunInOrder :
    { demoWith [0x10000000#32, 0x50000C00#32, 7#32] with rdata := [1] }.parser = .header ∧
    (demoWith [0x10000000#32, 0x50000C00#32, 7#32]).port =
      encodeAll [.tick, .read 0xC00] ++ [7#32] ∧
    [1#32].length + readCount [.tick, .read 0xC00] ≤ demo.cfg.rdataDepth := by decide +kernel

/-- A TICK merged between the two commands of another producer. -/
theorem witness_MergedProducersRunInOrder :
    Interleaving [.write 0x100 3, .read 0x100] [.tick] [.write 0x100 3, .tick, .read 0x100] ∧
    (demoWith (encodeAll [.write 0x100 3, .tick, .read 0x100])).port =
      encodeAll [.write 0x100 3, .tick, .read 0x100] ∧
    demo.rdata.length + readCount [.write 0x100 3, .tick, .read 0x100] ≤ demo.cfg.rdataDepth :=
  ⟨.left (.right (.left .nil)), rfl, by decide +kernel⟩

theorem witness_BufferEmitsItsFrames :
    ∀ i ∈ [Instr.noteOn 0 60 0, Instr.noteOff 0 60 0], i ≠ .tick := by decide

end Sys2Proof.Tests
end

