-- ==== Sys2Proof/Proofs/Scope.lean ====
section
/-! The statements about the scope of the machine (00_scope.md): its parameters are fixed (R5), its
outputs come from TICK and READ only (R8), and every step keeps its invariant. All three go through
`exec_next_cases`, what a command can do, and one frame lemma per operation it calls. -/

namespace Sys2Proof.Machine

/-! ## What a command can do -/

/-- If a command answers `t`, then `t` is one of six states, and the command is the one that makes it:
`exec_cases` with the command kept. -/
theorem exec_next_cases {i : Instr} {s t : State} (h : exec i s = .next t) :
    t = s ∨ (i = .tick ∧ t = tickState s) ∨
    (∃ u n vel, i = .noteOn u n vel ∧ t = noteOnUnit u n s) ∨
    (∃ u n vel, i = .noteOff u n vel ∧ t = noteOffUnit u n s) ∨
    (∃ a d, i = .write a d ∧ t = writeData a d (writeHeader a s)) ∨
    (∃ a, i = .read a ∧ s.rdataFull = false ∧ t = s.emitRdata (regRead s a)) := by
  cases i with
  | tick => exact .inr (.inl ⟨rfl, (Host.Outcome.next.inj h).symm⟩)
  | noteOn u n vel => exact .inr (.inr (.inl ⟨u, n, vel, rfl, (Host.Outcome.next.inj h).symm⟩))
  | noteOff u n vel =>
    exact .inr (.inr (.inr (.inl ⟨u, n, vel, rfl, (Host.Outcome.next.inj h).symm⟩)))
  | write a d =>
    exact .inr (.inr (.inr (.inr (.inl ⟨a, d, rfl, (Host.Outcome.next.inj h).symm⟩))))
  | read a =>
    simp only [exec, execRead] at h
    split at h
    next => exact .inl (Host.Outcome.next.inj h).symm
    next hroom =>
      exact .inr (.inr (.inr (.inr (.inr
        ⟨a, rfl, Bool.eq_false_of_not_eq_true hroom, (Host.Outcome.next.inj h).symm⟩))))
  | _ => exact .inl (Host.Outcome.next.inj h).symm

/-- A NOTE_ON reaches a bank, a hat lane, or no unit (R243). -/
theorem noteOnUnit_cases (u : BitVec 4) (n : BitVec 7) (s : State) :
    noteOnUnit u n s = s.updBank u.toNat (Bank.noteOn n) ∨
    noteOnUnit u n s = s.updHat (u.toNat - s.cfg.nBank) (Hat.noteOn n) ∨
    noteOnUnit u n s = s := by
  unfold noteOnUnit
  split
  · exact .inl rfl
  · split
    · exact .inr (.inl rfl)
    · exact .inr (.inr rfl)

/-- A NOTE_OFF reaches a bank, a hat lane, or no unit (R243). -/
theorem noteOffUnit_cases (u : BitVec 4) (n : BitVec 7) (s : State) :
    noteOffUnit u n s = s.updBank u.toNat (Bank.noteOff n) ∨
    noteOffUnit u n s = s.updHat (u.toNat - s.cfg.nBank) (Hat.noteOff n) ∨
    noteOffUnit u n s = s := by
  unfold noteOffUnit
  split
  · exact .inl rfl
  · split
    · exact .inr (.inl rfl)
    · exact .inr (.inr rfl)

/-! ## The settings: what only a WRITE changes -/

/-- The parameters of a bank that the host sets (R23 to R25). -/
def Bank.settings (bk : Bank) : BitVec 2 × BitVec 24 × BitVec 24 × Word × BitVec 24 :=
  (bk.wave, bk.attackN, bk.decayN, bk.sustain, bk.releaseN)

/-- The parameters of a hat lane that the host sets (R32, R33). -/
def Hat.settings (h : Hat) : BitVec 7 × BitVec 24 × Word × Word × Word × Word × Word :=
  (h.trigNote, h.hdecayN, h.b0, h.b1, h.b2, h.a1, h.a2)

/-- `t` has the routes, the parser and the unit parameters of `s`. -/
def State.SameSettings (s t : State) : Prop :=
  t.route = s.route ∧ t.parser = s.parser ∧
  t.banks.map Bank.settings = s.banks.map Bank.settings ∧
  t.hats.map Hat.settings = s.hats.map Hat.settings

theorem State.sameSettings_refl (s : State) : s.SameSettings s := ⟨rfl, rfl, rfl, rfl⟩

@[simp] theorem Bank.noteOn_settings (n : BitVec 7) (bk : Bank) :
    (bk.noteOn n).settings = bk.settings := rfl
@[simp] theorem Bank.noteOff_settings (n : BitVec 7) (bk : Bank) :
    (bk.noteOff n).settings = bk.settings := rfl
@[simp] theorem Bank.tick_settings (inc : List Word) (bk : Bank) :
    (bk.tick inc).settings = bk.settings := rfl
@[simp] theorem Hat.noteOff_settings (n : BitVec 7) (h : Hat) :
    (h.noteOff n).settings = h.settings := rfl

@[simp] theorem Hat.noteOn_settings (n : BitVec 7) (h : Hat) :
    (h.noteOn n).settings = h.settings := by
  unfold Hat.noteOn
  split <;> rfl

@[simp] theorem Hat.tick_settings (h : Hat) : h.tick.settings = h.settings := by
  unfold Hat.tick
  split <;> rfl

/-- A list seen through `g` does not show a change of one entry that `g` does not see. -/
theorem map_modify_of_comp_eq {α β : Type} {g : α → β} {f : α → α} (hf : ∀ x, g (f x) = g x)
    (xs : List α) (i : Nat) : (xs.modify i f).map g = xs.map g := by
  induction xs generalizing i with
  | nil => simp
  | cons x xs ih => cases i <;> simp [hf, ih]

theorem State.updBank_sameSettings (s : State) (b : Nat) {f : Bank → Bank}
    (hf : ∀ bk, (f bk).settings = bk.settings) : s.SameSettings (s.updBank b f) :=
  ⟨rfl, rfl, map_modify_of_comp_eq hf s.banks b, rfl⟩

theorem State.updHat_sameSettings (s : State) (i : Nat) {f : Hat → Hat}
    (hf : ∀ h, (f h).settings = h.settings) : s.SameSettings (s.updHat i f) :=
  ⟨rfl, rfl, rfl, map_modify_of_comp_eq hf s.hats i⟩

theorem noteOnUnit_sameSettings (u : BitVec 4) (n : BitVec 7) (s : State) :
    s.SameSettings (noteOnUnit u n s) := by
  rcases noteOnUnit_cases u n s with h | h | h <;> rw [h]
  · exact s.updBank_sameSettings _ (Bank.noteOn_settings n)
  · exact s.updHat_sameSettings _ (Hat.noteOn_settings n)
  · exact s.sameSettings_refl

theorem noteOffUnit_sameSettings (u : BitVec 4) (n : BitVec 7) (s : State) :
    s.SameSettings (noteOffUnit u n s) := by
  rcases noteOffUnit_cases u n s with h | h | h <;> rw [h]
  · exact s.updBank_sameSettings _ (Bank.noteOff_settings n)
  · exact s.updHat_sameSettings _ (Hat.noteOff_settings n)
  · exact s.sameSettings_refl

theorem tickState_sameSettings (s : State) : s.SameSettings (tickState s) := by
  refine ⟨rfl, rfl, ?_, ?_⟩ <;> simp [tickState, Function.comp_def]

/-! ## The rest of the state: what a command leaves -/

/-- A NOTE_ON writes units only: the rest of the state is left. -/
theorem noteOnUnit_frame (u : BitVec 4) (n : BitVec 7) (s : State) :
    (noteOnUnit u n s).cfg = s.cfg ∧ (noteOnUnit u n s).outlast = s.outlast ∧
    (noteOnUnit u n s).frames = s.frames ∧ (noteOnUnit u n s).rdata = s.rdata ∧
    (noteOnUnit u n s).port = s.port := by
  rcases noteOnUnit_cases u n s with h | h | h <;> rw [h] <;> exact ⟨rfl, rfl, rfl, rfl, rfl⟩

/-- A NOTE_OFF writes units only: the rest of the state is left. -/
theorem noteOffUnit_frame (u : BitVec 4) (n : BitVec 7) (s : State) :
    (noteOffUnit u n s).cfg = s.cfg ∧ (noteOffUnit u n s).outlast = s.outlast ∧
    (noteOffUnit u n s).frames = s.frames ∧ (noteOffUnit u n s).rdata = s.rdata ∧
    (noteOffUnit u n s).port = s.port := by
  rcases noteOffUnit_cases u n s with h | h | h <;> rw [h] <;> exact ⟨rfl, rfl, rfl, rfl, rfl⟩

/-- The data word of a WRITE moves the parser to HEADER and writes units and routes; the rest of the
state is left. -/
theorem writeData_frame (a : Addr) (d : Word) (s : State) :
    (writeData a d s).cfg = s.cfg ∧ (writeData a d s).outlast = s.outlast ∧
    (writeData a d s).frames = s.frames ∧ (writeData a d s).rdata = s.rdata ∧
    (writeData a d s).port = s.port := by
  obtain ⟨hcfg, -, hout, hframes, hrdata, hport, -, -⟩ := regWrite_frame (s.setParser .header) a d
  exact ⟨hcfg, hout, hframes, hrdata, hport⟩

/-! ## The invariant -/

theorem exec_inv {i : Instr} {s t : State} (hs : s.Inv) (h : exec i s = .next t) : t.Inv := by
  rcases exec_next_cases h with rfl | ⟨-, rfl⟩ | ⟨u, n, -, -, rfl⟩ | ⟨u, n, -, -, rfl⟩ |
    ⟨a, d, -, rfl⟩ | ⟨a, -, hroom, rfl⟩
  · exact hs
  · exact tickState_inv s hs
  · exact noteOnUnit_inv u n s hs
  · exact noteOffUnit_inv u n s hs
  · exact writeData_inv a d _ (writeHeader_inv a s hs)
  · exact State.emitRdata_inv s _ hs hroom

/-- The invariant does not speak of the words on the port. -/
theorem State.setPort_inv {s : State} (ws : List Word) (hs : s.Inv) : (s.setPort ws).Inv := hs

/-- Settles O51: each of the things a step can do keeps the invariant. -/
theorem everyStepKeepsTheInvariant : Obligations.EveryStepKeepsTheInvariant := by
  intro s t hs h
  rcases step_cases s with ⟨-, e⟩ | ⟨a, d, rest, -, -, e⟩ | ⟨a, -, -, -, -, e⟩ | ⟨-, -, -, -, -, e⟩ |
    ⟨i, rest, -, -, -, e⟩ <;> rw [e] at h
  · cases h; exact hs
  · cases h; exact writeData_inv a d _ (State.setPort_inv rest hs)
  · cases h; exact writeHeader_inv a _ (State.setPort_inv [] hs)
  · cases h; exact hs
  · exact exec_inv (State.setPort_inv rest hs) h

/-! ## The outputs -/

/-- Settles O45, by the six things a command can do. -/
theorem outputsComeFromTickAndRead : Obligations.OutputsComeFromTickAndRead := by
  intro i s t h
  rcases exec_next_cases h with rfl | ⟨rfl, rfl⟩ | ⟨u, n, -, -, rfl⟩ | ⟨u, n, -, -, rfl⟩ |
    ⟨a, d, rfl, rfl⟩ | ⟨a, rfl, -, rfl⟩
  · exact ⟨fun _ => ⟨rfl, rfl⟩, fun _ => rfl, fun _ => t.sameSettings_refl, rfl⟩
  · exact ⟨fun hne => absurd rfl hne, fun _ => rfl, fun _ => tickState_sameSettings s, rfl⟩
  · obtain ⟨-, hout, hframes, hrdata, hport⟩ := noteOnUnit_frame u n s
    exact ⟨fun _ => ⟨hframes, hout⟩, fun _ => hrdata, fun _ => noteOnUnit_sameSettings u n s, hport⟩
  · obtain ⟨-, hout, hframes, hrdata, hport⟩ := noteOffUnit_frame u n s
    exact ⟨fun _ => ⟨hframes, hout⟩, fun _ => hrdata, fun _ => noteOffUnit_sameSettings u n s, hport⟩
  · obtain ⟨-, hout, hframes, hrdata, hport⟩ := writeData_frame a d (writeHeader a s)
    exact ⟨fun _ => ⟨hframes, hout⟩, fun _ => hrdata, fun hne => absurd rfl (hne a d), hport⟩
  · exact ⟨fun _ => ⟨rfl, rfl⟩, fun hne => absurd rfl (hne a), fun _ => s.sameSettings_refl, rfl⟩

/-! ## The parameters of the instance -/

theorem exec_cfg {i : Instr} {s t : State} (h : exec i s = .next t) : t.cfg = s.cfg := by
  rcases exec_next_cases h with rfl | ⟨-, rfl⟩ | ⟨u, n, -, -, rfl⟩ | ⟨u, n, -, -, rfl⟩ |
    ⟨a, d, -, rfl⟩ | ⟨a, -, -, rfl⟩
  · rfl
  · rfl
  · exact (noteOnUnit_frame u n s).1
  · exact (noteOffUnit_frame u n s).1
  · exact (writeData_frame a d _).1
  · rfl

theorem step_cfg {s t : State} (h : step s = .next t) : t.cfg = s.cfg := by
  rcases step_cases s with ⟨-, e⟩ | ⟨a, d, rest, -, -, e⟩ | ⟨a, -, -, -, -, e⟩ | ⟨-, -, -, -, -, e⟩ |
    ⟨i, rest, -, -, -, e⟩ <;> rw [e] at h
  · cases h; rfl
  · cases h; exact (writeData_frame a d _).1
  · cases h; rfl
  · cases h; rfl
  · exact (exec_cfg h).trans (s.setPort_cfg rest)

theorem hostAct_cfg (a : HostAct) (s : State) : (hostAct a s).cfg = s.cfg := by
  cases a <;> rfl

/-- Settles O55: the commands, the steps and the host actions, one lemma each. -/
theorem parametersAreFixed : Obligations.ParametersAreFixed :=
  ⟨fun _ _ _ => exec_cfg, fun _ _ => step_cfg, hostAct_cfg⟩

end Sys2Proof.Machine
end

/-! The statements about the read side of the register space (20_memory.md R63) and CFG (10_state.md
R41). Both go through `regRead_addr`: RegRead at a register's own address is that register's value. -/

namespace Sys2Proof

theorem BankReg.offset_lt (r : BankReg) : r.offset < 6 := by cases r <;> decide
theorem VoiceReg.offset_lt (r : VoiceReg) : r.offset < 7 := by cases r <;> decide
theorem HatReg.offset_lt (r : HatReg) : r.offset < 16 := by cases r <;> decide

end Sys2Proof

namespace Sys2Proof.Machine

/-! ## Every present register is found at its address -/

@[simp] theorem bankRegAt_offset (r : BankReg) : bankRegAt r.offset = some r := by cases r <;> rfl
@[simp] theorem voiceRegAt_offset (r : VoiceReg) : voiceRegAt r.offset = some r := by
  cases r <;> rfl
@[simp] theorem hatRegAt_offset (r : HatReg) : hatRegAt r.offset = some r := by cases r <;> rfl

/-- A bank's own registers stand at the start of its block. -/
theorem bankBlockAt_bank (b : Nat) (r : BankReg) : bankBlockAt b r.offset = some (.bank b r) := by
  have ho := r.offset_lt
  rw [bankBlockAt, if_pos (by omega), bankRegAt_offset, Option.map_some]

/-- The voices' groups of 8 follow at 0x40. -/
theorem bankBlockAt_voice (b : Nat) {v : Nat} (hv : v < Config.nVoice) (r : VoiceReg) :
    bankBlockAt b (0x40 + 8 * v + r.offset) = some (.voice b v r) := by
  have ho := r.offset_lt
  have hv : v < 16 := hv
  have hmod : (0x40 + 8 * v + r.offset - 0x40) % 8 = r.offset := by omega
  have hdiv : (0x40 + 8 * v + r.offset - 0x40) / 8 = v := by omega
  rw [bankBlockAt, if_neg (by omega), if_pos (by omega), hmod, hdiv, voiceRegAt_offset,
    Option.map_some]

/-- An address in the block of a bank that the TSD has. -/
theorem regAt_bankBlock {p : Config.Params} (hp : p.legal) {b o : Nat} (hb : b < p.nBank)
    (ho : o < 0x100) : regAt p (BitVec.ofNat 12 (0x100 * (b + 1) + o)) = bankBlockAt b o := by
  have hn : p.nBank ≤ 8 := hp.1
  have ha : (BitVec.ofNat 12 (0x100 * (b + 1) + o)).toNat = 0x100 * (b + 1) + o := by
    rw [BitVec.toNat_ofNat]; omega
  have hdiv : (0x100 * (b + 1) + o) / 0x100 - 1 = b := by omega
  have hmod : (0x100 * (b + 1) + o) % 0x100 = o := by omega
  simp only [regAt, ha]
  rw [if_neg (by omega), if_neg (by omega), if_pos (by omega), hdiv, hmod, if_pos hb]

/-- R63: every register that the TSD has is found at its address. -/
theorem regAt_addr {p : Config.Params} (hp : p.legal) {r : Reg} (hr : r.present p) :
    regAt p (BitVec.ofNat 12 r.addr) = some r := by
  have ⟨hbank, hhat, hext, _, hch, _, _⟩ := hp
  cases r with
  | cfg => rfl
  | bank b r =>
    have ho := r.offset_lt
    exact (regAt_bankBlock hp hr (by omega)).trans (bankBlockAt_bank b r)
  | voice b v r =>
    obtain ⟨hb, hv⟩ := hr
    have ho := r.offset_lt
    have hv' : v < 16 := hv
    have ha : (Reg.voice b v r).addr = 0x100 * (b + 1) + (0x40 + 8 * v + r.offset) := by
      rw [Reg.addr]; omega
    rw [ha, regAt_bankBlock hp hb (by omega), bankBlockAt_voice b hv]
  | hat h r =>
    have hh : h < p.nHat := hr
    have ho := r.offset_lt
    have ha : (BitVec.ofNat 12 (Reg.hat h r).addr).toNat = 0x900 + 0x20 * h + r.offset := by
      rw [BitVec.toNat_ofNat, Reg.addr]; omega
    have hdiv : (0x900 + 0x20 * h + r.offset - 0x900) / 0x20 = h := by omega
    have hmod : (0x900 + 0x20 * h + r.offset - 0x900) % 0x20 = r.offset := by omega
    simp only [regAt, ha]
    rw [if_neg (by omega), if_neg (by omega), if_neg (by omega), if_pos (by omega), hdiv, hmod,
      if_pos hh, hatRegAt_offset, Option.map_some]
  | route i =>
    have hi : i < p.nBank + p.nHat + p.nExt := hr
    have ha : (BitVec.ofNat 12 (Reg.route i).addr).toNat = 0xA00 + i := by
      rw [BitVec.toNat_ofNat, Reg.addr]; omega
    simp only [regAt, ha]
    rw [if_neg (by omega), if_neg (by omega), if_neg (by omega), if_neg (by omega),
      if_pos (by omega), Nat.add_sub_cancel_left, if_pos (show i < p.nSrc from hr)]
  | outlast c =>
    have hc : c < p.nCh := hr
    have ha : (BitVec.ofNat 12 (Reg.outlast c).addr).toNat = 0xC00 + c := by
      rw [BitVec.toNat_ofNat, Reg.addr]; omega
    simp only [regAt, ha]
    rw [if_neg (by omega), if_neg (by omega), if_neg (by omega), if_neg (by omega),
      if_neg (by omega), Nat.add_sub_cancel_left, if_pos hc]

/-! ## RegRead at a register's address -/

/-- R61: RegRead at the address of a register that the TSD has is the register's value. -/
theorem regRead_addr {s : State} (hp : s.cfg.legal) {r : Reg} (hr : r.present s.cfg) :
    regRead s (BitVec.ofNat 12 r.addr) = readReg s r := by
  rw [regRead, regAt_addr hp hr]

/-- CFG is at address 0 whatever the counts. -/
theorem regRead_cfg (s : State) : regRead s 0 = cfgWord s.cfg := rfl

/-- A unit that a list of the right length holds has an index below that length. -/
theorem lt_of_getElem?_eq_some {α : Type} {xs : List α} {n i : Nat} {x : α} (hl : xs.length = n)
    (h : xs[i]? = some x) : i < n := by
  obtain ⟨hi, -⟩ := List.getElem?_eq_some_iff.mp h
  omega

section
variable {s : State} (hs : s.Inv)
include hs

theorem regRead_bank {b : Nat} {bk : Bank} (hb : s.banks[b]? = some bk) (r : BankReg) :
    regRead s (bankAddr b r.offset) = bk.readReg r := by
  obtain ⟨hp, hlen, -⟩ := hs
  have hr : (Reg.bank b r).present s.cfg := lt_of_getElem?_eq_some hlen hb
  calc regRead s (bankAddr b r.offset) = readReg s (.bank b r) := regRead_addr hp hr
    _ = bk.readReg r := by simp [readReg, hb]

theorem regRead_voice {b v : Nat} {bk : Bank} {x : Voice} (hb : s.banks[b]? = some bk)
    (hv : bk.voices[v]? = some x) (r : VoiceReg) :
    regRead s (voiceAddr b v r.offset) = x.readReg r := by
  obtain ⟨hp, hlen, -, -, -, hbanks, -⟩ := hs
  have hwf : bk.wf := hbanks bk (List.mem_of_getElem? hb)
  have hr : (Reg.voice b v r).present s.cfg :=
    ⟨lt_of_getElem?_eq_some hlen hb, lt_of_getElem?_eq_some hwf.1 hv⟩
  calc regRead s (voiceAddr b v r.offset) = readReg s (.voice b v r) := regRead_addr hp hr
    _ = x.readReg r := by simp [readReg, hb, hv]

theorem regRead_hat {i : Nat} {h : Hat} (hi : s.hats[i]? = some h) (r : HatReg) :
    regRead s (hatAddr i r.offset) = h.readReg r := by
  obtain ⟨hp, -, hlen, -⟩ := hs
  have hr : (Reg.hat i r).present s.cfg := lt_of_getElem?_eq_some hlen hi
  calc regRead s (hatAddr i r.offset) = readReg s (.hat i r) := regRead_addr hp hr
    _ = h.readReg r := by simp [readReg, hi]

theorem regRead_route {i : Nat} {w : Word} (hi : s.route[i]? = some w) :
    regRead s (routeAddr i) = w := by
  obtain ⟨hp, -, -, hlen, -⟩ := hs
  have hr : (Reg.route i).present s.cfg := lt_of_getElem?_eq_some hlen hi
  calc regRead s (routeAddr i) = readReg s (.route i) := regRead_addr hp hr
    _ = w := by simp [readReg, hi]

theorem regRead_outlast {c : Nat} {w : Word} (hc : s.outlast[c]? = some w) :
    regRead s (outlastAddr c) = w := by
  obtain ⟨hp, -, -, -, hlen, -⟩ := hs
  have hr : (Reg.outlast c).present s.cfg := lt_of_getElem?_eq_some hlen hc
  calc regRead s (outlastAddr c) = readReg s (.outlast c) := regRead_addr hp hr
    _ = w := by simp [readReg, hc]

end

/-! ## The fields of the status words -/

/-- VSTAT, field by field (R63). -/
theorem Voice.vstat_fields (v : Voice) :
    v.vstat.extractLsb' 0 3 = v.env.stage.code ∧ v.vstat.extractLsb' 3 4 = 0#4 ∧
    v.vstat.getLsbD 7 = v.nv ∧ v.vstat.extractLsb' 8 7 = v.note ∧
    v.vstat.extractLsb' 15 17 = 0#17 := by
  unfold Voice.vstat
  refine ⟨?_, ?_, ?_, ?_, ?_⟩
  case refine_3 =>
    rw [BitVec.getLsbD_append, BitVec.getLsbD_append, BitVec.getLsbD_append]
    simp
  all_goals
    simp (disch := decide) only [BitVec.extractLsb'_append_eq_of_le,
      BitVec.extractLsb'_append_eq_of_add_le, Nat.reduceSub, BitVec.extractLsb'_eq_self]

/-- ESTAT, field by field (R63). -/
theorem Hat.estat_fields (h : Hat) :
    h.estat.extractLsb' 0 3 = h.env.stage.code ∧ h.estat.extractLsb' 3 29 = 0#29 :=
  ⟨BitVec.extractLsb'_append_eq_right, BitVec.extractLsb'_append_eq_left⟩

/-- CFG, field by field: each count fits its field for legal parameters (R5, R41). -/
theorem cfgWord_fields {p : Config.Params} (hp : p.legal) :
    ((cfgWord p).extractLsb' 0 4).toNat = p.nBank ∧ ((cfgWord p).extractLsb' 4 4).toNat = p.nHat ∧
    ((cfgWord p).extractLsb' 8 6).toNat = p.nCh ∧ ((cfgWord p).extractLsb' 16 4).toNat = p.nExt ∧
    (cfgWord p).extractLsb' 14 2 = 0#2 ∧ (cfgWord p).extractLsb' 20 12 = 0#12 := by
  obtain ⟨hbank, hhat, hext, -, hch, -, -⟩ := hp
  unfold cfgWord
  simp (disch := decide) only [BitVec.extractLsb'_append_eq_of_le,
    BitVec.extractLsb'_append_eq_of_add_le, Nat.reduceSub, BitVec.extractLsb'_eq_self,
    BitVec.toNat_ofNat, and_true]
  omega

/-- A wave sample register reads as the sample, sign-extended (R66). -/
theorem toInt_sext25 (x : BitVec 25) : (sext25 x).toInt = x.toInt :=
  BitVec.toInt_signExtend_of_le (by decide)

/-! ## The two statements -/

/-- Settles O10, by RegRead at the address of each kind of register and the fields of the status
words. -/
theorem registerReadValues : Obligations.RegisterReadValues := by
  refine ⟨⟨rfl, rfl, rfl, rfl, rfl⟩, fun s hs => ⟨regRead_cfg s, ?_, ?_,
    fun i r => regRead_route hs, fun c w => regRead_outlast hs⟩⟩
  · intro b bk hb
    have hbank := regRead_bank hs hb
    refine ⟨hbank .wave, hbank .attackN, hbank .decayN, hbank .sustain, hbank .releaseN,
      hbank .notecnt, ?_⟩
    intro v x hv
    have hvoice := regRead_voice hs hb hv
    have hvstat : regRead s (voiceAddr b v 0) = x.vstat := hvoice .vstat
    obtain ⟨hstage, hzero, hnv, hnote, hhigh⟩ := x.vstat_fields
    rw [hvstat]
    exact ⟨hstage, hzero, hnv, hnote, hhigh, hvoice .phase, hvoice .level, hvoice .ts,
      hvoice .ecnt, hvoice .estep, hvoice .etgt⟩
  · intro i h hi
    have hhat := regRead_hat hs hi
    have hestat : regRead s (hatAddr i 8) = h.estat := hhat .estat
    have hx1 : regRead s (hatAddr i 0xC) = sext25 h.x1 := hhat .x1
    have hx2 : regRead s (hatAddr i 0xD) = sext25 h.x2 := hhat .x2
    obtain ⟨hstage, hhigh⟩ := h.estat_fields
    rw [hestat, hx1, hx2]
    exact ⟨hhat .trigNote, hhat .hdecayN, hhat .b0, hhat .b1, hhat .b2, hhat .a1, hhat .a2,
      hhat .seed, hstage, hhigh, hhat .hlevel, hhat .hcnt, hhat .hstep, toInt_sext25 h.x1,
      toInt_sext25 h.x2, hhat .y1, hhat .y2⟩

/-- Settles O11: CFG reads the parameters only, and RegWrite leaves them (`regWrite_frame`). -/
theorem cfgHoldsTheCounts : Obligations.CfgHoldsTheCounts := by
  intro s hp
  obtain ⟨hbank, hhat, hch, hext, hgap, hhigh⟩ := cfgWord_fields hp
  simp only [regRead_cfg]
  refine ⟨hbank, hhat, hch, hext, hgap, hhigh, fun a d => ?_⟩
  obtain ⟨hcfg, -⟩ := regWrite_frame s a d
  rw [hcfg]

end Sys2Proof.Machine

/-! The statement about NOTECNT (10_state.md R26): one lemma per operation a command can call, on the
list of all the banks' counters. -/

namespace Sys2Proof.Machine

/-- The note-on counters of the banks, in bank order (R26). -/
def State.notecnts (s : State) : List Word := s.banks.map Bank.notecnt

theorem State.notecnts_getElem?_eq_some {s : State} {b : Nat} {c : Word} :
    s.notecnts[b]? = some c ↔ ∃ bk, s.banks[b]? = some bk ∧ bk.notecnt = c := by
  simp [State.notecnts]

@[simp] theorem Bank.noteOn_notecnt (n : BitVec 7) (bk : Bank) :
    (bk.noteOn n).notecnt = bk.notecnt + 1 := rfl
@[simp] theorem Bank.noteOff_notecnt (n : BitVec 7) (bk : Bank) :
    (bk.noteOff n).notecnt = bk.notecnt := rfl

/-! ## What each operation does to the counters -/

/-- A change of one bank that leaves its counter leaves every counter. -/
theorem State.updBank_notecnts (s : State) (b : Nat) {f : Bank → Bank}
    (hf : ∀ bk, (f bk).notecnt = bk.notecnt) : (s.updBank b f).notecnts = s.notecnts :=
  map_modify_of_comp_eq hf s.banks b

/-- Seen through a map, a change of one entry is the change that the map shows. -/
theorem map_modify_of_semiconj {α β : Type} {g : α → β} {f : α → α} {k : β → β}
    (hf : ∀ x, g (f x) = k (g x)) (xs : List α) (i : Nat) :
    (xs.modify i f).map g = (xs.map g).modify i k := by
  induction xs generalizing i with
  | nil => simp
  | cons x xs ih => cases i <;> simp [hf, ih]

/-- R153, R243: NOTE_ON counts in the bank it is sent to. A unit number that is no bank's counts
nowhere: it is beyond the list. -/
theorem noteOnUnit_notecnts (u : BitVec 4) (n : BitVec 7) {s : State} (hs : s.Inv) :
    (noteOnUnit u n s).notecnts = s.notecnts.modify u.toNat (· + 1) := by
  obtain ⟨-, hlen, -⟩ := hs
  unfold noteOnUnit
  split
  next => exact map_modify_of_semiconj (Bank.noteOn_notecnt n) s.banks u.toNat
  next hbank =>
    have hself : s.notecnts.modify u.toNat (· + 1) = s.notecnts :=
      List.modify_eq_self (by simp only [State.notecnts, List.length_map]; omega)
    rw [hself]
    split <;> rfl

theorem noteOffUnit_notecnts (u : BitVec 4) (n : BitVec 7) (s : State) :
    (noteOffUnit u n s).notecnts = s.notecnts := by
  rcases noteOffUnit_cases u n s with h | h | h <;> rw [h]
  · exact s.updBank_notecnts _ (Bank.noteOff_notecnt n)
  · rfl

theorem regWrite_notecnts (s : State) (a : Addr) (d : Word) :
    (regWrite s a d).notecnts = s.notecnts := by
  rcases regWrite_cases s a d with h | ⟨b, r, -, h⟩ | ⟨i, r, -, h⟩ | ⟨i, -, -, h⟩ <;> rw [h]
  · exact s.updBank_notecnts b (fun bk => (Bank.writeReg_frame r d bk).2)
  · rfl
  · rfl

theorem tickState_notecnts (s : State) : (tickState s).notecnts = s.notecnts := by
  simp [tickState, State.notecnts, Function.comp_def]

/-! ## What a command does to the counters -/

/-- Every command answers a next state. -/
theorem exec_next (i : Instr) (s : State) : ∃ t, exec i s = .next t := by
  rcases exec_cases i s with h | h | ⟨u, n, h⟩ | ⟨u, n, h⟩ | ⟨a, d, h⟩ | ⟨a, -, h⟩ <;> exact ⟨_, h⟩

/-- R26: a command other than NOTE_ON changes no counter. -/
theorem exec_notecnts_of_ne_noteOn {i : Instr} {s t : State} (hi : ∀ u n vel, i ≠ .noteOn u n vel)
    (h : exec i s = .next t) : t.notecnts = s.notecnts := by
  rcases exec_next_cases h with rfl | ⟨-, rfl⟩ | ⟨u, n, vel, hon, -⟩ | ⟨u, n, -, -, rfl⟩ |
    ⟨a, d, -, rfl⟩ | ⟨a, -, -, rfl⟩
  · rfl
  · exact tickState_notecnts s
  · exact absurd hon (hi u n vel)
  · exact noteOffUnit_notecnts u n s
  · exact regWrite_notecnts _ a d
  · rfl

/-- A NOTE_ON adds 1 to the counter of the bank it is sent to, and to no other. -/
theorem exec_noteOn_notecnts {u : BitVec 4} {n vel : BitVec 7} {s t : State} (hs : s.Inv)
    (h : exec (.noteOn u n vel) s = .next t) :
    t.notecnts = s.notecnts.modify u.toNat (· + 1) := by
  cases h
  exact noteOnUnit_notecnts u n hs

/-- A command that is no NOTE_ON to unit `b` leaves the counter of bank `b`. -/
theorem exec_notecnts_getElem?_of_ne {i : Instr} {s t : State} {b : Nat} (hs : s.Inv)
    (h : exec i s = .next t) (hne : ∀ u n vel, i = .noteOn u n vel → u.toNat ≠ b) :
    t.notecnts[b]? = s.notecnts[b]? := by
  by_cases hon : ∃ u n vel, i = .noteOn u n vel
  case pos =>
    obtain ⟨u, n, vel, rfl⟩ := hon
    rw [exec_noteOn_notecnts hs h, List.getElem?_modify_ne _ _ (hne u n vel rfl)]
  case neg =>
    rw [exec_notecnts_of_ne_noteOn (fun u n vel hi => hon ⟨u, n, vel, hi⟩) h]

/-- Settles O44: the command is a NOTE_ON to the bank (`exec_noteOn_notecnts`) or it is not
(`exec_notecnts_getElem?_of_ne`). -/
theorem notecntCountsNoteOns : Obligations.NotecntCountsNoteOns := by
  refine ⟨fun p bk hbk => ?_, fun i s hs => ?_⟩
  · rw [List.eq_of_mem_replicate hbk]
    rfl
  obtain ⟨t, ht⟩ := exec_next i s
  refine ⟨t, ht, fun b bk hb => ?_⟩
  have hsb : s.notecnts[b]? = some bk.notecnt := State.notecnts_getElem?_eq_some.mpr ⟨bk, hb, rfl⟩
  by_cases hon : ∃ u n vel, i = .noteOn u n vel ∧ u.toNat = b
  case pos =>
    obtain ⟨u, n, vel, rfl, rfl⟩ := hon
    have htb : t.notecnts[u.toNat]? = some (bk.notecnt + 1) := by
      simp [exec_noteOn_notecnts hs ht, hsb]
    obtain ⟨bk', hb', hcnt⟩ := State.notecnts_getElem?_eq_some.mp htb
    refine ⟨bk', hb', fun _ => ?_, fun hne => absurd rfl (hne u n vel rfl)⟩
    rw [hcnt, BitVec.toNat_add]
    rfl
  case neg =>
    have hne : ∀ u n vel, i = .noteOn u n vel → u.toNat ≠ b :=
      fun u n vel hi hub => hon ⟨u, n, vel, hi, hub⟩
    have htb : t.notecnts[b]? = some bk.notecnt := (exec_notecnts_getElem?_of_ne hs ht hne).trans hsb
    obtain ⟨bk', hb', hcnt⟩ := State.notecnts_getElem?_eq_some.mp htb
    exact ⟨bk', hb', fun ⟨u, n, vel, hi, hub⟩ => absurd hub (hne u n vel hi), fun _ => hcnt⟩

end Sys2Proof.Machine

/-! The statement about the source values of a TICK (44_mixer.md R210, R214): where each unit's value
stands in `State.sources`, and one bound per unit, from the waveform up to the accumulator. -/

namespace Sys2Proof.Machine

/-! ## Bounds on scaled values and on sums -/

/-- A value scaled by a level of at most FULL keeps any bound on its magnitude (R156, R188). -/
theorem abs_scaled_le {a m : Int} {l : Nat} (ha : |a| ≤ m) (hl : l ≤ 2 ^ 31) :
    |fdivPow2 (a * l) 31| ≤ m := by
  obtain ⟨hlo, hhi⟩ := abs_le.mp ha
  have hl' : (l : Int) ≤ 2 ^ 31 := by exact_mod_cast hl
  exact abs_le.mpr (fdivPow2_bounds (by nlinarith) (by nlinarith))

/-- A sum of `n` values of magnitude at most `m` has magnitude at most `n * m`. -/
theorem abs_sum_le_length_mul {xs : List Int} {m : Int} (h : ∀ x ∈ xs, |x| ≤ m) :
    |xs.sum| ≤ xs.length * m := by
  have hlo := xs.card_nsmul_le_sum (-m) (fun x hx => (abs_le.mp (h x hx)).1)
  have hhi := xs.sum_le_card_nsmul m (fun x hx => (abs_le.mp (h x hx)).2)
  rw [nsmul_eq_mul] at hlo hhi
  exact abs_le.mpr ⟨by linarith, hhi⟩

/-! ## Waveforms (R102) -/

/-- The quarter table holds values from 0 to 2^23 (R105). -/
theorem sineQuarter_bounds : ∀ y ∈ sineQuarter, 0 ≤ y ∧ y ≤ 2 ^ 23 := by decide +kernel

theorem sineQuarter_getD_bounds (k : Nat) :
    0 ≤ sineQuarter.getD k 0 ∧ sineQuarter.getD k 0 ≤ 2 ^ 23 := by
  rw [List.getD_eq_getElem?_getD]
  cases hk : sineQuarter[k]? with
  | none => decide
  | some y => exact sineQuarter_bounds y (List.mem_of_getElem? hk)

/-- The full table has magnitude at most 2^23, by its symmetry (R105). -/
theorem abs_sineTable_le (k : Nat) : |sineTable k| ≤ 2 ^ 23 := by
  have hup := sineQuarter_getD_bounds (k % 512)
  have hdown := sineQuarter_getD_bounds (512 - k % 512)
  rw [abs_le]
  unfold sineTable
  dsimp only
  split <;> split <;> omega

/-- Interpolation stays between its two ends (R104). -/
theorem abs_interpolate_le {y z m : Int} {f : Nat} (hy : |y| ≤ m) (hz : |z| ≤ m)
    (hf : f ≤ 2 ^ 22) : |y + fdivPow2 ((z - y) * f) 22| ≤ m := by
  have hf' : (f : Int) ≤ 2 ^ 22 := by exact_mod_cast hf
  rw [abs_le] at hy hz ⊢
  rcases le_total y z with h | h
  · have := fdivPow2_bounds (a := (z - y) * f) (lo := 0) (hi := z - y) (k := 22)
      (by nlinarith) (by nlinarith)
    omega
  · have := fdivPow2_bounds (a := (z - y) * f) (lo := z - y) (hi := 0) (k := 22)
      (by nlinarith) (by nlinarith)
    omega

theorem abs_waveSine_le (p : Word) : |waveSine p| ≤ 2 ^ 23 :=
  abs_interpolate_le (abs_sineTable_le _) (abs_sineTable_le _) (BitVec.isLt _).le

theorem abs_waveTriangle_le (p : Word) : |waveTriangle p| ≤ 2 ^ 23 := by
  have hp := p.isLt
  rw [abs_le]
  unfold waveTriangle fdivPow2
  dsimp only
  split
  next => omega
  next => split <;> omega

theorem abs_waveSawtooth_le (p : Word) : |waveSawtooth p| ≤ 2 ^ 23 := by
  have hp := p.isLt
  rw [abs_le]
  unfold waveSawtooth fdivPow2
  omega

theorem abs_waveSquare_le (p : Word) : |waveSquare p| ≤ 2 ^ 23 := by
  unfold waveSquare
  split <;> decide

/-- Every waveform has magnitude at most 2^23 (R102). -/
theorem abs_wave_le (w : BitVec 2) (p : Word) : |wave w p| ≤ 2 ^ 23 := by
  unfold wave
  split
  next => exact abs_waveSine_le p
  next =>
    split
    next => exact abs_waveTriangle_le p
    next =>
      split
      next => exact abs_waveSawtooth_le p
      next => exact abs_waveSquare_le p

/-! ## The value of each kind of source -/

/-- The sample of a legal voice has magnitude at most 2^23 (R156). -/
theorem Voice.abs_sample_le (noteInc : List Word) (w : BitVec 2) {v : Voice} (hv : v.wf) :
    |v.sample noteInc w| ≤ 2 ^ 23 := by
  obtain ⟨⟨hlevel, -⟩, -⟩ := hv
  unfold Voice.sample
  split
  next => decide
  next => exact abs_scaled_le (abs_wave_le _ _) hlevel

/-- A legal bank sums 16 samples (R157). -/
theorem Bank.abs_out_le (noteInc : List Word) {bk : Bank} (hb : bk.wf) :
    |bk.out noteInc| ≤ 2 ^ 27 := by
  obtain ⟨hlen, -, hvoices⟩ := hb
  have hsum : |bk.out noteInc| ≤ (bk.voices.map (Voice.sample noteInc bk.wave)).length * 2 ^ 23 := by
    refine abs_sum_le_length_mul fun y hy => ?_
    obtain ⟨v, hv, rfl⟩ := List.mem_map.mp hy
    exact Voice.abs_sample_le noteInc bk.wave (hvoices v hv)
  rw [List.length_map, hlen] at hsum
  exact hsum

/-- A legal lane's value is a signed 32-bit value (R188). -/
theorem Hat.out_bounds {h : Hat} (hw : h.wf) : -2 ^ 31 ≤ h.out ∧ h.out ≤ 2 ^ 31 - 1 := by
  obtain ⟨-, ⟨hlevel, -⟩, -⟩ := hw
  obtain ⟨hlo, hhi⟩ : -2 ^ 31 ≤ h.filter ∧ h.filter ≤ 2 ^ 31 - 1 := biquadOut_bounds _
  have hl : (h.env.level.toNat : Int) ≤ 2 ^ 31 := by exact_mod_cast hlevel
  unfold Hat.out
  split
  next => decide
  next => exact fdivPow2_bounds (by nlinarith) (by nlinarith)

theorem clamp_eq_max_min {a lo hi : Int} (h : lo ≤ hi) : clamp a lo hi = max lo (min a hi) := by
  unfold clamp
  split
  next => omega
  next => split <;> omega

theorem Hat.out_of_idle {h : Hat} (hi : h.env.stage = .idle) : h.out = 0 := if_pos hi

/-- R184, R188: the value of a lane that is not Idle. -/
theorem Hat.out_of_not_idle {h : Hat} (hi : h.env.stage ≠ .idle) :
    h.out = max (-2 ^ 31) (min (h.biquadAcc h.noise / 2 ^ 30) (2 ^ 31 - 1)) *
      h.env.level.toNat / 2 ^ 31 := by
  have hfilter : h.filter = max (-2 ^ 31) (min (h.biquadAcc h.noise / 2 ^ 30) (2 ^ 31 - 1)) :=
    clamp_eq_max_min (by decide)
  rw [Hat.out, if_neg hi, hfilter, fdivPow2]

/-! ## Where each source stands (R210): banks, lanes, ports -/

theorem State.sources_bank {s : State} {b : Nat} {bk : Bank} (hb : s.banks[b]? = some bk) :
    s.sources[b]? = some (bk.out s.cfg.noteInc) := by
  obtain ⟨hlt, -⟩ := List.getElem?_eq_some_iff.mp hb
  rw [State.sources, List.append_assoc, List.getElem?_append_left (by simpa using hlt),
    List.getElem?_map, hb, Option.map_some]

theorem State.sources_hat {s : State} (hs : s.Inv) {i : Nat} {h : Hat} (hi : s.hats[i]? = some h) :
    s.sources[s.cfg.nBank + i]? = some h.out := by
  obtain ⟨-, hbanks, -⟩ := hs
  obtain ⟨hlt, -⟩ := List.getElem?_eq_some_iff.mp hi
  have hskip : (s.banks.map (Bank.out s.cfg.noteInc)).length = s.cfg.nBank := by simpa using hbanks
  rw [State.sources, List.append_assoc, List.getElem?_append_right (by omega), hskip,
    Nat.add_sub_cancel_left, List.getElem?_append_left (by simpa using hlt), List.getElem?_map, hi,
    Option.map_some]

theorem State.sources_ext {s : State} (hs : s.Inv) {e : Nat} (he : e < s.cfg.nExt) :
    s.sources[s.cfg.nBank + s.cfg.nHat + e]? = some (s.extWord e).toInt := by
  obtain ⟨-, hbanks, hhats, -⟩ := hs
  have hskip : (s.banks.map (Bank.out s.cfg.noteInc) ++ s.hats.map Hat.out).length =
      s.cfg.nBank + s.cfg.nHat := by simp [hbanks, hhats]
  rw [State.sources, List.getElem?_append_right (by omega), hskip, Nat.add_sub_cancel_left,
    List.getElem?_map, List.getElem?_range he]
  rfl

theorem State.sources_length {s : State} (hs : s.Inv) : s.sources.length = s.cfg.nSrc := by
  obtain ⟨-, hbanks, hhats, -⟩ := hs
  simp [State.sources, Config.Params.nSrc, hbanks, hhats, Nat.add_assoc]

/-! ## The word on an external port (log 2) -/

theorem State.extWord_of_nil {s : State} (h : s.extIn = []) (e : Nat) :
    s.extWord e = Config.extPort s.tickNo e := by
  rw [State.extWord, h]

theorem State.extWord_of_cons {s : State} {v : List Word} {vs : List (List Word)}
    (h : s.extIn = v :: vs) (e : Nat) :
    s.extWord e = (v[e]?).getD (Config.extPort s.tickNo e) := by
  rw [State.extWord, h]
  exact List.getD_eq_getElem?_getD

/-! ## The accumulator (R214) -/

/-- Every source has magnitude at most 2^31. -/
theorem State.abs_source_le {s : State} (hs : s.Inv) : ∀ x ∈ s.sources, |x| ≤ 2 ^ 31 := by
  obtain ⟨-, -, -, -, -, hbanks, hhats, -⟩ := hs
  intro x hx
  rcases List.mem_append.mp hx with hx | hx
  · rcases List.mem_append.mp hx with hx | hx
    · obtain ⟨bk, hbk, rfl⟩ := List.mem_map.mp hx
      exact (Bank.abs_out_le _ (hbanks bk hbk)).trans (by decide)
    · obtain ⟨h, hh, rfl⟩ := List.mem_map.mp hx
      have := Hat.out_bounds (hhats h hh)
      exact abs_le.mpr ⟨by omega, by omega⟩
  · obtain ⟨e, -, rfl⟩ := List.mem_map.mp hx
    have := s32_bounds (s.extWord e)
    exact abs_le.mpr ⟨by omega, by omega⟩

/-- An accumulator adds at most 31 sources, so it stays below 2^36 (R214). -/
theorem abs_mixAcc_lt {s : State} (hs : s.Inv) (c : Nat) : |mixAcc s.route s.sources c| < 2 ^ 36 := by
  have hterm : ∀ x ∈ (s.route.zip s.sources).map (fun rs => if routed rs.1 c then rs.2 else 0),
      |x| ≤ 2 ^ 31 := by
    intro x hx
    obtain ⟨⟨r, y⟩, hmem, rfl⟩ := List.mem_map.mp hx
    obtain ⟨-, hy⟩ := List.of_mem_zip hmem
    dsimp only
    split
    next => exact State.abs_source_le hs y hy
    next => decide
  have hsum := abs_sum_le_length_mul hterm
  have hlen : (s.route.zip s.sources).length ≤ s.sources.length := by
    rw [List.length_zip]; exact Nat.min_le_right _ _
  rw [State.sources_length hs] at hlen
  rw [List.length_map] at hsum
  obtain ⟨⟨hbank, hhat, hext, -⟩, -⟩ := hs
  unfold Config.Params.nSrc at hlen
  unfold mixAcc
  omega

/-- Settles O38: the value and the bound of each kind of source, and the bound of the accumulator. -/
theorem sourceValuesAndRanges : Obligations.SourceValuesAndRanges := by
  intro s hs
  have ⟨_, _, _, _, _, hbanks, hhats, _⟩ := hs
  refine ⟨fun b bk hb => ?_, fun i h hi => ?_, fun e he => ?_, abs_mixAcc_lt hs⟩
  · have hwf : bk.wf := hbanks bk (List.mem_of_getElem? hb)
    obtain ⟨hlo, hhi⟩ := abs_le.mp (Bank.abs_out_le s.cfg.noteInc hwf)
    exact ⟨_, State.sources_bank hb, rfl, hlo, hhi⟩
  · have hwf : h.wf := hhats h (List.mem_of_getElem? hi)
    obtain ⟨hlo, hhi⟩ := Hat.out_bounds hwf
    exact ⟨_, State.sources_hat hs hi, hlo, hhi, Hat.out_of_idle,
      fun hne => ⟨h.noise, h.biquadAcc h.noise, rfl, rfl, Hat.out_of_not_idle hne⟩⟩
  · rw [State.sources_ext hs he]
    refine ⟨fun hnil => ?_, fun v vs hcons => ⟨fun w hw => ?_, fun hnone => ?_⟩⟩
    · rw [State.extWord_of_nil hnil]
    · rw [State.extWord_of_cons hcons, hw, Option.getD_some]
    · rw [State.extWord_of_cons hcons, hnone, Option.getD_none]

end Sys2Proof.Machine

/-! The byte order of words (20_memory.md R65): the four bytes of a word, put together again in the
order they were sent, are the word. -/

namespace Sys2Proof

/-- The receiver's word from the four bytes the sender takes a word apart into. -/
theorem bytes_append (w : Word) :
    w.extractLsb' 24 8 ++ w.extractLsb' 16 8 ++ w.extractLsb' 8 8 ++ w.extractLsb' 0 8 = w := by
  rw [BitVec.extractLsb'_append_extractLsb'_eq_extractLsb' (by rfl),
    BitVec.extractLsb'_append_extractLsb'_eq_extractLsb' (by rfl),
    BitVec.extractLsb'_append_extractLsb'_eq_extractLsb' (by rfl)]
  exact BitVec.extractLsb'_eq_self

/-- Fewer than four bytes are no whole word. -/
theorem wordsOfBytes_short {bs : List Byte} (h : bs.length < 4) : wordsOfBytes bs = ([], bs) := by
  match bs, h with
  | [], _ => rfl
  | [_], _ => rfl
  | [_, _], _ => rfl
  | [_, _, _], _ => rfl
  | _ :: _ :: _ :: _ :: _, h => simp only [List.length_cons] at h; omega

/-- The first word sent is the first word received. -/
theorem wordsOfBytes_bytesOfWord_append (w : Word) (bs : List Byte) :
    wordsOfBytes (bytesOfWord w ++ bs) = (w :: (wordsOfBytes bs).1, (wordsOfBytes bs).2) := by
  rw [bytesOfWord, List.cons_append, List.cons_append, List.cons_append, List.cons_append,
    List.nil_append, wordsOfBytes, bytes_append]

theorem wordsOfBytes_bytesOfWords_append (ws : List Word) {bs : List Byte} (h : bs.length < 4) :
    wordsOfBytes (bytesOfWords ws ++ bs) = (ws, bs) := by
  induction ws with
  | nil => exact wordsOfBytes_short h
  | cons w ws ih =>
    rw [bytesOfWords, List.flatMap_cons, List.append_assoc, wordsOfBytes_bytesOfWord_append,
      ← bytesOfWords, ih]

/-- Byte `k` of a word is its bits from `8 * k` up: the least significant byte is sent first. -/
theorem bytesOfWord_getElem? (w : Word) {k : Nat} (hk : k < 4) :
    (bytesOfWord w)[k]? = some (w.extractLsb' (8 * k) 8) := by
  match k, hk with
  | 0, _ => rfl
  | 1, _ => rfl
  | 2, _ => rfl
  | 3, _ => rfl

/-- Settles O5, by induction on the words sent. -/
theorem bytesCarryWords : Obligations.BytesCarryWords :=
  fun ws _ hbs => ⟨wordsOfBytes_bytesOfWords_append ws hbs,
    fun w _ _ hk => bytesOfWord_getElem? w hk⟩

end Sys2Proof

/-! The register map (20_memory.md R63, R64): the register found at an address is present and stands
there, so an address where none stands is unmapped. -/

namespace Sys2Proof.Machine

/-! ## A register found at an address stands at that address -/

theorem offset_of_bankRegAt {o : Nat} {r : BankReg} (h : bankRegAt o = some r) : r.offset = o := by
  unfold bankRegAt at h
  split at h <;> cases h <;> rfl

theorem offset_of_voiceRegAt {o : Nat} {r : VoiceReg} (h : voiceRegAt o = some r) :
    r.offset = o := by
  unfold voiceRegAt at h
  split at h <;> cases h <;> rfl

theorem offset_of_hatRegAt {o : Nat} {r : HatReg} (h : hatRegAt o = some r) : r.offset = o := by
  unfold hatRegAt at h
  split at h <;> cases h <;> rfl

/-- A register in bank `b`'s block is one of the bank's own or of one of its 16 voices, at its
offset. -/
theorem bankBlockAt_eq_some {b o : Nat} {r : Reg} (h : bankBlockAt b o = some r) :
    (∃ q : BankReg, r = .bank b q ∧ q.offset = o) ∨
    (∃ (v : Nat) (q : VoiceReg), r = .voice b v q ∧ v < Config.nVoice ∧
      0x40 + 8 * v + q.offset = o) := by
  unfold bankBlockAt at h
  split at h
  next =>
    obtain ⟨q, hq, rfl⟩ := Option.map_eq_some_iff.mp h
    exact .inl ⟨q, rfl, offset_of_bankRegAt hq⟩
  next hlo =>
    split at h
    next hhi =>
      obtain ⟨q, hq, rfl⟩ := Option.map_eq_some_iff.mp h
      have ho := offset_of_voiceRegAt hq
      exact .inr ⟨(o - 0x40) / 8, q, rfl, show (o - 0x40) / 8 < 16 by omega, by omega⟩
    next => cases h

/-- R63: the register found at an address is one that the TSD has, and the address is its own. This
holds of every instance, whatever its counts. -/
theorem regAt_eq_some {p : Config.Params} {a : Addr} {r : Reg} (h : regAt p a = some r) :
    r.present p ∧ r.addr = a.toNat := by
  simp only [regAt] at h
  split at h
  next h0 => cases h; exact ⟨trivial, h0.symm⟩
  next =>
  split at h
  next => cases h
  next =>
  split at h
  next =>
    split at h
    next hb =>
      rcases bankBlockAt_eq_some h with ⟨q, rfl, ho⟩ | ⟨v, q, rfl, hv, ho⟩
      · exact ⟨hb, by rw [Reg.addr]; omega⟩
      · exact ⟨⟨hb, hv⟩, by rw [Reg.addr]; omega⟩
    next => cases h
  next =>
  split at h
  next =>
    split at h
    next hh =>
      obtain ⟨q, hq, rfl⟩ := Option.map_eq_some_iff.mp h
      have ho := offset_of_hatRegAt hq
      exact ⟨hh, by rw [Reg.addr]; omega⟩
    next => cases h
  next =>
  split at h
  next =>
    split at h
    next hi => cases h; exact ⟨hi, by rw [Reg.addr]; omega⟩
    next => cases h
  next =>
    split at h
    next hc => cases h; exact ⟨hc, by rw [Reg.addr]; omega⟩
    next => cases h

/-- Settles O8: `regAt_addr` finds every register, `regAt_eq_some` reads the map back. -/
theorem registerMapIsExact : Obligations.RegisterMapIsExact :=
  fun _ hp => ⟨fun _ => regAt_addr hp, fun _ _ => regAt_eq_some⟩

/-- Two addresses do not name one register. -/
theorem regAt_injective {p : Config.Params} {a a' : Addr} {r : Reg} (h : regAt p a = some r)
    (h' : regAt p a' = some r) : a = a' := by
  obtain ⟨-, ha⟩ := regAt_eq_some h
  obtain ⟨-, ha'⟩ := regAt_eq_some h'
  exact BitVec.eq_of_toNat_eq (ha.symm.trans ha')

/-! ## Unmapped addresses (R64) -/

/-- An address at which no register of the instance stands is unmapped. -/
theorem regAt_eq_none {p : Config.Params} {a : Addr}
    (h : ∀ r : Reg, r.present p → r.addr ≠ a.toNat) : regAt p a = none := by
  cases hr : regAt p a with
  | none => rfl
  | some r =>
    obtain ⟨hpres, haddr⟩ := regAt_eq_some hr
    exact absurd haddr (h r hpres)

theorem regRead_of_regAt {s : State} {a : Addr} {r : Reg} (h : regAt s.cfg a = some r) :
    regRead s a = readReg s r := by
  rw [regRead, h]

theorem regWrite_of_regAt {s : State} {a : Addr} {r : Reg} (h : regAt s.cfg a = some r) (d : Word) :
    regWrite s a d = writeReg s r d := by
  rw [regWrite, h]

theorem regRead_of_unmapped {s : State} {a : Addr} (h : regAt s.cfg a = none) :
    regRead s a = 0 := by
  rw [regRead, h]

theorem regWrite_of_unmapped {s : State} {a : Addr} (h : regAt s.cfg a = none) (d : Word) :
    regWrite s a d = s := by
  rw [regWrite, h]

/-- Where the registers of an instance stand: CFG at 0, the start of each bank's block, the first seven
words of each voice's group, the first half of each lane's block, and one word for each source and
channel (R63). -/
theorem addr_of_present {p : Config.Params} {r : Reg} (hr : r.present p) :
    r.addr = 0 ∨
    (∃ b o, b < p.nBank ∧ o < 6 ∧ r.addr = 0x100 * (b + 1) + o) ∨
    (∃ b v o, b < p.nBank ∧ v < 16 ∧ o < 7 ∧ r.addr = 0x100 * (b + 1) + 0x40 + 8 * v + o) ∨
    (∃ h o, h < p.nHat ∧ o < 16 ∧ r.addr = 0x900 + 0x20 * h + o) ∨
    (∃ i, i < p.nSrc ∧ r.addr = 0xA00 + i) ∨
    (∃ c, c < p.nCh ∧ r.addr = 0xC00 + c) := by
  cases r with
  | cfg => exact .inl rfl
  | bank b q => exact .inr (.inl ⟨b, q.offset, hr, q.offset_lt, rfl⟩)
  | voice b v q => exact .inr (.inr (.inl ⟨b, v, q.offset, hr.1, hr.2, q.offset_lt, rfl⟩))
  | hat h q => exact .inr (.inr (.inr (.inl ⟨h, q.offset, hr, q.offset_lt, rfl⟩)))
  | route i => exact .inr (.inr (.inr (.inr (.inl ⟨i, hr, rfl⟩))))
  | outlast c => exact .inr (.inr (.inr (.inr (.inr ⟨c, hr, rfl⟩))))

/-- Settles O9: in none of the listed ranges does a register of the instance stand. The last step holds
each range against each of the places of `addr_of_present`: they are disjoint. -/
theorem unmappedAddressesDoNothing : Obligations.UnmappedAddressesDoNothing := by
  intro s hp
  refine ⟨fun a ha => ?_, fun a hrange => regAt_eq_none fun r hr haddr => ?_⟩
  · have hnone := regAt_eq_none ha
    exact ⟨regRead_of_unmapped hnone, regWrite_of_unmapped hnone⟩
  · obtain ⟨hbank, hhat, hext, -, hch, -, -⟩ := hp
    have hsrc : s.cfg.nSrc ≤ 31 := by unfold Config.Params.nSrc; omega
    have hplace := addr_of_present hr
    rw [haddr] at hplace
    rcases hrange with h | h | h | ⟨b, o, hb, ha, h⟩ | ⟨b, v, hb, hv, ha⟩ | ⟨i, o, hi, ha, h⟩ |
      ⟨i, hi, hi', ha⟩ | ⟨c, hc, hc', ha⟩ <;>
    rcases hplace with h' | ⟨b', o', hb', ho', h'⟩ | ⟨b', v', o', hb', hv', ho', h'⟩ |
      ⟨i', o', hi', ho', h'⟩ | ⟨i', hi', h'⟩ | ⟨c', hc', h'⟩ <;>
    omega

end Sys2Proof.Machine
/-! What WRITE stores (20_memory.md R62, 45_host_commands.md R244, R245), clause by clause: each is
`exec_write` and what RegWrite does at that address. -/

namespace Sys2Proof.Machine

/-! ## WRITE as RegWrite -/

/-- R244: a whole WRITE leaves the parser at HEADER, so it is RegWrite and nothing else. -/
theorem exec_write {s : State} (hs : s.parser = .header) (a : Addr) (d : Word) :
    exec (.write a d) s = .next (regWrite s a d) := by
  have hback : (writeHeader a s).setParser .header = s := by
    calc (writeHeader a s).setParser .header = { s with parser := .header } := rfl
      _ = s := by rw [← hs]
  rw [exec, execWrite, writeData, hback]

/-- R62: RegWrite at the address of a register that the TSD has writes that register. -/
theorem regWrite_addr {s : State} (hp : s.cfg.legal) {r : Reg} (hr : r.present s.cfg) (d : Word) :
    regWrite s (BitVec.ofNat 12 r.addr) d = writeReg s r d :=
  regWrite_of_regAt (regAt_addr hp hr) d

theorem exec_write_addr {s : State} (hp : s.cfg.legal) (hs : s.parser = .header) {r : Reg}
    (hr : r.present s.cfg) (d : Word) :
    exec (.write (BitVec.ofNat 12 r.addr) d) s = .next (writeReg s r d) := by
  rw [exec_write hs, regWrite_addr hp hr]

/-- A WRITE that RegWrite ignores leaves the state as it was. -/
theorem exec_write_of_regWrite_eq_self {s : State} (hs : s.parser = .header) {a : Addr} {d : Word}
    (h : regWrite s a d = s) : exec (.write a d) s = .next s := by
  rw [exec_write hs, h]

/-! ## A conditional store in one unit -/

/-- A change of a bank that changes nothing. -/
theorem State.updBank_id (s : State) (b : Nat) {f : Bank → Bank} (hf : ∀ bk, f bk = bk) :
    s.updBank b f = s := by
  rw [funext hf, State.updBank]
  exact congrArg (fun l => { s with banks := l }) (List.modify_id b s.banks)

/-- A change of a lane that changes nothing. -/
theorem State.updHat_id (s : State) (i : Nat) {f : Hat → Hat} (hf : ∀ h, f h = h) :
    s.updHat i f = s := by
  rw [funext hf, State.updHat]
  exact congrArg (fun l => { s with hats := l }) (List.modify_id i s.hats)

/-- A bank that stores a value only when it is legal changes only then. -/
theorem State.updBank_ite (s : State) (b : Nat) (c : Prop) [Decidable c] (f : Bank → Bank) :
    s.updBank b (fun bk => if c then f bk else bk) =
      if c then { s with banks := s.banks.modify b f } else s := by
  by_cases hc : c
  · simp only [if_pos hc]; rfl
  · rw [if_neg hc]; exact s.updBank_id b fun _ => if_neg hc

/-- A lane that stores a value only when it is legal changes only then. -/
theorem State.updHat_ite (s : State) (i : Nat) (c : Prop) [Decidable c] (f : Hat → Hat) :
    s.updHat i (fun h => if c then f h else h) =
      if c then { s with hats := s.hats.modify i f } else s := by
  by_cases hc : c
  · simp only [if_pos hc]; rfl
  · rw [if_neg hc]; exact s.updHat_id i fun _ => if_neg hc

/-! ## A voice's group and a lane's block, offset by offset -/

/-- The eight words of a voice's group: seven registers and an unmapped one. -/
theorem regAt_voiceAddr {p : Config.Params} (hp : p.legal) {b v o : Nat} (hb : b < p.nBank)
    (hv : v < 16) (ho : o < 8) :
    regAt p (voiceAddr b v o) = (voiceRegAt o).map (Reg.voice b v) := by
  have ha : voiceAddr b v o = BitVec.ofNat 12 (0x100 * (b + 1) + (0x40 + 8 * v + o)) := by
    rw [voiceAddr]; congr 1; omega
  have hmod : (0x40 + 8 * v + o - 0x40) % 8 = o := by omega
  have hdiv : (0x40 + 8 * v + o - 0x40) / 8 = v := by omega
  rw [ha, regAt_bankBlock hp hb (by omega), bankBlockAt, if_neg (by omega), if_pos (by omega),
    hmod, hdiv]

/-- The 32 words of a lane's block: sixteen registers and sixteen unmapped ones. -/
theorem regAt_hatAddr {p : Config.Params} (hp : p.legal) {i o : Nat} (hi : i < p.nHat)
    (ho : o < 0x20) : regAt p (hatAddr i o) = (hatRegAt o).map (Reg.hat i) := by
  have hn : p.nHat ≤ 8 := hp.2.1
  have ha : (hatAddr i o).toNat = 0x900 + 0x20 * i + o := by
    rw [hatAddr, BitVec.toNat_ofNat]; omega
  have hdiv : (0x900 + 0x20 * i + o - 0x900) / 0x20 = i := by omega
  have hmod : (0x900 + 0x20 * i + o - 0x900) % 0x20 = o := by omega
  simp only [regAt, ha]
  rw [if_neg (by omega), if_neg (by omega), if_neg (by omega), if_pos (by omega), hdiv, hmod,
    if_pos hi]

/-- R62: voices are written by no WRITE. -/
theorem regWrite_voiceAddr {s : State} (hp : s.cfg.legal) {b v o : Nat} (hb : b < s.cfg.nBank)
    (hv : v < 16) (ho : o < 8) (d : Word) : regWrite s (voiceAddr b v o) d = s := by
  rw [regWrite, regAt_voiceAddr hp hb hv ho]
  cases voiceRegAt o <;> rfl

/-- The lane registers from ESTAT on are read-only (R63). -/
theorem Hat.writeReg_readOnly {q : HatReg} (hq : 8 ≤ q.offset) (d : Word) (h : Hat) :
    h.writeReg q d = h := by
  cases q with
  | trigNote | hdecayN | b0 | b1 | b2 | a1 | a2 | seed => exact absurd hq (by decide)
  | _ => rfl

/-- R62: a lane's state registers, and the words above them, are written by no WRITE. -/
theorem regWrite_hatAddr_readOnly {s : State} (hp : s.cfg.legal) {i o : Nat} (hi : i < s.cfg.nHat)
    (ho : 8 ≤ o) (ho' : o < 0x20) (d : Word) : regWrite s (hatAddr i o) d = s := by
  rw [regWrite, regAt_hatAddr hp hi ho']
  cases hq : hatRegAt o with
  | none => rfl
  | some q => exact s.updHat_id i (Hat.writeReg_readOnly ((offset_of_hatRegAt hq).symm ▸ ho) d)

/-! ## The statements about what WRITE stores -/

/-- Settles O12: `exec_write_addr` at each register of the bank. -/
theorem writeToBankRegisters : Obligations.WriteToBankRegisters := by
  intro s b d hp hs hb
  have hstore (q : BankReg) := exec_write_addr hp hs (r := .bank b q) hb d
  have hcond (c : Prop) [Decidable c] (f : Bank → Bank) :=
    congrArg (Host.Outcome.next (φ := Fault) (ρ := Refusal)) (s.updBank_ite b c f)
  refine ⟨(hstore .wave).trans (hcond _ _), (hstore .attackN).trans (hcond _ _),
    (hstore .decayN).trans (hcond _ _), (hstore .sustain).trans (hcond _ _),
    (hstore .releaseN).trans (hcond _ _), (hstore .notecnt).trans ?_, fun v o hv ho => ?_⟩
  · exact congrArg _ (s.updBank_id b fun _ => rfl)
  · exact exec_write_of_regWrite_eq_self hs (regWrite_voiceAddr hp hb hv ho d)

/-- Settles O13: `exec_write_addr` at each writable register of the lane; the rest of its block is
read-only. -/
theorem writeToHatRegisters : Obligations.WriteToHatRegisters := by
  intro s i d hp hs hi
  have hstore (q : HatReg) := exec_write_addr hp hs (r := .hat i q) hi d
  have hcond (c : Prop) [Decidable c] (f : Hat → Hat) :=
    congrArg (Host.Outcome.next (φ := Fault) (ρ := Refusal)) (s.updHat_ite i c f)
  exact ⟨(hstore .trigNote).trans (hcond _ _), (hstore .hdecayN).trans (hcond _ _),
    hstore .b0, hstore .b1, hstore .b2, hstore .a1, hstore .a2, hstore .seed,
    fun o ho ho' => exec_write_of_regWrite_eq_self hs (regWrite_hatAddr_readOnly hp hi ho ho' d)⟩

/-- The legality of a ROUTE value, as R245 lists it. -/
theorem routeLegal_iff (nCh : Nat) (d : Word) :
    routeLegal nCh d = true ↔
      d.extractLsb' 9 23 = 0#23 ∧ d.extractLsb' 5 3 = 0#3 ∧ (d.extractLsb' 0 5).toNat < nCh := by
  rw [routeLegal, routeCh, Bool.and_eq_true, Bool.and_eq_true, beq_iff_eq, beq_iff_eq,
    decide_eq_true_iff, and_assoc]

/-- Settles O14: `exec_write_addr` at ROUTE, CFG and OUTLAST; an address of no register is
unmapped. -/
theorem writeToRouteAndReadOnly : Obligations.WriteToRouteAndReadOnly := by
  intro s d hp hs
  have hstore (r : Reg) (hr : r.present s.cfg) := exec_write_addr hp hs hr d
  refine ⟨fun i hi => (hstore (.route i) hi).trans ?_, hstore .cfg trivial,
    fun c hc => hstore (.outlast c) hc, fun a ha => ?_⟩
  · simp only [writeReg, routeLegal_iff]; rfl
  · exact exec_write_of_regWrite_eq_self hs (regWrite_of_unmapped (regAt_eq_none ha) d)

end Sys2Proof.Machine
/-! What WRITE changes and what reads back (20_memory.md R62, R66, R68): one lemma per kind of unit on
reading a register after a write to it and to another one. -/

namespace Sys2Proof.Machine

/-! ## Reading another register after a write (R68) -/

theorem Bank.readReg_writeReg_of_ne {q q' : BankReg} (hne : q' ≠ q) (d : Word) (bk : Bank) :
    (bk.writeReg q d).readReg q' = bk.readReg q' := by
  cases q with
  | notecnt => rfl
  | wave | attackN | decayN | sustain | releaseN =>
    dsimp only [Bank.writeReg]
    split
    next => cases q' <;> trivial
    next => rfl

theorem Hat.readReg_writeReg_of_ne {q q' : HatReg} (hne : q' ≠ q) (d : Word) (h : Hat) :
    (h.writeReg q d).readReg q' = h.readReg q' := by
  cases q with
  | trigNote | hdecayN =>
    dsimp only [Hat.writeReg]
    split
    next => cases q' <;> trivial
    next => rfl
  | b0 | b1 | b2 | a1 | a2 | seed => cases q' <;> trivial
  | _ => rfl

/-- A change of entry `i` seen at entry `j` through `g`, which does not see it at `i` itself. -/
theorem getElem?_modify_map {α β : Type} {f : α → α} {g : α → β} {i j : Nat}
    (hfg : i = j → ∀ x, g (f x) = g x) (xs : List α) :
    (xs.modify i f)[j]?.map g = xs[j]?.map g := by
  rw [List.getElem?_modify]
  cases xs[j]? with
  | none => rfl
  | some x =>
    by_cases hij : i = j
    · simp [hij, hfg hij]
    · simp [hij]

/-- A voice register's value through the voices of its bank. -/
theorem readReg_voice (s : State) (b v : Nat) (q : VoiceReg) :
    readReg s (.voice b v q) =
      (((s.banks[b]?.map Bank.voices).bind (·[v]?)).map (Voice.readReg · q)).getD 0 := by
  rw [readReg, Option.bind_map]
  rfl

/-- R68: a write to a register leaves every other register's value. -/
theorem readReg_writeReg_of_ne (s : State) {r r' : Reg} (hne : r' ≠ r) (d : Word) :
    readReg (writeReg s r d) r' = readReg s r' := by
  cases r with
  | cfg => rfl
  | voice b v q => rfl
  | outlast c => rfl
  | bank b q =>
    cases r' with
    | bank b' q' =>
      refine congrArg (Option.getD · 0) (getElem?_modify_map (fun hb bk => ?_) s.banks)
      exact Bank.readReg_writeReg_of_ne (fun hq => hne (by rw [hb, hq])) d bk
    | voice b' v q' =>
      have hvoices : (s.banks.modify b (Bank.writeReg q d))[b']?.map Bank.voices =
          s.banks[b']?.map Bank.voices :=
        getElem?_modify_map (fun _ bk => (Bank.writeReg_frame q d bk).1) s.banks
      simp only [writeReg, readReg_voice, State.updBank_banks, hvoices]
    | _ => rfl
  | hat i q =>
    cases r' with
    | hat i' q' =>
      refine congrArg (Option.getD · 0) (getElem?_modify_map (fun hi h => ?_) s.hats)
      exact Hat.readReg_writeReg_of_ne (fun hq => hne (by rw [hi, hq])) d h
    | _ => rfl
  | route i =>
    simp only [writeReg]
    split
    next =>
      cases r' with
      | route i' =>
        have hi : i ≠ i' := fun hi => hne (by rw [hi])
        simp only [readReg, State.setRoute_route, List.getD_eq_getElem?_getD,
          List.getElem?_set_ne hi]
      | _ => rfl
    next => rfl

/-! ## Repeating a write (R68) -/

theorem Bank.writeReg_writeReg (q : BankReg) (d : Word) (bk : Bank) :
    (bk.writeReg q d).writeReg q d = bk.writeReg q d := by
  cases q with
  | notecnt => rfl
  | wave | attackN | decayN | sustain | releaseN =>
    dsimp only [Bank.writeReg]
    split <;> rfl

theorem Hat.writeReg_writeReg (q : HatReg) (d : Word) (h : Hat) :
    (h.writeReg q d).writeReg q d = h.writeReg q d := by
  cases q with
  | trigNote | hdecayN =>
    dsimp only [Hat.writeReg]
    split <;> rfl
  | _ => rfl


/-- R68: a register written twice with one value is as if written once. -/
theorem writeReg_writeReg (s : State) (r : Reg) (d : Word) :
    writeReg (writeReg s r d) r d = writeReg s r d := by
  cases r with
  | cfg => rfl
  | voice b v q => rfl
  | outlast c => rfl
  | bank b q =>
    have hcomp : Bank.writeReg q d ∘ Bank.writeReg q d = Bank.writeReg q d :=
      funext (Bank.writeReg_writeReg q d)
    simp only [writeReg, State.updBank, List.modify_modify_eq, hcomp]
  | hat i q =>
    have hcomp : Hat.writeReg q d ∘ Hat.writeReg q d = Hat.writeReg q d :=
      funext (Hat.writeReg_writeReg q d)
    simp only [writeReg, State.updHat, List.modify_modify_eq, hcomp]
  | route i =>
    by_cases hd : routeLegal s.cfg.nCh d
    · simp only [writeReg, hd, if_true, State.setRoute, List.set_set]
    · simp only [writeReg, hd, if_false, Bool.false_eq_true]

/-- R68 for RegWrite: at every other address RegRead answers as before. -/
theorem regRead_regWrite_of_ne (s : State) {a a' : Addr} (hne : a' ≠ a) (d : Word) :
    regRead (regWrite s a d) a' = regRead s a' := by
  obtain ⟨hcfg, -⟩ := regWrite_frame s a d
  cases hr : regAt s.cfg a with
  | none => rw [regWrite_of_unmapped hr]
  | some r =>
    cases hr' : regAt s.cfg a' with
    | none => rw [regRead_of_unmapped hr', regRead_of_unmapped (hcfg.symm ▸ hr')]
    | some r' =>
      have hrr : r' ≠ r := fun h => hne (regAt_injective (h ▸ hr') hr)
      rw [regRead_of_regAt hr', regRead_of_regAt (hcfg.symm ▸ hr'), regWrite_of_regAt hr,
        readReg_writeReg_of_ne s hrr]

theorem regWrite_regWrite (s : State) (a : Addr) (d : Word) :
    regWrite (regWrite s a d) a d = regWrite s a d := by
  obtain ⟨hcfg, -⟩ := regWrite_frame s a d
  cases hr : regAt s.cfg a with
  | none => rw [regWrite_of_unmapped hr, regWrite_of_unmapped hr]
  | some r =>
    rw [regWrite_of_regAt (hcfg.symm ▸ hr), regWrite_of_regAt hr, writeReg_writeReg]

/-- RegWrite changes banks, lanes and routes only. -/
theorem regWrite_eq (s : State) (a : Addr) (d : Word) :
    regWrite s a d = { s with
      banks := (regWrite s a d).banks, hats := (regWrite s a d).hats,
      route := (regWrite s a d).route } := by
  rcases regWrite_cases s a d with h | ⟨b, r, -, h⟩ | ⟨i, r, -, h⟩ | ⟨i, -, -, h⟩ <;> rw [h] <;> rfl

/-- R68: a READ changes the read-data queue only, so every register reads as before. -/
theorem exec_read_frame (s : State) (a : Addr) :
    ∃ t : State, exec (.read a) s = .next t ∧ t = { s with rdata := t.rdata } ∧
      ∀ a' : Addr, regRead t a' = regRead s a' := by
  rw [exec, execRead]
  split
  · exact ⟨s, rfl, rfl, fun _ => rfl⟩
  · exact ⟨_, rfl, rfl, fun _ => rfl⟩

/-- Settles O15: a WRITE is RegWrite, which leaves the other addresses and answers the same when
repeated. -/
theorem writeChangesOnlyItsRegister : Obligations.WriteChangesOnlyItsRegister := by
  intro s a d hs
  have ⟨_, hparser, _⟩ := regWrite_frame s a d
  refine ⟨⟨regWrite s a d, exec_write hs a d, fun _ hne => regRead_regWrite_of_ne s hne d,
    regWrite_eq s a d, ?_⟩, exec_read_frame s a⟩
  rw [exec_write (hparser.trans hs), regWrite_regWrite]

/-! ## Reading a register back (R62, R66) -/

/-- A value that fits a narrower register reads back whole. -/
theorem setWidth_setWidth_of_toNat_lt {w : Nat} {d : Word} (h : d.toNat < 2 ^ w) :
    (d.setWidth w).setWidth 32 = d := by
  apply BitVec.eq_of_toNat_eq
  rw [BitVec.toNat_setWidth, BitVec.toNat_setWidth, Nat.mod_eq_of_lt h, Nat.mod_eq_of_lt d.isLt]

theorem Bank.readReg_writeReg_self {p : Config.Params} {b : Nat} {q : BankReg} {d : Word}
    (hd : (Reg.bank b q).legalValue p d) (bk : Bank) : (bk.writeReg q d).readReg q = d := by
  cases q with
  | notecnt => exact hd.elim
  | sustain =>
    rw [Reg.legalValue] at hd
    rw [Bank.writeReg, if_pos hd, Bank.readReg]
  | wave | attackN | decayN | releaseN =>
    rw [Reg.legalValue] at hd
    rw [Bank.writeReg, if_pos hd, Bank.readReg]
    exact setWidth_setWidth_of_toNat_lt hd

/-- What a register reads after a legal WRITE of `d` to it: `d` itself, but 1 for SEED 0 (R245). -/
def readBack (d : Word) : Reg → Word
  | .hat _ .seed => if d = 0 then 1 else d
  | _ => d

theorem Hat.readReg_writeReg_self {p : Config.Params} {i : Nat} {q : HatReg} {d : Word}
    (hd : (Reg.hat i q).legalValue p d) (h : Hat) :
    (h.writeReg q d).readReg q = readBack d (.hat i q) := by
  cases q with
  | trigNote | hdecayN =>
    rw [Reg.legalValue] at hd
    rw [Hat.writeReg, if_pos hd, Hat.readReg]
    exact setWidth_setWidth_of_toNat_lt hd
  | b0 | b1 | b2 | a1 | a2 | seed => rfl
  | _ => exact hd.elim

/-- Writing a register that the state has, with a legal value. -/
theorem readReg_writeReg_self {s : State} (hs : s.Inv) {r : Reg} (hr : r.present s.cfg) {d : Word}
    (hd : r.legalValue s.cfg d) : readReg (writeReg s r d) r = readBack d r := by
  obtain ⟨-, hbanks, hhats, hroute, -⟩ := hs
  cases r with
  | cfg | voice | outlast => exact hd.elim
  | bank b q =>
    have hb : b < s.banks.length := hbanks.symm ▸ hr
    simp [readReg, writeReg, List.getElem?_eq_getElem hb, Bank.readReg_writeReg_self hd, readBack]
  | hat i q =>
    have hi : i < s.hats.length := hhats.symm ▸ hr
    simp [readReg, writeReg, List.getElem?_eq_getElem hi, Hat.readReg_writeReg_self hd]
  | route i =>
    have hi : i < s.route.length := hroute.symm ▸ hr
    have hlegal : routeLegal s.cfg.nCh d = true := (routeLegal_iff _ _).mpr hd
    simp [readReg, writeReg, hlegal, hi, readBack]

/-- Settles O16: RegWrite and RegRead at the register's address are `writeReg` and `readReg`. -/
theorem writeThenReadBack : Obligations.WriteThenReadBack := by
  intro s r d hs hr hd
  have ⟨hp, _⟩ := hs
  have hcfg : (regWrite s (BitVec.ofNat 12 r.addr) d).cfg = s.cfg := (regWrite_frame s _ d).1
  have hback : regRead (regWrite s (BitVec.ofNat 12 r.addr) d) (BitVec.ofNat 12 r.addr) =
      readBack d r := by
    rw [regRead_addr (hcfg.symm ▸ hp) (hcfg.symm ▸ hr), regWrite_addr hp hr,
      readReg_writeReg_self hs hr hd]
  rw [hback]
  refine ⟨fun hne => ?_, fun ⟨i, hi⟩ h0 => by rw [hi, readBack, if_pos h0]⟩
  unfold readBack
  split
  next i =>
    have h0 : d ≠ 0 := hne.resolve_left fun hseed => hseed i rfl
    rw [if_neg h0]
  next => rfl

end Sys2Proof.Machine

/-! The registers after reset (70_reset_and_hazards.md R290). -/

namespace Sys2Proof.Machine

theorem Bank.reset_readReg (q : BankReg) : Bank.reset.readReg q = 0 := by cases q <;> rfl

theorem Voice.reset_readReg (q : VoiceReg) : Voice.reset.readReg q = 0 := by cases q <;> rfl

/-- What a register reads after reset (R290): CFG its constant, SEED 1, every other one 0. -/
def resetValue (p : Config.Params) : Reg → Word
  | .cfg => cfgWord p
  | .hat _ .seed => 1
  | _ => 0

theorem resetValue_of_ne {p : Config.Params} {r : Reg} (hcfg : r ≠ .cfg)
    (hseed : ∀ i, r ≠ .hat i .seed) : resetValue p r = 0 := by
  unfold resetValue
  split
  next => exact absurd rfl hcfg
  next i => exact absurd rfl (hseed i)
  next => rfl

theorem Hat.reset_readReg (p : Config.Params) (i : Nat) (q : HatReg) :
    Hat.reset.readReg q = resetValue p (.hat i q) := by cases q <;> rfl

theorem readReg_resetWith {p : Config.Params} {r : Reg} (hr : r.present p) :
    readReg (State.resetWith p) r = resetValue p r := by
  cases r with
  | cfg => rfl
  | bank b q =>
    have hb : b < p.nBank := hr
    simp [readReg, State.resetWith, hb, Bank.reset_readReg, resetValue]
  | voice b v q =>
    obtain ⟨hb, hv⟩ := hr
    simp [readReg, State.resetWith, hb, hv, Bank.reset, Voice.reset_readReg, resetValue]
  | hat i q =>
    have hi : i < p.nHat := hr
    simp [readReg, State.resetWith, hi, Hat.reset_readReg p i]
  | route i => simp [readReg, State.resetWith, resetValue, List.getD_eq_getElem?_getD]
  | outlast c => simp [readReg, State.resetWith, resetValue]

/-- Settles O49: an address holds CFG, a SEED, another register or none. -/
theorem resetRegisterValues : Obligations.ResetRegisterValues := by
  intro p hp
  refine ⟨fun a => ?_, rfl, rfl, rfl, fun bk hbk => ?_, fun h hh => ?_⟩
  · split
    next h0 => rw [h0, regRead_cfg, resetWith_cfg]
    next h0 =>
    split
    next hseed =>
      obtain ⟨i, hi, rfl⟩ := hseed
      have hr : (Reg.hat i .seed).present p := hi
      exact (regRead_addr (s := State.resetWith p) hp hr).trans (readReg_resetWith hr)
    next hseed =>
      cases hr : regAt p a with
      | none => exact regRead_of_unmapped hr
      | some r =>
        obtain ⟨hpres, haddr⟩ := regAt_eq_some hr
        have hcfg : r ≠ .cfg := fun h => h0 (BitVec.eq_of_toNat_eq (by rw [← haddr, h]; rfl))
        have hne (i : Nat) : r ≠ .hat i .seed := by
          rintro rfl
          exact hseed ⟨i, hpres, regAt_injective hr (regAt_addr hp hpres)⟩
        rw [regRead_of_regAt hr, readReg_resetWith hpres, resetValue_of_ne hcfg hne]
  · rw [List.eq_of_mem_replicate hbk]
    refine ⟨rfl, fun x hx => ?_⟩
    rw [List.eq_of_mem_replicate hx]
    exact ⟨rfl, rfl⟩
  · rw [List.eq_of_mem_replicate hh]
    rfl

end Sys2Proof.Machine
/-! A stream of commands on the port (20_memory.md R69, 45_host_commands.md R240): a step takes the first
command from the port and runs it, and no command reads or writes the words behind it. -/

namespace Sys2Proof

/-- R80 to R83: the decoder reads a command back from its words and keeps the words behind it. -/
theorem decode_encode_append (i : Instr) (rest : List Word) :
    decode (encode i ++ rest) = .ok (i, rest) := by
  cases i with
  | noteOn u n v | noteOff u n v =>
    simp [encode, decode, opcField_encodeN, unitField_encodeN, noteField_encodeN, velField_encodeN]
  | write a d | read a => simp [encode, decode, opcField_encodeA, addrField_encodeA]
  | _ => simp [encode, decode, opcField_encodeZ]

end Sys2Proof

namespace Sys2Proof.Machine

/-! ## The words behind a command -/

theorem noteOnUnit_setPort (u : BitVec 4) (n : BitVec 7) (s : State) (ws : List Word) :
    noteOnUnit u n (s.setPort ws) = (noteOnUnit u n s).setPort ws := by
  rw [noteOnUnit, noteOnUnit, apply_ite (State.setPort · ws), apply_ite (State.setPort · ws)]
  rfl

theorem noteOffUnit_setPort (u : BitVec 4) (n : BitVec 7) (s : State) (ws : List Word) :
    noteOffUnit u n (s.setPort ws) = (noteOffUnit u n s).setPort ws := by
  rw [noteOffUnit, noteOffUnit, apply_ite (State.setPort · ws), apply_ite (State.setPort · ws)]
  rfl

theorem writeReg_setPort (s : State) (r : Reg) (d : Word) (ws : List Word) :
    writeReg (s.setPort ws) r d = (writeReg s r d).setPort ws := by
  cases r with
  | route i =>
    rw [writeReg, writeReg, apply_ite (State.setPort · ws)]
    rfl
  | _ => rfl

theorem regWrite_setPort (s : State) (a : Addr) (d : Word) (ws : List Word) :
    regWrite (s.setPort ws) a d = (regWrite s a d).setPort ws := by
  simp only [regWrite, State.setPort_cfg]
  cases regAt s.cfg a with
  | none => rfl
  | some r => exact writeReg_setPort s r d ws

/-- No command reads or writes the words on the port. -/
theorem exec_setPort {i : Instr} {s t : State} (h : exec i s = .next t) (ws : List Word) :
    exec i (s.setPort ws) = .next (t.setPort ws) := by
  cases i with
  | noteOn u n vel => cases h; exact congrArg _ (noteOnUnit_setPort u n s ws)
  | noteOff u n vel => cases h; exact congrArg _ (noteOffUnit_setPort u n s ws)
  | write a d =>
    cases h
    exact congrArg _ (regWrite_setPort ((writeHeader a s).setParser .header) a d ws)
  | read a =>
    simp only [exec, execRead] at h
    split at h
    next hfull => cases h; exact if_pos hfull
    next hroom => cases h; exact if_neg hroom
  | _ => cases h; rfl

/-! ## What a command leaves for the next one -/

/-- A command run whole leaves the parser ready for a header (R241). -/
theorem exec_parser {i : Instr} {s t : State} (hs : s.parser = .header) (h : exec i s = .next t) :
    t.parser = .header := by
  rcases exec_next_cases h with rfl | ⟨-, rfl⟩ | ⟨u, n, -, -, rfl⟩ | ⟨u, n, -, -, rfl⟩ |
    ⟨a, d, -, rfl⟩ | ⟨a, -, -, rfl⟩
  · exact hs
  · exact hs
  · obtain ⟨-, hparser, -, -⟩ := noteOnUnit_sameSettings u n s
    exact hparser.trans hs
  · obtain ⟨-, hparser, -, -⟩ := noteOffUnit_sameSettings u n s
    exact hparser.trans hs
  · obtain ⟨-, hparser, -⟩ := regWrite_frame ((writeHeader a s).setParser .header) a d
    exact hparser
  · exact hs

/-- Where there is room for the words of a READ and of the commands behind it, there is room for the
latter's after it: a READ uses up one place and no other command any. -/
theorem exec_room {i : Instr} {is : List Instr} {s t : State} (h : exec i s = .next t)
    (hroom : s.rdata.length + readCount (i :: is) ≤ s.cfg.rdataDepth) :
    t.rdata.length + readCount is ≤ t.cfg.rdataDepth := by
  rw [exec_cfg h]
  obtain ⟨-, hrdata, -, -⟩ := outputsComeFromTickAndRead i s t h
  by_cases hread : ∃ a, i = .read a
  case pos =>
    obtain ⟨a, rfl⟩ := hread
    have hcount : readCount (.read a :: is) = readCount is + 1 := List.countP_cons_of_pos rfl
    have hlen : t.rdata.length ≤ s.rdata.length + 1 := by
      simp only [exec, execRead] at h
      split at h <;> cases h <;> simp
    omega
  case neg =>
    have hcount : readCount is ≤ readCount (i :: is) :=
      (List.sublist_cons_self i is).countP_le
    rw [hrdata fun a ha => hread ⟨a, ha⟩]
    omega

/-- R247: with room for the words of its READs, the first of a list of commands is not held. -/
theorem not_held_of_room {i : Instr} {is : List Instr} {s : State}
    (hroom : s.rdata.length + readCount (i :: is) ≤ s.cfg.rdataDepth) : held i s = false := by
  cases i with
  | read a =>
    have hcount : readCount (.read a :: is) = readCount is + 1 := List.countP_cons_of_pos rfl
    exact decide_eq_false (by omega)
  | _ => rfl

/-! ## Step by step -/

/-- R240: a step runs the command whose words are first on the port. -/
theorem step_encode {i : Instr} {s : State} {rest : List Word} (hs : s.parser = .header)
    (hport : s.port = encode i ++ rest) (hheld : held i s = false) :
    step s = exec i (s.setPort rest) := by
  have hfetch : s.fetch = .command i rest := by
    simp only [State.fetch, hs, hport, decode_encode_append]
  rw [step, hfetch]
  exact if_neg (Bool.eq_false_iff.mp hheld)

theorem runSteps_succ {k : Nat} {s t : State} (h : step s = .next t) :
    runSteps (k + 1) s = runSteps k t := by
  rw [runSteps, h]

theorem execAll_cons {i : Instr} {is : List Instr} {s t : State} (h : exec i s = .next t) :
    execAll (i :: is) s = execAll is t := by
  rw [execAll, h]

/-- Settles O58, by induction on the commands: the first step runs the first command, which leaves the
parser, the port and the room that the others need. -/
theorem commandsRunInOrder : Obligations.CommandsRunInOrder := by
  intro is
  induction is with
  | nil =>
    intro s rest _ hport _
    have hself : s = { s with port := rest } := by rw [← show s.port = rest from hport]
    exact congrArg Host.Outcome.next hself
  | cons i is ih =>
    intro s rest hs hport hroom
    obtain ⟨t, ht⟩ := exec_next i s
    have hstep : step s = .next (t.setPort (encodeAll is ++ rest)) := by
      rw [encodeAll, List.flatMap_cons, List.append_assoc] at hport
      rw [step_encode hs hport (not_held_of_room hroom)]
      exact exec_setPort ht _
    have hparser : t.parser = .header := exec_parser hs ht
    have hroom' : t.rdata.length + readCount is ≤ t.cfg.rdataDepth := exec_room ht hroom
    calc runSteps (i :: is).length s
        = runSteps is.length (t.setPort (encodeAll is ++ rest)) := runSteps_succ hstep
      _ = execAll is (t.setPort rest) := ih _ rest hparser rfl hroom'
      _ = execAll (i :: is) (s.setPort rest) := (execAll_cons (exec_setPort ht rest)).symm

end Sys2Proof.Machine

/-! The encoding of commands (30_encoding.md R80 to R84): a header word with its ignored bits cleared is
the encoder's word of its own fields, so the decoder and the dispatch do not see the cleared bits and
the encoder gives the used ones back. -/

namespace Sys2Proof

/-! ## A word is its fields, and a mask keeps some of them (R81, R82) -/

/-- A word cut at the borders of format N: the fields and the ignored bits between them. -/
theorem formatN_append (w : Word) :
    opcField w ++ unitField w ++ w.extractLsb' 15 9 ++ velField w ++ w.extractLsb' 7 1 ++
      noteField w = w := by
  rw [opcField, unitField, velField, noteField,
    BitVec.extractLsb'_append_extractLsb'_eq_extractLsb' (by rfl),
    BitVec.extractLsb'_append_extractLsb'_eq_extractLsb' (by rfl),
    BitVec.extractLsb'_append_extractLsb'_eq_extractLsb' (by rfl),
    BitVec.extractLsb'_append_extractLsb'_eq_extractLsb' (by rfl),
    BitVec.extractLsb'_append_extractLsb'_eq_extractLsb' (by rfl)]
  exact BitVec.extractLsb'_eq_self

/-- A word cut at the borders of format A. -/
theorem formatA_append (w : Word) : opcField w ++ w.extractLsb' 12 16 ++ addrField w = w := by
  rw [opcField, addrField, BitVec.extractLsb'_append_extractLsb'_eq_extractLsb' (by rfl),
    BitVec.extractLsb'_append_extractLsb'_eq_extractLsb' (by rfl)]
  exact BitVec.extractLsb'_eq_self

/-- A word cut at the border of format Z. -/
theorem formatZ_append (w : Word) : opcField w ++ w.extractLsb' 0 28 = w := by
  rw [opcField, BitVec.extractLsb'_append_extractLsb'_eq_extractLsb' (by rfl)]
  exact BitVec.extractLsb'_eq_self

/-- The mask of format N keeps the four fields and clears the bits between them. -/
theorem and_formatN_mask (w : Word) :
    w &&& 0xFF007F7F#32 = encodeN (opcField w) (unitField w) (velField w) (noteField w) := by
  have hcut : (opcField w ++ unitField w ++ w.extractLsb' 15 9 ++ velField w ++ w.extractLsb' 7 1 ++
        noteField w) &&&
      (BitVec.allOnes 4 ++ BitVec.allOnes 4 ++ 0#9 ++ BitVec.allOnes 7 ++ 0#1 ++ BitVec.allOnes 7) =
        encodeN (opcField w) (unitField w) (velField w) (noteField w) := by
    simp only [BitVec.and_append, BitVec.and_allOnes, BitVec.and_zero, encodeN]
  rwa [formatN_append] at hcut

theorem and_formatA_mask (w : Word) :
    w &&& 0xF0000FFF#32 = encodeA (opcField w) (addrField w) := by
  have hcut : (opcField w ++ w.extractLsb' 12 16 ++ addrField w) &&&
      (BitVec.allOnes 4 ++ 0#16 ++ BitVec.allOnes 12) = encodeA (opcField w) (addrField w) := by
    simp only [BitVec.and_append, BitVec.and_allOnes, BitVec.and_zero, encodeA]
  rwa [formatA_append] at hcut

theorem and_formatZ_mask (w : Word) : w &&& 0xF0000000#32 = encodeZ (opcField w) := by
  have hcut : (opcField w ++ w.extractLsb' 0 28) &&& (BitVec.allOnes 4 ++ 0#28) =
      encodeZ (opcField w) := by
    simp only [BitVec.and_append, BitVec.and_allOnes, BitVec.and_zero, encodeZ]
  rwa [formatZ_append] at hcut

/-! ## A header word with its ignored bits cleared -/

/-- A header word with the bits its format ignores cleared (R81, R84). -/
def clearIgnored (w : Word) : Word := w &&& usedBits (opcField w)

theorem clearIgnored_formatN {w : Word} (h : (opcField w).toNat = 2 ∨ (opcField w).toNat = 3) :
    clearIgnored w = encodeN (opcField w) (unitField w) (velField w) (noteField w) := by
  have hmask : usedBits (opcField w) = 0xFF007F7F#32 := by
    rcases h with h | h <;> simp only [usedBits, h]
  rw [clearIgnored, hmask, and_formatN_mask]

theorem clearIgnored_formatA {w : Word} (h : (opcField w).toNat = 4 ∨ (opcField w).toNat = 5) :
    clearIgnored w = encodeA (opcField w) (addrField w) := by
  have hmask : usedBits (opcField w) = 0xF0000FFF#32 := by
    rcases h with h | h <;> simp only [usedBits, h]
  rw [clearIgnored, hmask, and_formatA_mask]

theorem clearIgnored_formatZ {w : Word} (h : (opcField w).toNat < 2 ∨ 5 < (opcField w).toNat) :
    clearIgnored w = encodeZ (opcField w) := by
  have hmask : usedBits (opcField w) = 0xF0000000#32 := by
    unfold usedBits
    split
    case h_5 => rfl
    all_goals omega
  rw [clearIgnored, hmask, and_formatZ_mask]

/-- Every format keeps the opcode. -/
theorem opcField_clearIgnored (w : Word) : opcField (clearIgnored w) = opcField w := by
  have hformat : ((opcField w).toNat = 2 ∨ (opcField w).toNat = 3) ∨
      ((opcField w).toNat = 4 ∨ (opcField w).toNat = 5) ∨
      ((opcField w).toNat < 2 ∨ 5 < (opcField w).toNat) := by omega
  rcases hformat with hN | hA | hZ
  · rw [clearIgnored_formatN hN, opcField_encodeN]
  · rw [clearIgnored_formatA hA, opcField_encodeA]
  · rw [clearIgnored_formatZ hZ, opcField_encodeZ]

/-- Format N keeps its operands. -/
theorem operands_clearIgnored {w : Word} (h : (opcField w).toNat = 2 ∨ (opcField w).toNat = 3) :
    unitField (clearIgnored w) = unitField w ∧ velField (clearIgnored w) = velField w ∧
      noteField (clearIgnored w) = noteField w := by
  rw [clearIgnored_formatN h]
  exact ⟨unitField_encodeN _ _ _ _, velField_encodeN _ _ _ _, noteField_encodeN _ _ _ _⟩

/-- Format A keeps its address. -/
theorem addrField_clearIgnored {w : Word} (h : (opcField w).toNat = 4 ∨ (opcField w).toNat = 5) :
    addrField (clearIgnored w) = addrField w := by
  rw [clearIgnored_formatA h, addrField_encodeA]

/-! ## Decoding and encoding -/

/-- Settles O1, format by format: an encoded header carries its fields (`encodeN_fields`,
`encodeA_fields`, `opcField_encodeZ`), and the decoder reads nothing else. -/
theorem decodeInvertsEncode : Obligations.DecodeInvertsEncode := decode_encode_append

/-- R84 at the decoder. -/
theorem decode_clearIgnored (w : Word) (rest : List Word) :
    decode (clearIgnored w :: rest) = decode (w :: rest) := by
  simp only [decode, opcField_clearIgnored]
  split
  case h_3 hop =>
    obtain ⟨hunit, hvel, hnote⟩ := operands_clearIgnored (.inl hop)
    rw [hunit, hvel, hnote]
  case h_4 hop =>
    obtain ⟨hunit, hvel, hnote⟩ := operands_clearIgnored (.inr hop)
    rw [hunit, hvel, hnote]
  case h_5 hop => rw [addrField_clearIgnored (.inl hop)]
  case h_6 hop => rw [addrField_clearIgnored (.inr hop)]
  all_goals rfl

/-- The command read has the opcode of the header it was read from. -/
theorem opcField_of_decode {w : Word} {ws rest : List Word} {i : Instr}
    (h : decode (w :: ws) = .ok (i, rest)) : opcField w = i.opcode := by
  apply BitVec.eq_of_toNat_eq
  have hlt := (opcField w).isLt
  simp only [decode] at h
  split at h
  case h_5 hop => split at h <;> cases h; exact hop
  case h_16 => cases h; simp only [imp_false] at *; change _ = 15; omega
  all_goals cases h; assumption

/-- R81: the encoder gives back the used bits of the header, the data word and the words behind. -/
theorem encode_append_of_decode {w : Word} {ws rest : List Word} {i : Instr}
    (h : decode (w :: ws) = .ok (i, rest)) : encode i ++ rest = clearIgnored w :: ws := by
  have hopc := opcField_of_decode h
  simp only [decode] at h
  split at h
  case h_3 hop => cases h; rw [clearIgnored_formatN (.inl hop), hopc]; rfl
  case h_4 hop => cases h; rw [clearIgnored_formatN (.inr hop), hopc]; rfl
  case h_5 hop => split at h <;> cases h; rw [clearIgnored_formatA (.inl hop), hopc]; rfl
  case h_6 hop => cases h; rw [clearIgnored_formatA (.inr hop), hopc]; rfl
  all_goals cases h; rw [clearIgnored_formatZ (by rw [hopc]; decide), hopc]; rfl

/-- Settles O3, by the format of the header read. -/
theorem encodeRebuildsUsedBits : Obligations.EncodeRebuildsUsedBits :=
  fun _ _ _ _ => encode_append_of_decode

end Sys2Proof

namespace Sys2Proof.Machine

/-- R84 at the dispatch of a header word (R241). -/
theorem dispatchWord_clearIgnored (w : Word) {s : State} (hs : s.parser = .header) :
    dispatchWord (clearIgnored w) s = dispatchWord w s := by
  simp only [dispatchWord, hs, opcField_clearIgnored]
  split
  case h_2 hop =>
    obtain ⟨hunit, -, hnote⟩ := operands_clearIgnored (.inl hop)
    rw [hunit, hnote]
  case h_3 hop =>
    obtain ⟨hunit, -, hnote⟩ := operands_clearIgnored (.inr hop)
    rw [hunit, hnote]
  case h_4 hop => rw [addrField_clearIgnored (.inl hop)]
  case h_5 hop => rw [addrField_clearIgnored (.inr hop)]
  all_goals rfl

/-- Settles O2: neither the decoder nor the dispatch sees a bit that its format ignores. -/
theorem ignoredBitsChangeNothing : Obligations.IgnoredBitsChangeNothing :=
  fun w rest => ⟨(decode_clearIgnored w rest).symm,
    fun _ hs => (dispatchWord_clearIgnored w hs).symm⟩

end Sys2Proof.Machine

/-! The assembler (30_encoding.md R86 to R88): it refuses a source command exactly where an operand
exceeds its limit, and otherwise writes the fields side by side. -/

namespace Sys2Proof

/-! ## What is refused (R86) -/

/-- A source command is refused exactly if it exceeds one of the limits. -/
theorem assembleCmd_refused_iff (c : Cmd) :
    (∃ e, assembleCmd c = .error e) ↔ c.error ≠ none := by
  unfold assembleCmd
  cases c.error with
  | some e => simp
  | none => cases c <;> simp

theorem noteOperandsError_eq_none_iff (u n : Nat) (vel : Option Nat) :
    noteOperandsError u n vel = none ↔ u ≤ 15 ∧ n ≤ 127 ∧ velOperand vel ≤ 127 := by
  have hvel : vel.any (fun v => decide (127 < v)) = true ↔ 127 < velOperand vel := by
    cases vel <;> simp [velOperand]
  simp only [noteOperandsError, hvel]
  split_ifs <;> simp only [false_iff, true_iff] <;> omega

theorem addrError_eq_none_iff (a : Nat) : addrError a = none ↔ a ≤ 0xFFF := by
  unfold addrError
  split_ifs <;> simp only [false_iff, true_iff] <;> omega

theorem assembleCmd_noteOn_refused_iff (u n : Nat) (vel : Option Nat) :
    (∃ e, assembleCmd (.noteOn u n vel) = .error e) ↔ (15 < u ∨ 127 < n ∨ 127 < velOperand vel) := by
  rw [assembleCmd_refused_iff, Cmd.error, ne_eq, noteOperandsError_eq_none_iff]
  omega

theorem assembleCmd_noteOff_refused_iff (u n : Nat) (vel : Option Nat) :
    (∃ e, assembleCmd (.noteOff u n vel) = .error e) ↔
      (15 < u ∨ 127 < n ∨ 127 < velOperand vel) := by
  rw [assembleCmd_refused_iff, Cmd.error, ne_eq, noteOperandsError_eq_none_iff]
  omega

theorem assembleCmd_write_refused_iff (a : Nat) (d : Word) :
    (∃ e, assembleCmd (.write a d) = .error e) ↔ 0xFFF < a := by
  rw [assembleCmd_refused_iff, Cmd.error, ne_eq, addrError_eq_none_iff, not_le]

theorem assembleCmd_read_refused_iff (a : Nat) :
    (∃ e, assembleCmd (.read a) = .error e) ↔ 0xFFF < a := by
  rw [assembleCmd_refused_iff, Cmd.error, ne_eq, addrError_eq_none_iff, not_le]

/-! ## What is written (R86): the fields, each shifted to its place -/

/-- Format N as R86's table writes it. -/
theorem encodeN_ofNat (o : BitVec 4) {u v n : Nat} (hu : u ≤ 15) (hv : v ≤ 127) (hn : n ≤ 127) :
    encodeN o (BitVec.ofNat 4 u) (BitVec.ofNat 7 v) (BitVec.ofNat 7 n) =
      BitVec.ofNat 32 (o.toNat <<< 28 ||| u <<< 24 ||| v <<< 8 ||| n) := by
  apply BitVec.eq_of_toNat_eq
  have hbound : o.toNat <<< 28 ||| u <<< 24 ||| v <<< 8 ||| n < 2 ^ 32 := by
    refine Nat.or_lt_two_pow (Nat.or_lt_two_pow (Nat.or_lt_two_pow ?_ ?_) ?_) ?_ <;> omega
  rw [BitVec.toNat_ofNat, Nat.mod_eq_of_lt hbound]
  simp only [encodeN, BitVec.toNat_append, BitVec.toNat_ofNat, Nat.shiftLeft_or_distrib,
    ← Nat.shiftLeft_add, Nat.zero_mod, Nat.or_zero]
  rw [Nat.mod_eq_of_lt (by omega : u < 2 ^ 4), Nat.mod_eq_of_lt (by omega : v < 2 ^ 7),
    Nat.mod_eq_of_lt (by omega : n < 2 ^ 7)]

/-- Format A as R86's table writes it. -/
theorem encodeA_ofNat (o : BitVec 4) {a : Nat} (ha : a ≤ 0xFFF) :
    encodeA o (BitVec.ofNat 12 a) = BitVec.ofNat 32 (o.toNat <<< 28 ||| a) := by
  apply BitVec.eq_of_toNat_eq
  have hbound : o.toNat <<< 28 ||| a < 2 ^ 32 := by
    refine Nat.or_lt_two_pow ?_ ?_ <;> omega
  rw [BitVec.toNat_ofNat, Nat.mod_eq_of_lt hbound]
  simp only [encodeA, BitVec.toNat_append, BitVec.toNat_ofNat, ← Nat.shiftLeft_add, Nat.zero_mod,
    Nat.or_zero]
  rw [Nat.mod_eq_of_lt (by omega : a < 2 ^ 12)]

theorem assembleCmd_noteOn {u n : Nat} {vel : Option Nat} (hu : u ≤ 15) (hn : n ≤ 127)
    (hv : velOperand vel ≤ 127) : assembleCmd (.noteOn u n vel) =
      .ok [BitVec.ofNat 32 (0x20000000 ||| u <<< 24 ||| velOperand vel <<< 8 ||| n)] := by
  have herror : (Cmd.noteOn u n vel).error = none :=
    (noteOperandsError_eq_none_iff u n vel).mpr ⟨hu, hn, hv⟩
  simp only [assembleCmd, herror, encode, encodeN_ofNat _ hu hv hn]
  rfl

theorem assembleCmd_noteOff {u n : Nat} {vel : Option Nat} (hu : u ≤ 15) (hn : n ≤ 127)
    (hv : velOperand vel ≤ 127) : assembleCmd (.noteOff u n vel) =
      .ok [BitVec.ofNat 32 (0x30000000 ||| u <<< 24 ||| velOperand vel <<< 8 ||| n)] := by
  have herror : (Cmd.noteOff u n vel).error = none :=
    (noteOperandsError_eq_none_iff u n vel).mpr ⟨hu, hn, hv⟩
  simp only [assembleCmd, herror, encode, encodeN_ofNat _ hu hv hn]
  rfl

theorem assembleCmd_write {a : Nat} (ha : a ≤ 0xFFF) (d : Word) :
    assembleCmd (.write a d) = .ok [BitVec.ofNat 32 (0x40000000 ||| a), d] := by
  have herror : (Cmd.write a d).error = none := (addrError_eq_none_iff a).mpr ha
  simp only [assembleCmd, herror, encode, encodeA_ofNat _ ha]
  rfl

theorem assembleCmd_read {a : Nat} (ha : a ≤ 0xFFF) :
    assembleCmd (.read a) = .ok [BitVec.ofNat 32 (0x50000000 ||| a)] := by
  have herror : (Cmd.read a).error = none := (addrError_eq_none_iff a).mpr ha
  simp only [assembleCmd, herror, encode, encodeA_ofNat _ ha]
  rfl

/-- Settles O6: the refusals, then the words, for each row of R86's table; a velocity that is not
written is 0. -/
theorem assemblerFollowsItsTable : Obligations.AssemblerFollowsItsTable := by
  refine ⟨rfl, rfl, fun _ => rfl, fun u n v => ⟨?_, ?_, fun hu hn hv => ⟨?_, ?_⟩⟩,
    fun u n => ⟨?_, ?_, fun hu hn => ⟨?_, ?_⟩⟩, fun a d => ⟨?_, ?_, fun ha => ⟨?_, ?_⟩⟩,
    rfl, rfl, rfl, rfl, rfl⟩
  · exact assembleCmd_noteOn_refused_iff u n (some v)
  · exact assembleCmd_noteOff_refused_iff u n (some v)
  · exact assembleCmd_noteOn (vel := some v) hu hn hv
  · exact assembleCmd_noteOff (vel := some v) hu hn hv
  · simpa [velOperand] using assembleCmd_noteOn_refused_iff u n none
  · simpa [velOperand] using assembleCmd_noteOff_refused_iff u n none
  · simpa [velOperand] using assembleCmd_noteOn (vel := none) hu hn (Nat.zero_le _)
  · simpa [velOperand] using assembleCmd_noteOff (vel := none) hu hn (Nat.zero_le _)
  · exact assembleCmd_write_refused_iff a d
  · exact assembleCmd_read_refused_iff a
  · exact assembleCmd_write ha d
  · exact assembleCmd_read ha

/-- Settles O4: the seven rows of R88, each assembled and decoded by the model. -/
theorem workedEncodings : Obligations.WorkedEncodings := by
  unfold Obligations.WorkedEncodings
  decide

/-! ## Pseudo-commands (R87) -/

theorem assemble_cons {c : Cmd} {cs : List Cmd} {ws rest : List Word} (hc : assembleCmd c = .ok ws)
    (hcs : assemble cs = .ok rest) : assemble (c :: cs) = .ok (ws ++ rest) := by
  simp only [assemble, hc, hcs]

theorem assemble_ticks (n : Nat) :
    assemble (List.replicate n .tick) = .ok (List.replicate n 0x10000000#32) := by
  induction n with
  | zero => rfl
  | succ n ih => exact assemble_cons (c := .tick) (ws := [0x10000000#32]) rfl ih

/-- The address shares no bit with the opcode, so the header word is their sum. -/
theorem assemble_write_cons {a k : Nat} (ha : a ≤ 0xFFF) (hk : k = 0x40000000 + a) (d : Word)
    {cs : List Cmd} {rest : List Word} (hcs : assemble cs = .ok rest) :
    assemble (.write a d :: cs) = .ok (BitVec.ofNat 32 k :: d :: rest) := by
  have hsum : 0x40000000 + a = 0x40000000 ||| a :=
    Nat.two_pow_add_eq_or_of_lt (i := 30) (by omega) 1
  rw [hk, hsum]
  exact assemble_cons (assembleCmd_write ha d) hcs

theorem assemble_writeBank_cons {b : Nat} (hb : b < 8) (q : BankReg) (d : Word) {cs : List Cmd}
    {rest : List Word} (hcs : assemble cs = .ok rest) :
    assemble (.write (Reg.bank b q).addr d :: cs) =
      .ok (BitVec.ofNat 32 (0x40000100 + q.offset + 0x100 * b) :: d :: rest) := by
  have hq := q.offset_lt
  exact assemble_write_cons (by simp only [Reg.addr]; omega) (by simp only [Reg.addr]; omega) d hcs

theorem assemble_writeHat_cons {h : Nat} (hh : h < 8) (q : HatReg) (d : Word) {cs : List Cmd}
    {rest : List Word} (hcs : assemble cs = .ok rest) :
    assemble (.write (Reg.hat h q).addr d :: cs) =
      .ok (BitVec.ofNat 32 (0x40000900 + q.offset + 0x20 * h) :: d :: rest) := by
  have hq := q.offset_lt
  exact assemble_write_cons (by simp only [Reg.addr]; omega) (by simp only [Reg.addr]; omega) d hcs

theorem assemble_writeRoute {s : Nat} (hs : s < 31) (d : Word) :
    assemble [.write (Reg.route s).addr d] = .ok [BitVec.ofNat 32 (0x40000A00 + s), d] :=
  assemble_write_cons (by simp only [Reg.addr]; omega) (by simp only [Reg.addr]; omega) d rfl

/-- Settles O7: TICKS by induction on the count, the others write by write. -/
theorem pseudoCommandsExpand : Obligations.PseudoCommandsExpand := by
  refine ⟨assemble_ticks, fun b a d s r w hb => ⟨?_, ?_⟩, fun s c hs => ⟨?_, ?_⟩,
    fun h b0 b1 b2 a1 a2 note n hh => ⟨?_, ?_⟩⟩
  · exact assemble_writeBank_cons hb .attackN a <| assemble_writeBank_cons hb .decayN d <|
      assemble_writeBank_cons hb .sustain s <| assemble_writeBank_cons hb .releaseN r rfl
  · exact assemble_writeBank_cons hb .wave w rfl
  · exact assemble_writeRoute hs c
  · exact assemble_writeRoute hs 0x100#32
  · exact assemble_writeHat_cons hh .b0 b0 <| assemble_writeHat_cons hh .b1 b1 <|
      assemble_writeHat_cons hh .b2 b2 <| assemble_writeHat_cons hh .a1 a1 <|
      assemble_writeHat_cons hh .a2 a2 rfl
  · exact assemble_writeHat_cons hh .trigNote note <| assemble_writeHat_cons hh .hdecayN n rfl

end Sys2Proof

/-! The statement about TICK on the voices (42_voice_bank.md R156): one lemma for an Idle voice, one for
each field of any other, and the frame of a TICK. -/

namespace Sys2Proof.Machine

/-! ## A voice in a TICK (R156) -/

@[simp] theorem Voice.tick_of_idle {inc : List Word} {dn : BitVec 24} {sus : Word} {x : Voice}
    (h : x.env.stage = .idle) : x.tick inc dn sus = x := if_pos h

theorem Voice.tick_of_not_idle {inc : List Word} {dn : BitVec 24} {sus : Word} {x : Voice}
    (h : x.env.stage ≠ .idle) :
    x.tick inc dn sus = Voice.envTick dn sus { x with phase := x.nextPhase inc } := if_neg h

/-- An envelope tick ticks the envelope and leaves the phase and the time stamp. -/
theorem Voice.envTick_fields (dn : BitVec 24) (sus : Word) (x : Voice) :
    (x.envTick dn sus).env = x.env.voiceTick dn sus ∧ (x.envTick dn sus).phase = x.phase ∧
    (x.envTick dn sus).ts = x.ts := by
  unfold Voice.envTick
  dsimp only
  split <;> exact ⟨rfl, rfl, rfl⟩

/-- R125: a voice that enters Idle drops its note. -/
theorem Voice.envTick_note_of_idle {dn : BitVec 24} {sus : Word} {x : Voice}
    (h : (x.env.voiceTick dn sus).stage = .idle) :
    (x.envTick dn sus).nv = false ∧ (x.envTick dn sus).note = 0 := by
  simp [Voice.envTick, h]

theorem Voice.envTick_note_of_not_idle {dn : BitVec 24} {sus : Word} {x : Voice}
    (h : (x.env.voiceTick dn sus).stage ≠ .idle) :
    (x.envTick dn sus).nv = x.nv ∧ (x.envTick dn sus).note = x.note := by
  simp [Voice.envTick, h]

/-- Legal parameters have an increment for every note (R5). -/
theorem noteInc_getElem?_of_legal {p : Config.Params} (hp : p.legal) (n : BitVec 7) :
    ∃ inc, p.noteInc[n.toNat]? = some inc := by
  obtain ⟨-, -, -, -, -, hlen, -⟩ := hp
  exact ⟨_, List.getElem?_eq_getElem (hlen ▸ n.isLt)⟩

/-- R100: the phase advances by the note's increment, modulo 2^32. -/
theorem Voice.nextPhase_toNat {noteInc : List Word} {x : Voice} {inc : Word}
    (h : noteInc[x.note.toNat]? = some inc) :
    (x.nextPhase noteInc).toNat = (x.phase.toNat + inc.toNat) % 2 ^ 32 := by
  rw [Voice.nextPhase, List.getD_eq_getElem?_getD, h, Option.getD_some, BitVec.toNat_add]

/-! ## The state after a TICK -/

@[simp] theorem tickState_banks (s : State) :
    (tickState s).banks = s.banks.map (Bank.tick s.cfg.noteInc) := rfl
@[simp] theorem tickState_hats (s : State) : (tickState s).hats = s.hats.map Hat.tick := rfl

/-- What a TICK leaves: everything but the units, the output and the model's port schedule. -/
theorem tickState_frame (s : State) :
    tickState s = { s with
      banks := (tickState s).banks, hats := (tickState s).hats, outlast := (tickState s).outlast,
      frames := (tickState s).frames, extIn := s.extIn.tail, tickNo := s.tickNo + 1 } := rfl

/-- Settles O35: bank by bank and voice by voice, a voice being Idle (`Voice.tick_of_idle`) or not. -/
theorem tickAdvancesVoices : Obligations.TickAdvancesVoices := by
  intro s hs
  obtain ⟨hlegal, -⟩ := hs
  refine ⟨tickState s, rfl, tickState_frame s, by simp, by simp, fun b bk hb => ?_⟩
  refine ⟨bk.tick s.cfg.noteInc, by simp [hb], rfl, by simp, fun v x hv => ?_⟩
  refine ⟨x.tick s.cfg.noteInc bk.decayN bk.sustain, by simp [hv], Voice.tick_of_idle,
    fun hne => ?_⟩
  obtain ⟨inc, hinc⟩ := noteInc_getElem?_of_legal hlegal x.note
  rw [Voice.tick_of_not_idle hne]
  obtain ⟨henv, hphase, hts⟩ :=
    Voice.envTick_fields bk.decayN bk.sustain { x with phase := x.nextPhase s.cfg.noteInc }
  refine ⟨inc, hinc, ?_, hts, henv, fun hidle => ?_, fun hrun => ?_⟩
  · rw [hphase, Voice.nextPhase_toNat hinc]
  · exact Voice.envTick_note_of_idle (by rwa [henv] at hidle)
  · exact Voice.envTick_note_of_not_idle (by rwa [henv] at hrun)

end Sys2Proof.Machine

/-! The statements about the waveforms (40_waveform.md R103 to R109): each waveform once as arithmetic
on the phase's number, and the sine table against the real sine. -/

namespace Sys2Proof.Machine

/-! ## The selector (R103) -/

theorem wave_zero (p : Word) : wave 0 p = waveSine p := by simp [wave]
theorem wave_one (p : Word) : wave 1 p = waveTriangle p := by simp [wave]
theorem wave_two (p : Word) : wave 2 p = waveSawtooth p := by simp [wave]
theorem wave_three (p : Word) : wave 3 p = waveSquare p := by simp [wave]

/-! ## Triangle, sawtooth and square (R106 to R108) -/

/-- Floor division of a number that is not negative is that of ℕ. -/
theorem fdivPow2_natCast (n k : Nat) : fdivPow2 n k = (n / 2 ^ k : Nat) := by
  simp [fdivPow2]

/-- R106: the triangle rises, falls and rises; its quarters end at 2^30 and 3 · 2^30. -/
theorem waveTriangle_pieces (p : Word) :
    (p.toNat < 2 ^ 30 → waveTriangle p = (p.toNat / 2 ^ 7 : Nat)) ∧
    (2 ^ 30 ≤ p.toNat → p.toNat < 3 * 2 ^ 30 → waveTriangle p = 2 ^ 24 - (p.toNat / 2 ^ 7 : Nat)) ∧
    (3 * 2 ^ 30 ≤ p.toNat → waveTriangle p = (p.toNat / 2 ^ 7 : Nat) - 2 ^ 25) := by
  unfold waveTriangle
  simp only [fdivPow2_natCast]
  refine ⟨fun hrise => ?_, fun hlo hhi => ?_, fun hlast => ?_⟩
  · rw [if_pos (by omega)]
  · rw [if_neg (by omega), if_pos (by omega)]
  · rw [if_neg (by omega), if_neg (by omega)]

/-- R107: the sawtooth. -/
theorem waveSawtooth_eq (p : Word) : waveSawtooth p = (p.toNat / 2 ^ 8 : Nat) - 2 ^ 23 := by
  rw [waveSawtooth, fdivPow2_natCast]

/-- Settles O32: `abs_wave_le`, and the selector's waveforms piece by piece. -/
theorem waveIsBounded : Obligations.WaveIsBounded := by
  refine ⟨fun w p => abs_le.mp (abs_wave_le w p), fun p => ?_⟩
  obtain ⟨hrise, hfall, hlast⟩ := waveTriangle_pieces p
  rw [wave_one, wave_two, wave_three]
  exact ⟨hrise, hfall, hlast, waveSawtooth_eq p, fun hlow => if_pos hlow,
    fun hhigh => if_neg hhigh.not_gt⟩

/-! ## The sine between the table's entries (R104) -/

/-- R104 in terms of the phase's number: P[31:22] is its quotient by 2^22, P[21:0] its remainder. -/
theorem waveSine_eq (p : Word) :
    waveSine p = sineTable (p.toNat / 2 ^ 22) +
      (sineTable (p.toNat / 2 ^ 22 + 1) - sineTable (p.toNat / 2 ^ 22)) *
        (p.toNat % 2 ^ 22 : Nat) / 2 ^ 22 := by
  have hindex : (p.extractLsb' 22 10).toNat = p.toNat / 2 ^ 22 := by
    rw [BitVec.extractLsb'_toNat, Nat.shiftRight_eq_div_pow]
    have := p.isLt
    omega
  have hfrac : (p.extractLsb' 0 22).toNat = p.toNat % 2 ^ 22 := by
    rw [BitVec.extractLsb'_toNat, Nat.shiftRight_zero]
  unfold waveSine fdivPow2
  dsimp only
  rw [hindex, hfrac]

/-- Interpolation by floor division stays between its two ends. -/
theorem interpolate_between (y z : Int) {f : Nat} (hf : f ≤ 2 ^ 22) :
    min y z ≤ y + (z - y) * f / 2 ^ 22 ∧ y + (z - y) * f / 2 ^ 22 ≤ max y z := by
  have hf' : (f : Int) ≤ 2 ^ 22 := by exact_mod_cast hf
  have hbetween : min 0 (z - y) ≤ (z - y) * f / 2 ^ 22 ∧ (z - y) * f / 2 ^ 22 ≤ max 0 (z - y) := by
    rcases le_total 0 (z - y) with h | h
    · rw [min_eq_left h, max_eq_right h]
      exact fdivPow2_bounds (k := 22) (by nlinarith) (by nlinarith)
    · rw [min_eq_right h, max_eq_left h]
      exact fdivPow2_bounds (k := 22) (by nlinarith) (by nlinarith)
  omega

/-- At a phase of the table the sine is the table's entry. -/
theorem waveSine_of_table_phase {k : Nat} (hk : k < 1024) :
    waveSine (BitVec.ofNat 32 (k * 2 ^ 22)) = sineTable k := by
  have hphase : (BitVec.ofNat 32 (k * 2 ^ 22)).toNat = k * 2 ^ 22 := by
    rw [BitVec.toNat_ofNat]
    omega
  rw [waveSine_eq, hphase, Nat.mul_mod_left, Nat.mul_div_cancel _ (by decide)]
  simp

/-! ## The table's symmetry (R105) -/

theorem sineTable_of_le {k : Nat} (hk : k ≤ 256) : sineTable k = sineQuarter.getD k 0 := by
  unfold sineTable
  dsimp only
  rw [if_pos (by omega), if_pos (by omega), Nat.mod_eq_of_lt (by omega)]

/-- The second quarter is the first one backwards. -/
theorem sineTable_sub {k : Nat} (hk : k ≤ 256) : sineTable (512 - k) = sineTable k := by
  rcases Nat.eq_zero_or_pos k with rfl | hpos
  · decide
  rcases hk.eq_or_lt with rfl | hlt
  · rfl
  rw [sineTable_of_le hk]
  unfold sineTable
  dsimp only
  rw [if_pos (by omega), Nat.mod_eq_of_lt (by omega), if_neg (by omega), Nat.sub_sub_self (by omega)]

/-- The second half is the first one negated. -/
theorem sineTable_add {k : Nat} (hk : k ≤ 512) : sineTable (k + 512) = -sineTable k := by
  rcases hk.eq_or_lt with rfl | hlt
  · decide
  unfold sineTable
  dsimp only
  rw [Nat.add_mod_right, if_neg (c := _ < 512) (by omega), if_pos (c := k % 1024 < 512) (by omega)]

/-! ## The unit vector at the table's angle

The sine of `k` table angles is the imaginary part of the `k`-th power of a unit vector. An exact power
of a Gaussian integer stands in for it: the error grows only linearly in `k`, so for the 257 entries of
the quarter table it stays below what the closest of them leaves to a tie. -/

/-- The angle between two entries of the table. -/
noncomputable def tableAngle : ℝ := Real.pi / 512

/-- The length that the unit vector has in `tableStep`. -/
def tableScale : ℕ := 10 ^ 14

/-- The unit vector at the table's angle, `tableScale` times as long and rounded down. -/
def tableStep : GaussianInt := ⟨99998117528260, 613588464915⟩

/-- `tableStep` as a complex number of length about 1. -/
noncomputable def tableTurn : ℂ := GaussianInt.toComplex tableStep / tableScale

theorem tableTurn_pow (k : ℕ) :
    tableTurn ^ k = GaussianInt.toComplex (tableStep ^ k) / (tableScale ^ k : ℕ) := by
  rw [tableTurn, div_pow, map_pow, Nat.cast_pow]

theorem tableTurn_pow_im (k : ℕ) :
    (tableTurn ^ k).im = (tableStep ^ k).im / (tableScale : ℝ) ^ k := by
  rw [tableTurn_pow, Complex.div_natCast_im, ← GaussianInt.intCast_im, Nat.cast_pow]

theorem tableTurn_re : tableTurn.re = 99998117528260 / 10 ^ 14 := by
  rw [tableTurn, Complex.div_natCast_re, ← GaussianInt.intCast_re]
  norm_num [tableStep, tableScale]

theorem tableTurn_im : tableTurn.im = 613588464915 / 10 ^ 14 := by
  rw [tableTurn, Complex.div_natCast_im, ← GaussianInt.intCast_im]
  norm_num [tableStep, tableScale]

theorem norm_tableTurn_le : ‖tableTurn‖ ≤ 1 := by
  rw [Complex.norm_def, Complex.normSq_apply, tableTurn_re, tableTurn_im]
  exact Real.sqrt_le_one.mpr (by norm_num)

/-- The Taylor polynomial of degree 5 of the unit vector at the angle `x`. -/
noncomputable def unitTaylor (x : ℝ) : ℂ := ⟨1 - x ^ 2 / 2 + x ^ 4 / 24, x - x ^ 3 / 6 + x ^ 5 / 120⟩

theorem norm_unitTaylor_sub_exp_le {x : ℝ} (h0 : 0 ≤ x) (h1 : x ≤ 1) :
    ‖unitTaylor x - Complex.exp (x * Complex.I)‖ ≤ x ^ 6 / 600 := by
  have hnorm : ‖(x * Complex.I : ℂ)‖ = x := by simp [abs_of_nonneg h0]
  have hsum : (∑ m ∈ Finset.range 6, (x * Complex.I) ^ m / m.factorial : ℂ) = unitTaylor x := by
    apply Complex.ext <;> simp [unitTaylor, Finset.sum_range_succ, Nat.factorial, pow_succ] <;> ring
  have hbound := Complex.exp_bound (hnorm.trans_le h1) (n := 6) (by decide)
  rw [hsum, hnorm, norm_sub_rev] at hbound
  refine hbound.trans ?_
  rw [div_eq_mul_inv]
  gcongr
  norm_num [Nat.factorial]

theorem tableAngle_pow_bounds (n : ℕ) :
    0.00613592315154256 ^ n ≤ tableAngle ^ n ∧ tableAngle ^ n ≤ 0.00613592315154257 ^ n := by
  have hlo : 0.00613592315154256 ≤ tableAngle := by
    unfold tableAngle
    linarith [Real.pi_gt_d20]
  have hhi : tableAngle ≤ 0.00613592315154257 := by
    unfold tableAngle
    linarith [Real.pi_lt_d20]
  exact ⟨by gcongr, by gcongr⟩

theorem norm_tableTurn_sub_unitTaylor_le :
    ‖tableTurn - unitTaylor tableAngle‖ ≤ 2 / 10 ^ 14 := by
  obtain ⟨hlo1, hhi1⟩ := tableAngle_pow_bounds 1
  obtain ⟨hlo2, hhi2⟩ := tableAngle_pow_bounds 2
  obtain ⟨hlo3, hhi3⟩ := tableAngle_pow_bounds 3
  obtain ⟨hlo4, hhi4⟩ := tableAngle_pow_bounds 4
  obtain ⟨hlo5, hhi5⟩ := tableAngle_pow_bounds 5
  have hre : |(tableTurn - unitTaylor tableAngle).re| ≤ 1 / 10 ^ 14 := by
    rw [Complex.sub_re, tableTurn_re, unitTaylor, abs_le]
    constructor <;> linarith
  have him : |(tableTurn - unitTaylor tableAngle).im| ≤ 1 / 10 ^ 14 := by
    rw [Complex.sub_im, tableTurn_im, unitTaylor, abs_le]
    constructor <;> linarith
  linarith [Complex.norm_le_abs_re_add_abs_im (tableTurn - unitTaylor tableAngle)]

/-- `tableTurn` is the unit vector at the table's angle, within 10^-13. -/
theorem norm_tableTurn_sub_exp_le :
    ‖tableTurn - Complex.exp (tableAngle * Complex.I)‖ ≤ 1 / 10 ^ 13 := by
  obtain ⟨hlo, hhi⟩ := tableAngle_pow_bounds 1
  obtain ⟨-, hhi6⟩ := tableAngle_pow_bounds 6
  have hstep := norm_tableTurn_sub_unitTaylor_le
  have htaylor := norm_unitTaylor_sub_exp_le (x := tableAngle) (by linarith) (by linarith)
  have htriangle := norm_sub_le_norm_sub_add_norm_sub tableTurn (unitTaylor tableAngle)
    (Complex.exp (tableAngle * Complex.I))
  linarith

/-- Powers of two vectors of the unit disc part at most as fast as their exponent grows. -/
theorem norm_pow_sub_pow_le {a b : ℂ} (ha : ‖a‖ ≤ 1) (hb : ‖b‖ ≤ 1) (k : ℕ) :
    ‖a ^ k - b ^ k‖ ≤ k * ‖a - b‖ := by
  induction k with
  | zero => simp
  | succ k ih =>
    have hpow : ‖b ^ k‖ ≤ 1 := by simpa using pow_le_one₀ (norm_nonneg b) hb
    calc ‖a ^ (k + 1) - b ^ (k + 1)‖ = ‖a * (a ^ k - b ^ k) + (a - b) * b ^ k‖ := by
          congr 1; ring
      _ ≤ ‖a‖ * ‖a ^ k - b ^ k‖ + ‖a - b‖ * ‖b ^ k‖ := by
          simpa only [norm_mul] using norm_add_le (a * (a ^ k - b ^ k)) ((a - b) * b ^ k)
      _ ≤ 1 * (k * ‖a - b‖) + ‖a - b‖ * 1 := by gcongr
      _ = (k + 1 : ℕ) * ‖a - b‖ := by push_cast; ring

/-- The sine of `k` table angles, from the `k`-th power of `tableTurn`. -/
theorem abs_tableTurn_pow_im_sub_sin_le (k : ℕ) :
    |(tableTurn ^ k).im - Real.sin (k * tableAngle)| ≤ k / 10 ^ 13 := by
  have hsin : (Complex.exp (tableAngle * Complex.I) ^ k).im = Real.sin (k * tableAngle) := by
    rw [← Complex.exp_nat_mul, ← mul_assoc, ← Complex.ofReal_natCast, ← Complex.ofReal_mul,
      Complex.exp_ofReal_mul_I_im]
  rw [← hsin, ← Complex.sub_im]
  calc _ ≤ ‖tableTurn ^ k - Complex.exp (tableAngle * Complex.I) ^ k‖ := Complex.abs_im_le_norm _
    _ ≤ k * ‖tableTurn - Complex.exp (tableAngle * Complex.I)‖ :=
      norm_pow_sub_pow_le norm_tableTurn_le (Complex.norm_exp_ofReal_mul_I _).le k
    _ ≤ k * (1 / 10 ^ 13) := by gcongr; exact norm_tableTurn_sub_exp_le
    _ = k / 10 ^ 13 := by ring

/-! ## The table is the rounded sine (R105) -/

/-- The quarter table against the powers of `tableStep`, in integers: half a unit less 2^-11, which is
room for the error of `tableTurn`. -/
theorem sineQuarter_near_tableStep_pow : ∀ k < 257,
    2 ^ 11 * |sineQuarter.getD k 0 * (tableScale : ℤ) ^ k - 2 ^ 23 * (tableStep ^ k).im| ≤
      1023 * (tableScale : ℤ) ^ k := by
  decide +kernel

theorem abs_sineTable_sub_tableTurn_pow_im_le {k : ℕ} (hk : k ≤ 256) :
    |(sineTable k : ℝ) - 2 ^ 23 * (tableTurn ^ k).im| ≤ 1023 / 2 ^ 11 := by
  have hcheck := sineQuarter_near_tableStep_pow k (by omega)
  rw [← sineTable_of_le hk] at hcheck
  have hreal : 2 ^ 11 * |(sineTable k : ℝ) * (tableScale : ℝ) ^ k - 2 ^ 23 * (tableStep ^ k).im| ≤
      1023 * (tableScale : ℝ) ^ k := by exact_mod_cast hcheck
  have hscale : 0 < (tableScale : ℝ) ^ k := by unfold tableScale; positivity
  have hsplit : (sineTable k : ℝ) * (tableScale : ℝ) ^ k - 2 ^ 23 * (tableStep ^ k).im =
      ((sineTable k : ℝ) - 2 ^ 23 * (tableTurn ^ k).im) * (tableScale : ℝ) ^ k := by
    rw [tableTurn_pow_im]
    field_simp
  rw [hsplit, abs_mul, abs_of_pos hscale, ← mul_assoc] at hreal
  exact (le_div_iff₀' (by norm_num)).mpr (le_of_mul_le_mul_right hreal hscale)

/-- Entry `k` of the table is within less than half a unit of the sine of `k` table angles. -/
def SineRounded (k : ℕ) : Prop := |(sineTable k : ℝ) - 2 ^ 23 * Real.sin (k * tableAngle)| < 1 / 2

/-- The first quarter: entry and sine are both close to the power of `tableTurn`. -/
theorem sineRounded_of_le {k : ℕ} (hk : k ≤ 256) : SineRounded k := by
  have hentry := abs_le.mp (abs_sineTable_sub_tableTurn_pow_im_le hk)
  have hsine := abs_le.mp (abs_tableTurn_pow_im_sub_sin_le k)
  have hk' : (k : ℝ) ≤ 256 := by exact_mod_cast hk
  exact abs_lt.mpr ⟨by linarith, by linarith⟩

theorem SineRounded.sub {k : ℕ} (h : SineRounded k) (hk : k ≤ 256) : SineRounded (512 - k) := by
  have hangle : ((512 - k : ℕ) : ℝ) * tableAngle = Real.pi - k * tableAngle := by
    rw [Nat.cast_sub (by omega), tableAngle]
    push_cast
    ring
  rwa [SineRounded, sineTable_sub hk, hangle, Real.sin_pi_sub]

theorem SineRounded.add {k : ℕ} (h : SineRounded k) (hk : k ≤ 512) : SineRounded (k + 512) := by
  have hangle : ((k + 512 : ℕ) : ℝ) * tableAngle = k * tableAngle + Real.pi := by
    rw [tableAngle]
    push_cast
    ring
  rw [SineRounded, sineTable_add hk, hangle, Real.sin_add_pi, Int.cast_neg, mul_neg, ← neg_sub',
    abs_neg]
  exact h

/-- The first half, its second quarter mirrored. -/
theorem sineRounded_of_le_half {k : ℕ} (hk : k ≤ 512) : SineRounded k := by
  rcases le_total k 256 with hfirst | hsecond
  · exact sineRounded_of_le hfirst
  · have := (sineRounded_of_le (k := 512 - k) (by omega)).sub (by omega)
    rwa [Nat.sub_sub_self hk] at this

/-- Every entry, the second half being the first one negated. -/
theorem sineRounded {k : ℕ} (hk : k ≤ 1024) : SineRounded k := by
  rcases le_total k 512 with hfirst | hsecond
  · exact sineRounded_of_le_half hfirst
  · have := (sineRounded_of_le_half (k := k - 512) (by omega)).add (by omega)
    rwa [Nat.sub_add_cancel hsecond] at this

/-- Settles O33: the table by `sineRounded`, the sine between its entries by `interpolate_between`. -/
theorem sineLiesBetweenEntries : Obligations.SineLiesBetweenEntries := by
  refine ⟨fun k hk => ?_, fun p => ?_, fun k hk => ?_⟩
  · have hangle : 2 * Real.pi * k / 1024 = k * tableAngle := by
      rw [tableAngle]
      ring
    rw [hangle]
    exact sineRounded hk
  · rw [wave_zero]
    have hle : p.toNat % 2 ^ 22 ≤ 2 ^ 22 := (Nat.mod_lt _ (by decide)).le
    rw [waveSine_eq]
    exact ⟨rfl, interpolate_between _ _ hle⟩
  · rw [wave_zero, waveSine_of_table_phase hk]

end Sys2Proof.Machine

/-! The statements about the envelope alone (41_envelope.md): the tick of each stage once as an equation,
the step of a ramp in arithmetic terms, and a ramp from its entry to its end. -/

namespace Sys2Proof.Machine

/-! ## The tick of each stage (R127, R128) -/

/-- The stages in which a ramp runs (R120). -/
abbrev Env.Ramping (e : Env) : Prop := e.stage = .attack ∨ e.stage = .decay ∨ e.stage = .release

theorem Env.not_ramping_iff (e : Env) : ¬ e.Ramping ↔ e.stage = .idle ∨ e.stage = .sustain := by
  cases hs : e.stage <;> simp [Env.Ramping, hs]

section
variable {e : Env} (dn : BitVec 24) (sus : Word)

theorem Env.voiceTick_of_idle (h : e.stage = .idle) : e.voiceTick dn sus = e := by
  simp [Env.voiceTick, h]

theorem Env.voiceTick_of_sustain (h : e.stage = .sustain) :
    e.voiceTick dn sus = { e with level := sus } := by
  simp [Env.voiceTick, h]

/-- Before its last tick a ramp of any stage moves by its step. -/
theorem Env.voiceTick_of_running (h : e.Ramping) (hc : 2 ≤ e.cnt.toNat) :
    e.voiceTick dn sus = e.rampTick := by
  have hends : e.ends = false := decide_eq_false (by omega)
  rcases h with h | h | h <;> simp [Env.voiceTick, h, hends]

theorem Env.voiceTick_of_attack_last (h : e.stage = .attack) (hc : e.cnt.toNat ≤ 1) :
    e.voiceTick dn sus = e.snap.enterDecay sus dn := by
  simp [Env.voiceTick, h, Env.ends, hc]

theorem Env.voiceTick_of_decay_last (h : e.stage = .decay) (hc : e.cnt.toNat ≤ 1) :
    e.voiceTick dn sus = e.snap.enterSustain := by
  simp [Env.voiceTick, h, Env.ends, hc]

theorem Env.voiceTick_of_release_last (h : e.stage = .release) (hc : e.cnt.toNat ≤ 1) :
    e.voiceTick dn sus = Env.reset := by
  simp [Env.voiceTick, h, Env.ends, hc]

/-- In Release a lane's envelope ticks as a voice's does. -/
theorem Env.hatTick_of_release (h : e.stage = .release) : e.hatTick = e.voiceTick dn sus := by
  simp [Env.hatTick, Env.voiceTick, h]

theorem Env.hatTick_of_ne_release (h : e.stage ≠ .release) : e.hatTick = e := by
  unfold Env.hatTick
  split
  case h_5 hrel => exact absurd hrel h
  all_goals rfl

end

/-! ## Gate-off (R130) -/

theorem Env.gateOff_of_idle {e : Env} (h : e.stage = .idle) (n : BitVec 24) : e.gateOff n = e := by
  simp [Env.gateOff, h]

theorem Env.gateOff_of_release {e : Env} (h : e.stage = .release) (n : BitVec 24) :
    e.gateOff n = e := by
  simp [Env.gateOff, h]

theorem Env.gateOff_of_held {e : Env}
    (h : e.stage = .attack ∨ e.stage = .decay ∨ e.stage = .sustain) (n : BitVec 24) :
    e.gateOff n = e.enterRelease n := by
  rcases h with h | h | h <;> simp [Env.gateOff, h]

/-! ## Stage entries (R122 to R124) -/

section
variable (e : Env) (t : Word) (n : BitVec 24)

@[simp] theorem Env.enterAttack_stage : (e.enterAttack n).stage = .attack := rfl
@[simp] theorem Env.enterAttack_level : (e.enterAttack n).level = e.level := rfl
@[simp] theorem Env.enterAttack_tgt : (e.enterAttack n).tgt = full := rfl
@[simp] theorem Env.enterAttack_cnt : (e.enterAttack n).cnt = n := rfl
@[simp] theorem Env.enterDecay_stage : (e.enterDecay t n).stage = .decay := rfl
@[simp] theorem Env.enterDecay_level : (e.enterDecay t n).level = e.level := rfl
@[simp] theorem Env.enterDecay_tgt : (e.enterDecay t n).tgt = t := rfl
@[simp] theorem Env.enterDecay_cnt : (e.enterDecay t n).cnt = n := rfl
@[simp] theorem Env.enterRelease_stage : (e.enterRelease n).stage = .release := rfl
@[simp] theorem Env.enterRelease_level : (e.enterRelease n).level = e.level := rfl
@[simp] theorem Env.enterRelease_tgt : (e.enterRelease n).tgt = 0 := rfl
@[simp] theorem Env.enterRelease_cnt : (e.enterRelease n).cnt = n := rfl
@[simp] theorem Env.enterSustain_stage : e.enterSustain.stage = .sustain := rfl
@[simp] theorem Env.enterSustain_level : e.enterSustain.level = e.level := rfl

end

/-- Settles O28, stage by stage: what a tick does (`Env.voiceTick_of_running` and the last ticks), then
gate-off and the entries. -/
theorem stageTransitions : Obligations.StageTransitions := by
  intro e sus n dn
  have hrun : e.Ramping → ¬ e.cnt.toNat ≤ 1 → (e.voiceTick dn sus).stage = e.stage := by
    intro h hc
    rw [Env.voiceTick_of_running dn sus h (by omega), Env.rampTick_stage]
  refine ⟨fun h => ?_, fun h => ⟨?_, ?_⟩, fun h => ⟨?_, ?_⟩, fun h => ⟨?_, ?_⟩,
    fun h => ⟨?_, ?_⟩, rfl, rfl, rfl, full_toNat⟩
  · exact ⟨Env.voiceTick_of_idle dn sus h, Env.hatTick_of_ne_release (by simp [h]),
      Env.gateOff_of_idle h n⟩
  · split
    next hc => rw [Env.voiceTick_of_attack_last dn sus h hc, Env.enterDecay_stage]
    next hc => rw [hrun (.inl h) hc, h]
  · rw [Env.gateOff_of_held (.inl h)]
    exact ⟨rfl, rfl⟩
  · split
    next hc => rw [Env.voiceTick_of_decay_last dn sus h hc, Env.enterSustain_stage]
    next hc => rw [hrun (.inr (.inl h)) hc, h]
  · rw [Env.gateOff_of_held (.inr (.inl h))]
    exact ⟨rfl, rfl⟩
  · exact Env.voiceTick_of_sustain dn sus h
  · rw [Env.gateOff_of_held (.inr (.inr h))]
    exact ⟨rfl, rfl⟩
  · split
    next hc => rw [Env.voiceTick_of_release_last dn sus h hc]; rfl
    next hc => rw [hrun (.inr (.inr h)) hc, h]
  · exact ⟨Env.hatTick_of_release dn sus h, Env.gateOff_of_release h n⟩

/-! ## The step of a ramp (R121) -/

theorem rampStep_of_le {a b : Nat} (h : a ≤ b) (n : Nat) :
    rampStep ((b : Int) - a) n = if n ≤ 1 then 0 else (((b - a) / n : Nat) : Int) := by
  have habs : ((b : Int) - a).natAbs = b - a := by omega
  rw [rampStep, habs]
  rcases h.eq_or_lt with rfl | hlt
  · simp
  · have hneg : ¬ (b : Int) - a < 0 := by omega
    have hzero : ¬ (b : Int) - a = 0 := by omega
    rw [sgn, if_neg hneg, if_neg hzero, one_mul]

theorem rampStep_of_ge {a b : Nat} (h : b ≤ a) (n : Nat) :
    rampStep ((b : Int) - a) n = if n ≤ 1 then 0 else -(((a - b) / n : Nat) : Int) := by
  rw [← neg_sub, rampStep_neg, rampStep_of_le h]
  split <;> simp

/-- A rising ramp has a step of its distance div N. -/
theorem Env.enterRamp_step_of_le {e : Env} {t : Word} (n : BitVec 24) (h : e.level.toNat ≤ t.toNat)
    (ht : t.toNat ≤ 2 ^ 31) :
    (e.enterRamp t n).step.toInt =
      if n.toNat ≤ 1 then 0 else (((t.toNat - e.level.toNat) / n.toNat : Nat) : Int) :=
  (e.enterRamp_step t n (h.trans ht) ht).trans (rampStep_of_le h _)

/-- A falling ramp has a step of minus its distance div N. -/
theorem Env.enterRamp_step_of_ge {e : Env} {t : Word} (n : BitVec 24) (h : t.toNat ≤ e.level.toNat)
    (hl : e.level.toNat ≤ 2 ^ 31) :
    (e.enterRamp t n).step.toInt =
      if n.toNat ≤ 1 then 0 else -(((e.level.toNat - t.toNat) / n.toNat : Nat) : Int) :=
  (e.enterRamp_step t n hl (h.trans hl)).trans (rampStep_of_ge h _)

theorem Env.enterAttack_step {e : Env} (n : BitVec 24) (hl : e.level.toNat ≤ 2 ^ 31) :
    (e.enterAttack n).step.toInt =
      if n.toNat ≤ 1 then 0 else (((2 ^ 31 - e.level.toNat) / n.toNat : Nat) : Int) :=
  Env.enterRamp_step_of_le (t := full) n hl le_rfl

theorem Env.enterDecay_step {e : Env} {t : Word} (n : BitVec 24) (h : t.toNat ≤ e.level.toNat)
    (hl : e.level.toNat ≤ 2 ^ 31) :
    (e.enterDecay t n).step.toInt =
      if n.toNat ≤ 1 then 0 else -(((e.level.toNat - t.toNat) / n.toNat : Nat) : Int) :=
  Env.enterRamp_step_of_ge n h hl

theorem Env.enterRelease_step {e : Env} (n : BitVec 24) (hl : e.level.toNat ≤ 2 ^ 31) :
    (e.enterRelease n).step.toInt =
      if n.toNat ≤ 1 then 0 else -((e.level.toNat / n.toNat : Nat) : Int) :=
  Env.enterRamp_step_of_ge (t := 0) n (Nat.zero_le _) hl

/-! ## A ramp as it runs (R127): the iterates of `Env.rampTick` -/

theorem Env.rampTick_cnt {e : Env} (h : 1 ≤ e.cnt.toNat) :
    e.rampTick.cnt.toNat = e.cnt.toNat - 1 :=
  BitVec.toNat_sub_of_le (x := e.cnt) (y := 1) h

/-- Ramp ticks keep the stage, the step and the target. -/
theorem Env.rampTick_iterate_frame (e : Env) (j : Nat) :
    (Env.rampTick^[j] e).stage = e.stage ∧ (Env.rampTick^[j] e).step = e.step ∧
    (Env.rampTick^[j] e).tgt = e.tgt := by
  induction j with
  | zero => exact ⟨rfl, rfl, rfl⟩
  | succ j ih => rwa [Function.iterate_succ_apply']

theorem Env.rampTick_iterate_cnt {e : Env} {j : Nat} (hj : j ≤ e.cnt.toNat) :
    (Env.rampTick^[j] e).cnt.toNat = e.cnt.toNat - j := by
  induction j with
  | zero => rfl
  | succ j ih =>
    have hcnt := ih (by omega)
    rw [Function.iterate_succ_apply', Env.rampTick_cnt (by omega), hcnt]
    omega

/-- R127: before the last tick of a legal ramp each tick adds the step, and the record stays legal. -/
theorem Env.rampTick_iterate_level {e : Env} (hw : e.wf) (hr : e.Ramping) {j : Nat}
    (hj : j < max e.cnt.toNat 1) :
    (Env.rampTick^[j] e).wf ∧
    ((Env.rampTick^[j] e).level.toNat : Int) = e.level.toNat + j * e.step.toInt := by
  induction j with
  | zero => exact ⟨hw, by simp⟩
  | succ j ih =>
    obtain ⟨hwj, hlevel⟩ := ih (by omega)
    obtain ⟨hstage, hstep, -⟩ := e.rampTick_iterate_frame j
    have hcnt := Env.rampTick_iterate_cnt (e := e) (j := j) (by omega)
    have hends : (Env.rampTick^[j] e).ends = false := decide_eq_false (by omega)
    have hrj : (Env.rampTick^[j] e).Ramping := by rwa [Env.Ramping, hstage]
    rw [Function.iterate_succ_apply']
    refine ⟨Env.rampTick_wf _ hwj hends hrj, ?_⟩
    obtain ⟨hnext, -, -⟩ := Env.rampTick_level _ hwj hends hrj
    rw [hnext, hlevel, hstep, s32]
    push_cast
    ring

section
variable {tick : Env → Env} {e : Env}
  (htick : ∀ r : Env, r.stage = e.stage → 2 ≤ r.cnt.toNat → tick r = r.rampTick)
include htick

/-- A tick that runs the ramps of a stage runs the whole ramp up to its last tick. -/
theorem Env.iterate_of_running {j : Nat} (hj : j < max e.cnt.toNat 1) :
    tick^[j] e = Env.rampTick^[j] e := by
  induction j with
  | zero => rfl
  | succ j ih =>
    have hcnt := Env.rampTick_iterate_cnt (e := e) (j := j) (by omega)
    rw [Function.iterate_succ_apply', ih (by omega), Function.iterate_succ_apply',
      htick _ (e.rampTick_iterate_frame j).1 (by omega)]

/-- The last tick of a ramp of length N is tick max(N, 1): it finds the count at 1 or below. -/
theorem Env.iterate_last : ∃ r : Env, tick^[max e.cnt.toNat 1] e = tick r ∧ r.stage = e.stage ∧
    r.tgt = e.tgt ∧ r.cnt.toNat ≤ 1 := by
  obtain ⟨m, hm⟩ : ∃ m, max e.cnt.toNat 1 = m + 1 := ⟨max e.cnt.toNat 1 - 1, by omega⟩
  obtain ⟨hstage, -, htgt⟩ := e.rampTick_iterate_frame m
  refine ⟨Env.rampTick^[m] e, ?_, hstage, htgt, ?_⟩
  · rw [hm, Function.iterate_succ_apply', Env.iterate_of_running htick (by omega)]
  · rw [Env.rampTick_iterate_cnt (by omega)]
    omega

/-- A legal ramp under such a tick: the stage stays, the level moves by the step, the count goes down. -/
theorem Env.iterate_fields (hw : e.wf) (hr : e.Ramping) {j : Nat} (hj : j < max e.cnt.toNat 1) :
    (tick^[j] e).stage = e.stage ∧
    ((tick^[j] e).level.toNat : Int) = e.level.toNat + j * e.step.toInt ∧
    (tick^[j] e).cnt.toNat = e.cnt.toNat - j := by
  rw [Env.iterate_of_running htick hj]
  exact ⟨(e.rampTick_iterate_frame j).1, (Env.rampTick_iterate_level hw hr hj).2,
    Env.rampTick_iterate_cnt (by omega)⟩

end

theorem Env.voiceTick_runs {e : Env} (hr : e.Ramping) (dn : BitVec 24) (sus : Word) (r : Env)
    (hs : r.stage = e.stage) (hc : 2 ≤ r.cnt.toNat) : r.voiceTick dn sus = r.rampTick :=
  Env.voiceTick_of_running dn sus (by rwa [Env.Ramping, hs]) hc

theorem Env.hatTick_runs {e : Env} (hr : e.stage = .release) (r : Env) (hs : r.stage = e.stage)
    (hc : 2 ≤ r.cnt.toNat) : r.hatTick = r.rampTick := by
  have hrel : r.stage = .release := hs.trans hr
  rw [Env.hatTick_of_release 0 0 hrel, Env.voiceTick_of_running 0 0 (.inr (.inr hrel)) hc]

/-! ## The statement about ramp entry (R121) -/

/-- Outside the ramps a tick keeps the stage and the step. -/
theorem Env.voiceTick_of_not_ramping {e : Env} (h : ¬ e.Ramping) (dn : BitVec 24) (sus : Word) :
    (e.voiceTick dn sus).stage = e.stage ∧ (e.voiceTick dn sus).step = e.step := by
  obtain hidle | hsus := e.not_ramping_iff.mp h
  · rw [Env.voiceTick_of_idle dn sus hidle]
    exact ⟨rfl, rfl⟩
  · rw [Env.voiceTick_of_sustain dn sus hsus]
    exact ⟨rfl, rfl⟩

theorem Env.voiceTick_iterate_of_not_ramping {e : Env} (h : ¬ e.Ramping) (dn : BitVec 24)
    (sus : Word) (j : Nat) : ((Env.voiceTick · dn sus)^[j] e).stage = e.stage ∧
      ((Env.voiceTick · dn sus)^[j] e).step = e.step := by
  induction j with
  | zero => exact ⟨rfl, rfl⟩
  | succ j ih =>
    obtain ⟨hstage, hstep⟩ := ih
    obtain ⟨hstage', hstep'⟩ :=
      Env.voiceTick_of_not_ramping (by rwa [Env.Ramping, hstage]) dn sus
    rw [Function.iterate_succ_apply']
    exact ⟨hstage'.trans hstage, hstep'.trans hstep⟩

/-- No tick before the last of the count computes the step again, whatever the stage. -/
theorem Env.voiceTick_iterate_step (e : Env) (dn : BitVec 24) (sus : Word) {j : Nat}
    (hj : j < max e.cnt.toNat 1) : ((Env.voiceTick · dn sus)^[j] e).step = e.step := by
  by_cases hr : e.Ramping
  case pos =>
    rw [Env.iterate_of_running (tick := (Env.voiceTick · dn sus)) (Env.voiceTick_runs hr dn sus) hj]
    exact (e.rampTick_iterate_frame j).2.1
  case neg => exact (Env.voiceTick_iterate_of_not_ramping hr dn sus j).2

theorem Env.hatTick_iterate_step (e : Env) {j : Nat} (hj : j < max e.cnt.toNat 1) :
    (Env.hatTick^[j] e).step = e.step := by
  by_cases hr : e.stage = .release
  · rw [Env.iterate_of_running (Env.hatTick_runs hr) hj]
    exact (e.rampTick_iterate_frame j).2.1
  · rw [Function.iterate_fixed (Env.hatTick_of_ne_release hr)]

/-- Settles O26: the fields of the entry, the step by its sign, and the ticks up to the last. -/
theorem rampEntryFixesTheStep : Obligations.RampEntryFixesTheStep := by
  intro e t n hl ht
  obtain ⟨hlow, hhigh⟩ := rampStep_bounds (d := (t.toNat : Int) - e.level.toNat) (n := n.toNat)
    (by omega) (by omega)
  rw [← e.enterRamp_step t n hl ht] at hlow hhigh
  refine ⟨rfl, rfl, rfl, rfl, ?_, hlow, hhigh, fun dn sus j hj => ⟨?_, ?_⟩⟩
  · by_cases hle : e.level.toNat ≤ t.toNat
    · rw [if_pos hle, Env.enterRamp_step_of_le n hle ht]
    · rw [if_neg hle, Env.enterRamp_step_of_ge n (by omega) hl]
  · exact Env.voiceTick_iterate_step _ dn sus hj
  · exact Env.hatTick_iterate_step _ hj

/-! ## The statement about a ramp's length (R122 to R127) -/

/-- R122, R123: Attack's ramp, and the Decay that its last tick enters from FULL. -/
theorem Env.attack_lasts {e : Env} {sus : Word} (n dn : BitVec 24) (hl : e.level.toNat ≤ 2 ^ 31) :
    (∀ j : Nat, j < max n.toNat 1 →
      ((Env.voiceTick · dn sus)^[j] (e.enterAttack n)).stage = .attack ∧
      (((Env.voiceTick · dn sus)^[j] (e.enterAttack n)).level.toNat : Int) =
        e.level.toNat + j * (e.enterAttack n).step.toInt ∧
      ((Env.voiceTick · dn sus)^[j] (e.enterAttack n)).cnt.toNat = n.toNat - j) ∧
    ∃ r : Env, r.level = full ∧
      (Env.voiceTick · dn sus)^[max n.toNat 1] (e.enterAttack n) = r.enterDecay sus dn := by
  have hr : (e.enterAttack n).Ramping := .inl rfl
  have hruns := Env.voiceTick_runs hr dn sus
  refine ⟨fun j hj => Env.iterate_fields hruns (e.enterAttack_wf n hl) hr hj, ?_⟩
  obtain ⟨r, hlast, hstage, htgt, hcnt⟩ := Env.iterate_last hruns
  exact ⟨r.snap, htgt, hlast.trans (Env.voiceTick_of_attack_last dn sus hstage hcnt)⟩

/-- R123, R126: Decay's ramp ends in Sustain at the level of its entry's target. -/
theorem Env.decay_lasts {e : Env} {t : Word} (n dn : BitVec 24) (sus : Word)
    (hl : e.level.toNat ≤ 2 ^ 31) (ht : t.toNat ≤ e.level.toNat) :
    (∀ j : Nat, j < max n.toNat 1 →
      ((Env.voiceTick · dn sus)^[j] (e.enterDecay t n)).stage = .decay ∧
      (((Env.voiceTick · dn sus)^[j] (e.enterDecay t n)).level.toNat : Int) =
        e.level.toNat + j * (e.enterDecay t n).step.toInt ∧
      ((Env.voiceTick · dn sus)^[j] (e.enterDecay t n)).cnt.toNat = n.toNat - j) ∧
    (Env.voiceTick · dn sus)^[max n.toNat 1] (e.enterDecay t n) =
      { stage := .sustain, level := t, cnt := 0, step := 0, tgt := t } := by
  have hr : (e.enterDecay t n).Ramping := .inr (.inl rfl)
  have hruns := Env.voiceTick_runs hr dn sus
  refine ⟨fun j hj => Env.iterate_fields hruns (e.enterDecay_wf t n hl ht) hr hj, ?_⟩
  obtain ⟨r, hlast, hstage, htgt, hcnt⟩ := Env.iterate_last hruns
  calc _ = r.snap.enterSustain := hlast.trans (Env.voiceTick_of_decay_last dn sus hstage hcnt)
    _ = { stage := .sustain, level := r.tgt, cnt := 0, step := 0, tgt := r.tgt } := rfl
    _ = _ := by rw [htgt, Env.enterDecay_tgt]

/-- R124, R125: Release's ramp ends in Idle, for a voice and for a lane alike. -/
theorem Env.release_lasts {e : Env} (n dn : BitVec 24) (sus : Word) (hl : e.level.toNat ≤ 2 ^ 31) :
    (∀ j : Nat, j < max n.toNat 1 →
      ((Env.voiceTick · dn sus)^[j] (e.enterRelease n)).stage = .release ∧
      (((Env.voiceTick · dn sus)^[j] (e.enterRelease n)).level.toNat : Int) =
        e.level.toNat + j * (e.enterRelease n).step.toInt ∧
      ((Env.voiceTick · dn sus)^[j] (e.enterRelease n)).cnt.toNat = n.toNat - j ∧
      Env.hatTick^[j] (e.enterRelease n) = (Env.voiceTick · dn sus)^[j] (e.enterRelease n)) ∧
    (Env.voiceTick · dn sus)^[max n.toNat 1] (e.enterRelease n) = Env.reset ∧
    Env.hatTick^[max n.toNat 1] (e.enterRelease n) = Env.reset := by
  have hr : (e.enterRelease n).Ramping := .inr (.inr rfl)
  have hruns := Env.voiceTick_runs hr dn sus
  have hhat := Env.hatTick_runs (e := e.enterRelease n) rfl
  refine ⟨fun j hj => ?_, ?_, ?_⟩
  · obtain ⟨hstage, hlevel, hcnt⟩ := Env.iterate_fields hruns (e.enterRelease_wf n hl) hr hj
    refine ⟨hstage, hlevel, hcnt, ?_⟩
    exact (Env.iterate_of_running hhat hj).trans (Env.iterate_of_running hruns hj).symm
  · obtain ⟨r, hlast, hstage, -, hcnt⟩ := Env.iterate_last hruns
    exact hlast.trans (Env.voiceTick_of_release_last dn sus hstage hcnt)
  · obtain ⟨r, hlast, hstage, -, hcnt⟩ := Env.iterate_last hhat
    exact hlast.trans ((Env.hatTick_of_release dn sus hstage).trans
      (Env.voiceTick_of_release_last dn sus hstage hcnt))

/-- Settles O27: `Env.attack_lasts`, `Env.decay_lasts` and `Env.release_lasts`, each with the step of its
entry. -/
theorem rampLastsItsLength : Obligations.RampLastsItsLength := by
  intro e sus sus' n dn hl hsus
  obtain ⟨hattack, r, hfull, hlast⟩ := Env.attack_lasts (sus := sus) n dn hl
  have hlevel : r.level.toNat = 2 ^ 31 := by rw [hfull, full_toNat]
  obtain ⟨hrelease, hvoice, hhat⟩ := Env.release_lasts n dn sus' hl
  refine ⟨Env.enterAttack_step n hl, hattack, ?_, ?_, ?_, ?_, ?_, fun hle => ?_,
    Env.enterRelease_step n hl, hrelease, hvoice, hhat⟩
  · rw [hlast, Env.enterDecay_stage]
  · rw [hlast, Env.enterDecay_level, hlevel]
  · rw [hlast, Env.enterDecay_cnt]
  · rw [hlast, Env.enterDecay_tgt]
  · rw [hlast, Env.enterDecay_step dn (by omega) hlevel.le, hlevel]
  · exact ⟨Env.enterDecay_step n hle hl, Env.decay_lasts n dn sus' hl hle⟩

/-! ## The statement about the range and direction of the level (R132) -/

/-- Settles O30: a tick of a ramp moves by a step of the right sign (`Env.step_sign`) or ends at the
target, which lies on the right side of a legal record's level. -/
theorem envelopeIsMonotone : Obligations.EnvelopeIsMonotone := by
  intro e sus dn hw hsus
  have hrange : (e.voiceTick dn sus).level.toNat ≤ 2 ^ 31 := (Env.voiceTick_wf e dn sus hw hsus).1
  have hrun : e.Ramping → ¬ e.cnt.toNat ≤ 1 →
      ((e.voiceTick dn sus).level.toNat : Int) = e.level.toNat + s32 e.step := fun hr hc => by
    rw [Env.voiceTick_of_running dn sus hr (by omega)]
    exact (Env.rampTick_level e hw (decide_eq_false hc) hr).1
  have hsign (hc : ¬ e.cnt.toNat ≤ 1) := Env.step_sign e hw (decide_eq_false hc)
  obtain ⟨hlevel, -, -, -, -, hattack, hdecay, -, -⟩ := hw
  have hrelease : e.stage = .release → (e.voiceTick dn sus).level.toNat ≤ e.level.toNat := by
    intro h
    by_cases hc : e.cnt.toNat ≤ 1
    · rw [Env.voiceTick_of_release_last dn sus h hc]
      exact Nat.zero_le _
    · have := hrun (.inr (.inr h)) hc
      have := (hsign hc).2 (.inr h)
      omega
  refine ⟨hrange, fun h => ?_, fun h => ?_, fun h => ⟨hrelease h, ?_⟩⟩
  · by_cases hc : e.cnt.toNat ≤ 1
    · rw [Env.voiceTick_of_attack_last dn sus h hc, Env.enterDecay_level, Env.snap_level,
        (hattack h).1, full_toNat]
      exact hlevel
    · have := hrun (.inl h) hc
      have := (hsign hc).1 h
      omega
  · by_cases hc : e.cnt.toNat ≤ 1
    · rw [Env.voiceTick_of_decay_last dn sus h hc, Env.enterSustain_level, Env.snap_level]
      have := hdecay h
      omega
    · have := hrun (.inr (.inl h)) hc
      have := (hsign hc).2 (.inl h)
      omega
  · rw [Env.hatTick_of_release dn sus h]
    exact hrelease h

end Sys2Proof.Machine

/-! The statements about the commands on the envelopes (41_envelope.md R120, R129 to R133): the unit a
note command reaches, what a command does to one voice, and what a WRITE leaves. -/

namespace Sys2Proof.Machine

/-! ## The unit a note command reaches (R243) -/

theorem exec_noteOn_bank {s : State} (hs : s.Inv) {u : BitVec 4} {bk : Bank}
    (hb : s.banks[u.toNat]? = some bk) (n vel : BitVec 7) :
    exec (.noteOn u n vel) s = .next (s.updBank u.toNat (Bank.noteOn n)) := by
  obtain ⟨-, hlen, -⟩ := hs
  exact congrArg _ (if_pos (lt_of_getElem?_eq_some hlen hb))

theorem exec_noteOff_bank {s : State} (hs : s.Inv) {u : BitVec 4} {bk : Bank}
    (hb : s.banks[u.toNat]? = some bk) (n vel : BitVec 7) :
    exec (.noteOff u n vel) s = .next (s.updBank u.toNat (Bank.noteOff n)) := by
  obtain ⟨-, hlen, -⟩ := hs
  exact congrArg _ (if_pos (lt_of_getElem?_eq_some hlen hb))

theorem exec_noteOn_hat {s : State} (hs : s.Inv) {u : BitVec 4} {i : Nat} {h : Hat}
    (hu : u.toNat = s.cfg.nBank + i) (hi : s.hats[i]? = some h) (n vel : BitVec 7) :
    exec (.noteOn u n vel) s = .next (s.updHat i (Hat.noteOn n)) := by
  obtain ⟨-, -, hlen, -⟩ := hs
  have hlt : i < s.cfg.nHat := lt_of_getElem?_eq_some hlen hi
  have hunit : noteOnUnit u n s = s.updHat i (Hat.noteOn n) := by
    rw [noteOnUnit, if_neg (by omega), if_pos (by omega), hu, Nat.add_sub_cancel_left]
  exact congrArg _ hunit

theorem State.updBank_getElem?_self {s : State} {b : Nat} {bk : Bank} (hb : s.banks[b]? = some bk)
    (f : Bank → Bank) : (s.updBank b f).banks[b]? = some (f bk) := by
  simp [hb]

theorem State.updBank_getElem?_of_ne (s : State) {b c : Nat} (h : c ≠ b) (f : Bank → Bank) :
    (s.updBank b f).banks[c]? = s.banks[c]? :=
  List.getElem?_modify_ne f s.banks h.symm

/-! ## NOTE_ON on a bank (R153) -/

theorem Bank.noteOn_voices_select {bk : Bank} {x : Voice} (h : bk.voices[bk.select]? = some x)
    (n : BitVec 7) :
    (bk.noteOn n).voices[bk.select]? = some (x.allocate n bk.notecnt bk.attackN) := by
  simp [Bank.noteOn, h]

theorem Bank.noteOn_voices_of_ne (bk : Bank) (n : BitVec 7) {j : Nat} (h : j ≠ bk.select) :
    (bk.noteOn n).voices[j]? = bk.voices[j]? :=
  List.getElem?_modify_ne _ _ h.symm

theorem Bank.wf.exists_selected {bk : Bank} (h : bk.wf) :
    ∃ x, bk.voices[bk.select]? = some x ∧ x.wf := by
  obtain ⟨hlen, -, hwf⟩ := h
  have hne : bk.voices ≠ [] := List.ne_nil_of_length_pos (hlen ▸ by decide)
  exact ⟨_, List.getElem?_eq_getElem (bk.select_lt hne), hwf _ (List.getElem_mem _)⟩

/-- Settles O21: the selected voice is allocated (`Bank.noteOn_voices_select`), in Attack from its level
(`Env.enterAttack_step`); the other voices and banks are left. -/
theorem noteOnAllocatesAVoice : Obligations.NoteOnAllocatesAVoice := by
  intro s u n vel bk hs hb
  have hexec := exec_noteOn_bank hs hb n vel
  obtain ⟨-, -, -, -, -, hbanks, -⟩ := hs
  obtain ⟨x, hx, ⟨hlevel, -⟩, -⟩ := (hbanks bk (List.mem_of_getElem? hb)).exists_selected
  refine ⟨s.updBank u.toNat (Bank.noteOn n), bk.noteOn n, x, x.allocate n bk.notecnt bk.attackN, hexec,
    rfl, by simp, State.updBank_getElem?_self hb _, fun b hne => s.updBank_getElem?_of_ne hne _, rfl,
    by simp [Bank.noteOn], hx, Bank.noteOn_voices_select hx n, fun j => bk.noteOn_voices_of_ne n,
    rfl, rfl, rfl, rfl, rfl, rfl, full_toNat, rfl, (Env.enterAttack_step _ hlevel).trans ?_⟩
  split <;> rfl

/-! ## NOTE_OFF on a bank (R154) -/

theorem Voice.holds_iff (n : BitVec 7) (x : Voice) :
    x.holds n = true ↔ x.nv = true ∧ x.note = n ∧
      (x.env.stage = .attack ∨ x.env.stage = .decay ∨ x.env.stage = .sustain) := by
  simp [Voice.holds, and_assoc, or_assoc]

theorem Voice.noteOff_of_not_holds {n : BitVec 7} {x : Voice} (h : ¬ x.holds n) (r : BitVec 24) :
    x.noteOff n r = x := if_neg h

/-- A voice that holds the note enters Release. -/
theorem Voice.noteOff_of_holds {n : BitVec 7} {x : Voice} (h : x.holds n) (r : BitVec 24) :
    x.noteOff n r = { x with env := x.env.enterRelease r } := by
  obtain ⟨-, -, hstage⟩ := (x.holds_iff n).mp h
  rw [Voice.noteOff, if_pos h, Env.gateOff_of_held hstage]

theorem Bank.noteOff_voices {bk : Bank} {j : Nat} {x : Voice} (h : bk.voices[j]? = some x)
    (n : BitVec 7) : (bk.noteOff n).voices[j]? = some (x.noteOff n bk.releaseN) := by
  simp [Bank.noteOff, h]

/-- Settles O22: voice by voice, one that holds the note (`Voice.noteOff_of_holds`) or does not. -/
theorem noteOffReleasesEveryMatch : Obligations.NoteOffReleasesEveryMatch := by
  intro s u n vel bk hs hb
  have hexec := exec_noteOff_bank hs hb n vel
  obtain ⟨-, -, -, -, -, hbanks, -⟩ := hs
  obtain ⟨-, -, hwf⟩ := hbanks bk (List.mem_of_getElem? hb)
  refine ⟨s.updBank u.toNat (Bank.noteOff n), bk.noteOff n, hexec, rfl, by simp,
    State.updBank_getElem?_self hb _, fun b hne => s.updBank_getElem?_of_ne hne _, rfl,
    by simp [Bank.noteOff], fun j x hx => ⟨_, Bank.noteOff_voices hx n, ?_⟩⟩
  obtain ⟨⟨hlevel, -⟩, -⟩ := hwf x (List.mem_of_getElem? hx)
  split
  next h =>
    rw [Voice.noteOff_of_holds ((x.holds_iff n).mpr h)]
    exact ⟨rfl, rfl, rfl, rfl, rfl, Env.enterRelease_step _ hlevel⟩
  next h => exact Voice.noteOff_of_not_holds (mt (x.holds_iff n).mp h) _

/-! ## NOTE_ON on a hat lane (R131, R186) -/

theorem Env.oneShot_step (e : Env) (n : BitVec 24) :
    (e.oneShot n).step.toInt =
      if n.toNat ≤ 1 then 0 else -((2 ^ 31 / n.toNat : Nat) : Int) :=
  Env.enterRelease_step (e := { e with level := full }) n full_toNat.le

/-- Settles O23: the lane the note reaches (`exec_noteOn_hat`), then the two branches of its NOTE_ON. -/
theorem noteOnTriggersAHatLane : Obligations.NoteOnTriggersAHatLane := by
  intro s u n vel i h hs hu hi
  rw [exec_noteOn_hat hs hu hi n vel]
  obtain ⟨hlt, hget⟩ := List.getElem?_eq_some_iff.mp hi
  have hset : s.updHat i (Hat.noteOn n) = { s with hats := s.hats.set i (h.noteOn n) } := by
    rw [State.updHat, List.modify_eq_set_get _ hlt, List.get_eq_getElem, hget]
  rw [hset]
  refine ⟨fun hn => ⟨(h.env.oneShot h.hdecayN).step, ?_, h.env.oneShot_step _⟩, fun hn => ?_⟩
  · rw [Hat.noteOn, if_pos hn]
    rfl
  · rw [Hat.noteOn, if_neg hn, ← hget, List.set_getElem_self]

/-! ## What a WRITE leaves (R133) -/

/-- RegWrite writes no voice. -/
theorem regWrite_voices (s : State) (a : Addr) (d : Word) :
    (regWrite s a d).banks.map Bank.voices = s.banks.map Bank.voices := by
  rcases regWrite_cases s a d with h | ⟨b, r, -, h⟩ | ⟨i, r, -, h⟩ | ⟨i, -, -, h⟩ <;> rw [h]
  · exact map_modify_of_comp_eq (fun bk => (bk.writeReg_frame r d).1) s.banks b
  · rfl
  · rfl

/-- RegWrite writes no lane's envelope. -/
theorem regWrite_hatEnvs (s : State) (a : Addr) (d : Word) :
    (regWrite s a d).hats.map Hat.env = s.hats.map Hat.env := by
  rcases regWrite_cases s a d with h | ⟨b, r, -, h⟩ | ⟨i, r, -, h⟩ | ⟨i, -, -, h⟩ <;> rw [h]
  · rfl
  · exact map_modify_of_comp_eq (fun h => (h.writeReg_frame r d).1) s.hats i
  · rfl

/-- Settles O31: a WRITE is RegWrite, and the equations of the ticks name the parameters only where a
ramp is entered. -/
theorem parametersAreLatched : Obligations.ParametersAreLatched := by
  refine ⟨fun s a d => ⟨_, rfl, regWrite_voices _ a d, regWrite_hatEnvs _ a d⟩,
    fun e s1 s2 d1 d2 => ⟨fun hc hne => ?_, fun h => ?_, fun h hc => ?_, fun h => ?_⟩⟩
  · by_cases hr : e.Ramping
    case pos =>
      rw [Env.voiceTick_of_running d1 s1 hr hc, Env.voiceTick_of_running d2 s2 hr hc]
      exact ⟨rfl, rfl, rfl, rfl⟩
    case neg =>
      have hidle : e.stage = .idle := (e.not_ramping_iff.mp hr).resolve_right hne
      rw [Env.voiceTick_of_idle d1 s1 hidle, Env.voiceTick_of_idle d2 s2 hidle]
      exact ⟨rfl, rfl, rfl, rfl⟩
  · by_cases hc : 2 ≤ e.cnt.toNat
    · rw [Env.voiceTick_of_running d1 s1 (.inr h) hc, Env.voiceTick_of_running d2 s2 (.inr h) hc]
    · have hlast : e.cnt.toNat ≤ 1 := by omega
      rcases h with h | h
      · rw [Env.voiceTick_of_decay_last d1 s1 h hlast, Env.voiceTick_of_decay_last d2 s2 h hlast]
      · rw [Env.voiceTick_of_release_last d1 s1 h hlast, Env.voiceTick_of_release_last d2 s2 h hlast]
  · rcases h with h | h
    · rw [Env.voiceTick_of_attack_last d1 s1 h hc]
      rfl
    · rw [Env.voiceTick_of_decay_last d1 s1 h hc]
      rfl
  · rw [Env.voiceTick_of_sustain d1 s1 h]

/-! ## What a command does to one voice -/

/-- Voice `v` of bank `b`, where the state has it. -/
def State.voiceAt (s : State) (b v : Nat) : Option Voice := s.banks[b]?.bind (·.voices[v]?)

theorem State.voiceAt_of_bank {s : State} {b : Nat} {bk : Bank} (h : s.banks[b]? = some bk) (v : Nat) :
    s.voiceAt b v = bk.voices[v]? := by
  simp [State.voiceAt, h]

/-- States whose banks hold the same voices. -/
theorem State.voiceAt_congr {s t : State} (h : t.banks.map Bank.voices = s.banks.map Bank.voices)
    (b v : Nat) : t.voiceAt b v = s.voiceAt b v := by
  have hvoices (r : State) : r.voiceAt b v = (r.banks.map Bank.voices)[b]?.bind (·[v]?) := by
    simp [State.voiceAt, Option.bind_map]
  rw [hvoices, hvoices, h]

section
variable {s : State} {b v : Nat} {bk : Bank} {x : Voice}
  (hb : s.banks[b]? = some bk) (hx : bk.voices[v]? = some x)
include hb hx

/-- A NOTE_ON allocates the voice that its bank selects, and leaves every other. -/
theorem noteOnUnit_voiceAt (u : BitVec 4) (n : BitVec 7) :
    (noteOnUnit u n s).voiceAt b v = some x ∨
    (u.toNat = b ∧ bk.select = v ∧
      (noteOnUnit u n s).voiceAt b v = some (x.allocate n bk.notecnt bk.attackN)) := by
  have hold : s.voiceAt b v = some x := (State.voiceAt_of_bank hb v).trans hx
  rcases noteOnUnit_cases u n s with h | h | h <;> rw [h]
  · by_cases hu : b = u.toNat
    case pos =>
      subst hu
      rw [State.voiceAt_of_bank (State.updBank_getElem?_self hb _)]
      by_cases hv : v = bk.select
      · subst hv
        exact .inr ⟨rfl, rfl, Bank.noteOn_voices_select hx n⟩
      · exact .inl ((bk.noteOn_voices_of_ne n hv).trans hx)
    case neg =>
      rw [State.voiceAt, s.updBank_getElem?_of_ne hu]
      exact .inl hold
  · exact .inl hold
  · exact .inl hold

/-- A NOTE_OFF does to a voice of its bank what `Voice.noteOff` does, and leaves every other. -/
theorem noteOffUnit_voiceAt (u : BitVec 4) (n : BitVec 7) :
    (noteOffUnit u n s).voiceAt b v = some x ∨
    (u.toNat = b ∧ (noteOffUnit u n s).voiceAt b v = some (x.noteOff n bk.releaseN)) := by
  have hold : s.voiceAt b v = some x := (State.voiceAt_of_bank hb v).trans hx
  rcases noteOffUnit_cases u n s with h | h | h <;> rw [h]
  · by_cases hu : b = u.toNat
    case pos =>
      subst hu
      rw [State.voiceAt_of_bank (State.updBank_getElem?_self hb _)]
      exact .inr ⟨rfl, Bank.noteOff_voices hx n⟩
    case neg =>
      rw [State.voiceAt, s.updBank_getElem?_of_ne hu]
      exact .inl hold
  · exact .inl hold
  · exact .inl hold

theorem tickState_voiceAt :
    (tickState s).voiceAt b v = some (x.tick s.cfg.noteInc bk.decayN bk.sustain) := by
  simp [State.voiceAt, hb, hx]

/-- What a command can do to one voice, once over: leave it, tick it, allocate it or gate it off. -/
theorem exec_voiceAt_cases {i : Instr} {t : State} (h : exec i s = .next t) :
    t.voiceAt b v = some x ∨
    (i = .tick ∧ t.voiceAt b v = some (x.tick s.cfg.noteInc bk.decayN bk.sustain)) ∨
    (∃ u n vel, i = .noteOn u n vel ∧ u.toNat = b ∧ bk.select = v ∧
      t.voiceAt b v = some (x.allocate n bk.notecnt bk.attackN)) ∨
    (∃ u n vel, i = .noteOff u n vel ∧ u.toNat = b ∧
      t.voiceAt b v = some (x.noteOff n bk.releaseN)) := by
  have hold : s.voiceAt b v = some x := (State.voiceAt_of_bank hb v).trans hx
  rcases exec_next_cases h with rfl | ⟨hi, rfl⟩ | ⟨u, n, vel, hi, rfl⟩ |
    ⟨u, n, vel, hi, rfl⟩ | ⟨a, d, -, rfl⟩ | ⟨a, -, -, rfl⟩
  · exact .inl hold
  · exact .inr (.inl ⟨hi, tickState_voiceAt hb hx⟩)
  · rcases noteOnUnit_voiceAt hb hx u n with hkeep | ⟨hu, hv, halloc⟩
    · exact .inl hkeep
    · exact .inr (.inr (.inl ⟨u, n, vel, hi, hu, hv, halloc⟩))
  · rcases noteOffUnit_voiceAt hb hx u n with hkeep | ⟨hu, hoff⟩
    · exact .inl hkeep
    · exact .inr (.inr (.inr ⟨u, n, vel, hi, hu, hoff⟩))
  · exact .inl ((State.voiceAt_congr (regWrite_voices _ a d) b v).trans hold)
  · exact .inl hold

end

/-! ## Entering and leaving Idle (R120, R125) -/

/-- Gate-off leaves the voices in Idle that are there, and moves none there. -/
theorem Voice.noteOff_idle_iff (n : BitVec 7) (r : BitVec 24) (x : Voice) :
    (x.noteOff n r).env.stage = .idle ↔ x.env.stage = .idle := by
  unfold Voice.noteOff
  split
  · exact x.env.gateOff_idle r
  · exact Iff.rfl

/-- Only the last tick of a Release enters Idle. -/
theorem Env.release_of_voiceTick_idle {e : Env} {dn : BitVec 24} {sus : Word} (hne : e.stage ≠ .idle)
    (h : (e.voiceTick dn sus).stage = .idle) : e.stage = .release ∧ e.cnt.toNat ≤ 1 := by
  by_cases hr : e.Ramping
  case pos =>
    have hc : e.cnt.toNat ≤ 1 := by
      by_contra hc
      rw [Env.voiceTick_of_running dn sus hr (by omega)] at h
      exact hne h
    refine ⟨?_, hc⟩
    rcases hr with hs | hs | hs
    · rw [Env.voiceTick_of_attack_last dn sus hs hc, Env.enterDecay_stage] at h
      contradiction
    · rw [Env.voiceTick_of_decay_last dn sus hs hc, Env.enterSustain_stage] at h
      contradiction
    · exact hs
  case neg => exact absurd ((Env.voiceTick_of_not_ramping hr dn sus).1.symm.trans h) hne

/-- Settles O29, by the four things a command can do to a voice (`exec_voiceAt_cases`). -/
theorem idleIsLeftByNoteOnOnly : Obligations.IdleIsLeftByNoteOnOnly := by
  intro i s t b v bk bk' x y h hb hb' hx hy
  have hyt : t.voiceAt b v = some y := (State.voiceAt_of_bank hb' v).trans hy
  rcases exec_voiceAt_cases hb hx h with hv | ⟨hi, hv⟩ | ⟨u, n, vel, hi, hu, hsel, hv⟩ |
    ⟨-, n, -, -, -, hv⟩ <;> obtain rfl := Option.some.inj (hv.symm.trans hyt)
  · exact ⟨fun hidle hne => absurd hidle hne, fun hne hidle => absurd hidle hne⟩
  · refine ⟨fun hidle hne => ?_, fun hne hidle => ?_⟩
    · rw [Voice.tick_of_idle hidle] at hne
      exact absurd hidle hne
    · rw [Voice.tick_of_not_idle hne] at hidle ⊢
      rw [(Voice.envTick_fields _ _ _).1] at hidle
      obtain ⟨hrel, hcnt⟩ := Env.release_of_voiceTick_idle hne hidle
      exact ⟨hi, hrel, hcnt, Voice.envTick_note_of_idle hidle⟩
  · exact ⟨fun _ _ => ⟨u, n, vel, hi, hu, hsel⟩, fun _ hidle => by cases hidle⟩
  · rw [Ne, Voice.noteOff_idle_iff]
    exact ⟨fun hidle hne => absurd hidle hne, fun hne hidle => absurd hidle hne⟩

end Sys2Proof.Machine

/-! The statements about the voice bank (42_voice_bank.md R151 to R158): which voice a NOTE_ON takes,
what a run of NOTE_ONs does to a bank, and what Idle units give to a TICK. -/

namespace Sys2Proof.Machine

/-! ## Voice selection (R151) -/

/-- What `firstBest` finds where some entry has a key: `firstBest_spec` with its hypothesis supplied. -/
theorem exists_firstBest {α : Type} {better : Nat → Nat → Bool} {key : α → Option Nat}
    (total : ∀ a b, better a b = true ∨ better b a = true)
    (trans : ∀ a b c, better a b = true → better b c = true → better a c = true)
    {xs : List α} (h : ∃ x ∈ xs, key x ≠ none) :
    ∃ i k x, firstBest better key xs = some (i, k) ∧ xs[i]? = some x ∧ key x = some k ∧
      ∀ (j : Nat) (y : α) (k' : Nat), xs[j]? = some y → key y = some k' →
        better k k' = true ∧ (j < i → better k' k = false) := by
  obtain ⟨x, hx, hkey⟩ := h
  cases hf : firstBest better key xs with
  | none => exact absurd ((firstBest_eq_none better key xs).mp hf x hx) hkey
  | some p =>
    obtain ⟨⟨y, hy, hk⟩, hall⟩ := firstBest_spec total trans xs p.1 p.2 hf
    exact ⟨p.1, p.2, y, rfl, hy, hk, hall⟩

theorem Voice.idleKey_eq_some {v : Voice} {k : Nat} :
    v.idleKey = some k ↔ v.env.stage = .idle ∧ 0 = k := by
  simp [Voice.idleKey]

theorem Voice.idleKey_eq_none {v : Voice} : v.idleKey = none ↔ v.env.stage ≠ .idle := by
  simp [Voice.idleKey]

theorem Voice.releaseKey_eq_some {v : Voice} {k : Nat} :
    v.releaseKey = some k ↔ v.env.stage = .release ∧ v.env.level.toNat = k := by
  simp [Voice.releaseKey]

theorem Voice.releaseKey_eq_none {v : Voice} : v.releaseKey = none ↔ v.env.stage ≠ .release := by
  simp [Voice.releaseKey]

/-- R151: the age is the difference of NOTECNT and TS, modulo 2^32. -/
theorem Voice.age_eq (c : Word) (v : Voice) :
    (v.age c : Int) = ((c.toNat : Int) - v.ts.toNat) % 2 ^ 32 := by
  rw [Voice.age, BitVec.toNat_sub]
  omega

/-- Step 1: the least Idle voice. -/
theorem Bank.select_of_idle {bk : Bank} (h : ∃ x ∈ bk.voices, x.env.stage = .idle) :
    (∃ x, bk.voices[bk.select]? = some x ∧ x.env.stage = .idle) ∧
    ∀ (j : Nat) (y : Voice), j < bk.select → bk.voices[j]? = some y → y.env.stage ≠ .idle := by
  have hkey : ∃ x ∈ bk.voices, x.idleKey ≠ none := by
    simpa only [ne_eq, Voice.idleKey_eq_none, not_not] using h
  obtain ⟨i, k, x, hf, hx, hk, hall⟩ :=
    exists_firstBest (better := fun _ _ => true) (by simp) (by simp) hkey
  have hsel : bk.select = i := by rw [Bank.select, hf]
  rw [hsel]
  refine ⟨⟨x, hx, (Voice.idleKey_eq_some.mp hk).1⟩, fun j y hj hy hidle => ?_⟩
  have hearlier := (hall j y 0 hy (Voice.idleKey_eq_some.mpr ⟨hidle, rfl⟩)).2 hj
  contradiction

/-- Step 2: with no Idle voice, the least of the voices in Release with the least level. -/
theorem Bank.select_of_release {bk : Bank} (hidle : ∀ x ∈ bk.voices, x.env.stage ≠ .idle)
    (h : ∃ x ∈ bk.voices, x.env.stage = .release) :
    ∃ x, bk.voices[bk.select]? = some x ∧ x.env.stage = .release ∧
      ∀ (j : Nat) (y : Voice), bk.voices[j]? = some y → y.env.stage = .release →
        x.env.level.toNat ≤ y.env.level.toNat ∧
        (j < bk.select → x.env.level.toNat < y.env.level.toNat) := by
  have hnone := (firstBest_eq_none (fun _ _ => true) Voice.idleKey bk.voices).mpr
    fun x hx => Voice.idleKey_eq_none.mpr (hidle x hx)
  have hkey : ∃ x ∈ bk.voices, x.releaseKey ≠ none := by
    simpa only [ne_eq, Voice.releaseKey_eq_none, not_not] using h
  obtain ⟨i, k, x, hf, hx, hk, hall⟩ :=
    exists_firstBest (better := fun k k' => decide (k ≤ k')) (by simp; omega) (by simp; omega) hkey
  have hsel : bk.select = i := by rw [Bank.select, hnone, hf]
  obtain ⟨hrel, rfl⟩ := Voice.releaseKey_eq_some.mp hk
  rw [hsel]
  refine ⟨x, hx, hrel, fun j y hy hyrel => ?_⟩
  simpa using hall j y _ hy (Voice.releaseKey_eq_some.mpr ⟨hyrel, rfl⟩)

/-- Step 3: with no voice Idle or in Release, the least voice with the greatest age. -/
theorem Bank.select_of_held {bk : Bank} (hne : bk.voices ≠ [])
    (h : ∀ x ∈ bk.voices, x.env.stage ≠ .idle ∧ x.env.stage ≠ .release) :
    ∃ x, bk.voices[bk.select]? = some x ∧
      ∀ (j : Nat) (y : Voice), bk.voices[j]? = some y →
        y.age bk.notecnt ≤ x.age bk.notecnt ∧
        (j < bk.select → y.age bk.notecnt < x.age bk.notecnt) := by
  have hnoIdle := (firstBest_eq_none (fun _ _ => true) Voice.idleKey bk.voices).mpr
    fun x hx => Voice.idleKey_eq_none.mpr (h x hx).1
  have hnoRelease := (firstBest_eq_none (fun k k' => decide (k ≤ k')) Voice.releaseKey bk.voices).mpr
    fun x hx => Voice.releaseKey_eq_none.mpr (h x hx).2
  obtain ⟨v, hv⟩ := List.exists_mem_of_ne_nil _ hne
  obtain ⟨i, k, x, hf, hx, hk, hall⟩ :=
    exists_firstBest (better := fun k k' => decide (k' ≤ k))
      (key := fun v => some (v.age bk.notecnt)) (by simp; omega) (by simp; omega)
      ⟨v, hv, Option.some_ne_none _⟩
  have hsel : bk.select = i := by rw [Bank.select, hnoIdle, hnoRelease, hf]
  obtain rfl := Option.some.inj hk
  rw [hsel]
  refine ⟨x, hx, fun j y hy => ?_⟩
  simpa using hall j y _ hy rfl

/-- Settles O20: one lemma per step of R151. -/
theorem selectFollowsThePriority : Obligations.SelectFollowsThePriority := by
  intro bk hne
  refine ⟨bk.select_lt hne, Bank.select_of_idle, Bank.select_of_release, fun h => ?_⟩
  simp only [← Voice.age_eq, Nat.cast_le, Nat.cast_lt]
  exact Bank.select_of_held hne h

/-! ## A run of NOTE_ONs (R158) -/

theorem Bank.noteOn_voices (n : BitVec 7) (bk : Bank) : (bk.noteOn n).voices =
    bk.voices.modify bk.select (Voice.allocate n bk.notecnt bk.attackN) := rfl

@[simp] theorem Voice.allocate_stage (n : BitVec 7) (c : Word) (a : BitVec 24) (x : Voice) :
    (x.allocate n c a).env.stage = .attack := rfl

@[simp] theorem Voice.allocate_note (n : BitVec 7) (c : Word) (a : BitVec 24) (x : Voice) :
    (x.allocate n c a).note = n := rfl

/-- The number of Idle voices of a bank. -/
def Bank.idleCount (bk : Bank) : Nat := bk.voices.countP (fun x => x.env.stage = .idle)

theorem Bank.idleCount_eq_zero {bk : Bank} :
    bk.idleCount = 0 ↔ ∀ x ∈ bk.voices, x.env.stage ≠ .idle := by
  simp [Bank.idleCount]

/-- A NOTE_ON takes one voice out of Idle while there is one. -/
theorem Bank.noteOn_idleCount (n : BitVec 7) {bk : Bank} (hne : bk.voices ≠ []) :
    (bk.noteOn n).idleCount = bk.idleCount - 1 := by
  have hlt := bk.select_lt hne
  have hcount : (bk.noteOn n).idleCount =
      bk.idleCount - if bk.voices[bk.select].env.stage = .idle then 1 else 0 := by
    rw [Bank.idleCount, Bank.noteOn_voices, List.modify_eq_set_get _ hlt, List.countP_set hlt]
    simp [Bank.idleCount]
  rw [hcount]
  by_cases h : ∃ x ∈ bk.voices, x.env.stage = .idle
  case pos =>
    obtain ⟨⟨x, hx, hidle⟩, -⟩ := Bank.select_of_idle h
    obtain ⟨_, hget⟩ := List.getElem?_eq_some_iff.mp hx
    rw [hget, if_pos hidle]
  case neg =>
    have hzero : bk.idleCount = 0 :=
      Bank.idleCount_eq_zero.mpr fun x hx hidle => h ⟨x, hx, hidle⟩
    rw [hzero, Nat.zero_sub, Nat.zero_sub]

/-- The bank after a NOTE_ON for each of the notes, in order. -/
def Bank.noteOns (notes : List (BitVec 7)) (bk : Bank) : Bank :=
  notes.foldl (fun b n => b.noteOn n) bk

@[simp] theorem Bank.noteOns_nil (bk : Bank) : bk.noteOns [] = bk := rfl
@[simp] theorem Bank.noteOns_cons (n : BitVec 7) (notes : List (BitVec 7)) (bk : Bank) :
    bk.noteOns (n :: notes) = (bk.noteOn n).noteOns notes := rfl

theorem Bank.noteOns_wf (notes : List (BitVec 7)) {bk : Bank} (h : bk.wf) : (bk.noteOns notes).wf := by
  induction notes generalizing bk with
  | nil => exact h
  | cons n notes ih => exact ih (bk.noteOn_wf n h)

theorem Bank.wf.voices_ne_nil {bk : Bank} (h : bk.wf) : bk.voices ≠ [] := by
  obtain ⟨hlen, -⟩ := h
  exact List.ne_nil_of_length_pos (hlen ▸ by decide)

theorem Bank.noteOns_idleCount (notes : List (BitVec 7)) {bk : Bank} (h : bk.wf) :
    (bk.noteOns notes).idleCount = bk.idleCount - notes.length := by
  induction notes generalizing bk with
  | nil => rfl
  | cons n notes ih =>
    rw [Bank.noteOns_cons, ih (bk.noteOn_wf n h), Bank.noteOn_idleCount n h.voices_ne_nil,
      List.length_cons, Nat.sub_sub, Nat.add_comm]

/-- Sixteen notes leave no voice Idle: a bank has no more than 16. -/
theorem Bank.noteOns_not_idle {notes : List (BitVec 7)} (hn : 16 ≤ notes.length) {bk : Bank}
    (h : bk.wf) : ∀ x ∈ (bk.noteOns notes).voices, x.env.stage ≠ .idle := by
  have hle : bk.idleCount ≤ 16 := List.countP_le_length.trans_eq h.1
  have hzero : (bk.noteOns notes).idleCount = 0 := by
    rw [Bank.noteOns_idleCount notes h]
    omega
  exact Bank.idleCount_eq_zero.mp hzero

/-- NOTE_ONs sent to one bank run, and do to it what `Bank.noteOns` does. -/
theorem execAll_noteOns {s : State} (hs : s.Inv) {u : BitVec 4} {bk : Bank}
    (hb : s.banks[u.toNat]? = some bk) (vel : BitVec 7) (notes : List (BitVec 7)) :
    ∃ t, execAll (notes.map (fun n => Instr.noteOn u n vel)) s = .next t ∧ t.Inv ∧
      t.banks[u.toNat]? = some (bk.noteOns notes) := by
  induction notes generalizing s bk with
  | nil => exact ⟨s, rfl, hs, hb⟩
  | cons n notes ih =>
    have hexec := exec_noteOn_bank hs hb n vel
    obtain ⟨t, ht, htinv, htb⟩ := ih (exec_inv hs hexec) (State.updBank_getElem?_self hb _)
    exact ⟨t, (execAll_cons hexec).trans ht, htinv, htb⟩

/-! ### From an all-Idle start -/

/-- The bank has given the notes `done` to its first voices, in order, counting from the time stamp
`c`; the voices after them are Idle (R158). -/
def Bank.FilledInOrder (c : Word) (done : List (BitVec 7)) (bk : Bank) : Prop :=
  bk.notecnt = c + BitVec.ofNat 32 done.length ∧
  (∀ (j : Nat) (n : BitVec 7), done[j]? = some n → ∃ x, bk.voices[j]? = some x ∧
    x.env.stage = .attack ∧ x.note = n ∧ x.ts = c + BitVec.ofNat 32 j) ∧
  ∀ (j : Nat) (x : Voice), done.length ≤ j → bk.voices[j]? = some x → x.env.stage = .idle

theorem Bank.filledInOrder_nil {bk : Bank} (h : ∀ x ∈ bk.voices, x.env.stage = .idle) :
    bk.FilledInOrder bk.notecnt [] :=
  ⟨by simp, by simp, fun _ x _ hx => h x (List.mem_of_getElem? hx)⟩

/-- The voice a partly filled bank selects is the first Idle one. -/
theorem Bank.FilledInOrder.select_eq {c : Word} {done : List (BitVec 7)} {bk : Bank}
    (h : bk.FilledInOrder c done) (hlt : done.length < bk.voices.length) :
    bk.select = done.length := by
  obtain ⟨-, hdone, hrest⟩ := h
  have hfirst : bk.voices[done.length]? = some bk.voices[done.length] := List.getElem?_eq_getElem hlt
  obtain ⟨⟨x, hx, hidle⟩, hleast⟩ :=
    Bank.select_of_idle ⟨_, List.getElem_mem hlt, hrest _ _ le_rfl hfirst⟩
  refine le_antisymm (not_lt.mp fun hgt => ?_) (not_lt.mp fun hsel => ?_)
  · exact hleast _ _ hgt hfirst (hrest _ _ le_rfl hfirst)
  · obtain ⟨y, hy, hattack, -⟩ := hdone _ _ (List.getElem?_eq_getElem hsel)
    obtain rfl := Option.some.inj (hx.symm.trans hy)
    rw [hidle] at hattack
    contradiction

/-- One more note goes to the next voice. -/
theorem Bank.FilledInOrder.noteOn {c : Word} {done : List (BitVec 7)} {bk : Bank}
    (h : bk.FilledInOrder c done) (hlt : done.length < bk.voices.length) (n : BitVec 7) :
    (bk.noteOn n).FilledInOrder c (done ++ [n]) := by
  have hsel := h.select_eq hlt
  obtain ⟨hcnt, hdone, hrest⟩ := h
  refine ⟨?_, fun j m hj => ?_, fun j x hj hx => ?_⟩
  · rw [Bank.noteOn_notecnt, hcnt, List.length_append, List.length_singleton, BitVec.ofNat_add,
      ← BitVec.add_assoc]
    rfl
  · by_cases hjl : j = done.length
    case pos =>
      subst hjl
      obtain rfl : n = m := by simpa using hj
      have hget : bk.voices[bk.select]? = some bk.voices[bk.select] :=
        List.getElem?_eq_getElem (hsel ▸ hlt)
      rw [← hsel] at hcnt ⊢
      exact ⟨_, Bank.noteOn_voices_select hget n, rfl, rfl, hcnt⟩
    case neg =>
      have hold : done[j]? = some m := by
        have hjlt := (List.getElem?_eq_some_iff.mp hj).1
        rw [List.length_append, List.length_singleton] at hjlt
        rwa [List.getElem?_append_left (by omega)] at hj
      rw [bk.noteOn_voices_of_ne n (hsel ▸ hjl)]
      exact hdone j m hold
  · rw [List.length_append, List.length_singleton] at hj
    rw [bk.noteOn_voices_of_ne n (by omega)] at hx
    exact hrest j x (by omega) hx

/-- As many notes as there are voices left go to them in order. -/
theorem Bank.FilledInOrder.noteOns {c : Word} {done notes : List (BitVec 7)} {bk : Bank}
    (h : bk.FilledInOrder c done) (hle : done.length + notes.length ≤ bk.voices.length) :
    (bk.noteOns notes).FilledInOrder c (done ++ notes) := by
  induction notes generalizing done bk with
  | nil => simpa using h
  | cons n notes ih =>
    rw [List.length_cons] at hle
    have hnext := ih (h.noteOn (by omega) n)
      (by simp only [Bank.noteOn_voices, List.length_modify, List.length_append,
            List.length_singleton]; omega)
    rwa [List.append_assoc] at hnext

section
variable {c : Word} {notes : List (BitVec 7)} {bk : Bank} (h : bk.FilledInOrder c notes)
  (hl : notes.length = bk.voices.length)
include h hl

/-- What a full bank's voices are. -/
theorem Bank.FilledInOrder.voice_of_full {j : Nat} {x : Voice} (hx : bk.voices[j]? = some x) :
    x.env.stage = .attack ∧ notes[j]? = some x.note ∧ x.ts = c + BitVec.ofNat 32 j := by
  obtain ⟨-, hdone, -⟩ := h
  have hj : j < notes.length := hl ▸ (List.getElem?_eq_some_iff.mp hx).1
  have hn := List.getElem?_eq_getElem hj
  obtain ⟨y, hy, hattack, hnote, hts⟩ := hdone j _ hn
  obtain rfl := Option.some.inj (hx.symm.trans hy)
  exact ⟨hattack, hnote ▸ hn, hts⟩

theorem Bank.FilledInOrder.attack_of_full : ∀ x ∈ bk.voices, x.env.stage = .attack := by
  intro x hx
  obtain ⟨j, hj⟩ := List.mem_iff_getElem?.mp hx
  exact (h.voice_of_full hl hj).1

theorem Bank.FilledInOrder.notes_of_full : bk.voices.map Voice.note = notes := by
  refine List.ext_getElem? fun j => ?_
  rw [List.getElem?_map]
  cases hx : bk.voices[j]? with
  | none => rw [Option.map_none, List.getElem?_eq_none (hl ▸ List.getElem?_eq_none_iff.mp hx)]
  | some x => rw [Option.map_some, (h.voice_of_full hl hx).2.1]

/-- In a full bank voice `j` is as old as the notes given since: the bound keeps the count of notes
from wrapping around. -/
theorem Bank.FilledInOrder.age_of_full (hbound : notes.length < 2 ^ 32) {j : Nat} {x : Voice}
    (hx : bk.voices[j]? = some x) : x.age bk.notecnt = notes.length - j := by
  obtain ⟨-, -, hts⟩ := h.voice_of_full hl hx
  obtain ⟨hcnt, -⟩ := h
  have hj : j < bk.voices.length := (List.getElem?_eq_some_iff.mp hx).1
  rw [Voice.age, hcnt, hts]
  simp only [BitVec.toNat_sub, BitVec.toNat_add, BitVec.toNat_ofNat]
  omega

/-- The oldest voice of a full bank is voice 0. -/
theorem Bank.FilledInOrder.select_of_full (hbound : notes.length < 2 ^ 32) (hne : bk.voices ≠ []) :
    bk.select = 0 := by
  have hheld : ∀ x ∈ bk.voices, x.env.stage ≠ .idle ∧ x.env.stage ≠ .release := fun x hx => by
    simp [h.attack_of_full hl x hx]
  obtain ⟨x, hx, holdest⟩ := Bank.select_of_held hne hheld
  have hzero := List.getElem?_eq_getElem (List.length_pos_of_ne_nil hne)
  have hle := (holdest 0 _ hzero).1
  have hlt : bk.select < bk.voices.length := bk.select_lt hne
  rw [h.age_of_full hl hbound hzero, h.age_of_full hl hbound hx] at hle
  omega

end

/-- The notes of a bank after a NOTE_ON: the selected voice's is replaced. -/
theorem Bank.noteOn_notes (n : BitVec 7) (bk : Bank) : (bk.noteOn n).voices.map Voice.note =
    (bk.voices.map Voice.note).modify bk.select (fun _ => n) :=
  map_modify_of_semiconj (Voice.allocate_note n bk.notecnt bk.attackN) bk.voices bk.select

/-- Settles O25: the Idle voices are counted down (`Bank.noteOns_not_idle`), and from an all-Idle start
the bank is filled in order (`Bank.FilledInOrder`). -/
theorem seventeenNoteOns : Obligations.SeventeenNoteOns := by
  intro s u vel n notes bk hs hnotes hb
  obtain ⟨t, ht, htinv, htb⟩ := execAll_noteOns hs hb vel notes
  obtain ⟨-, -, -, -, -, hbanks, -⟩ := hs
  have hwf : bk.wf := hbanks bk (List.mem_of_getElem? hb)
  have hwf' := bk.noteOns_wf notes hwf
  have hwf'' := (bk.noteOns notes).noteOn_wf n hwf'
  have hbusy := Bank.noteOns_not_idle hnotes.ge hwf
  have hbusy'' : ∀ x ∈ ((bk.noteOns notes).noteOn n).voices, x.env.stage ≠ .idle := by
    rw [← Bank.idleCount_eq_zero, Bank.noteOn_idleCount n hwf'.voices_ne_nil,
      Bank.idleCount_eq_zero.mpr hbusy]
  refine ⟨t, _, bk.noteOns notes, (bk.noteOns notes).noteOn n, ht, exec_noteOn_bank htinv htb n vel,
    htb, State.updBank_getElem?_self htb _, hwf'.1, hwf''.1, hbusy, hbusy'', fun hidle => ?_⟩
  have hfilled : (bk.noteOns notes).FilledInOrder bk.notecnt notes :=
    (Bank.filledInOrder_nil hidle).noteOns (by rw [hnotes, hwf.1]; decide)
  have hl : notes.length = (bk.noteOns notes).voices.length := hnotes.trans hwf'.1.symm
  have hsel := hfilled.select_of_full hl (by omega) hwf'.voices_ne_nil
  refine ⟨hfilled.notes_of_full hl, fun x hx => ?_, hsel, ?_⟩
  · simp [hfilled.attack_of_full hl x hx]
  · rw [Bank.noteOn_notes, hfilled.notes_of_full hl, hsel]
    cases notes with
    | nil => contradiction
    | cons m notes => simp

/-! ## Idle units in a TICK (R156, R188, R210) -/

theorem Voice.sample_of_idle {inc : List Word} {w : BitVec 2} {x : Voice} (h : x.env.stage = .idle) :
    x.sample inc w = 0 := if_pos h

theorem Bank.out_of_idle {bk : Bank} (h : ∀ x ∈ bk.voices, x.env.stage = .idle) (inc : List Word) :
    bk.out inc = 0 := by
  refine List.sum_eq_zero fun y hy => ?_
  obtain ⟨x, hx, rfl⟩ := List.mem_map.mp hy
  exact Voice.sample_of_idle (h x hx)

theorem map_eq_self_of_forall {α : Type} {f : α → α} {xs : List α} (h : ∀ x ∈ xs, f x = x) :
    xs.map f = xs :=
  (List.map_congr_left h).trans (List.map_id' xs)

theorem Bank.tick_of_idle {bk : Bank} (h : ∀ x ∈ bk.voices, x.env.stage = .idle) (inc : List Word) :
    bk.tick inc = bk := by
  have hvoices : bk.voices.map (Voice.tick inc bk.decayN bk.sustain) = bk.voices :=
    map_eq_self_of_forall fun x hx => Voice.tick_of_idle (h x hx)
  rw [Bank.tick, hvoices]

theorem Hat.tick_of_idle {h : Hat} (hi : h.env.stage = .idle) : h.tick = h := if_pos hi

theorem mixAcc_of_silent {src : List Int} (h : ∀ y ∈ src, y = 0) (route : List Word) (c : Nat) :
    mixAcc route src c = 0 := by
  refine List.sum_eq_zero fun y hy => ?_
  obtain ⟨⟨r, z⟩, hmem, rfl⟩ := List.mem_map.mp hy
  obtain ⟨-, hz⟩ := List.of_mem_zip hmem
  simp [h z hz]

theorem State.frame_of_silent {s : State} (h : ∀ y ∈ s.sources, y = 0) :
    s.frame = List.replicate s.cfg.nCh 0 := by
  refine List.eq_replicate_iff.mpr ⟨s.frame_length, fun w hw => ?_⟩
  obtain ⟨c, -, rfl⟩ := List.mem_map.mp hw
  rw [mixAcc_of_silent h, f32, if_pos rfl]

/-- Settles O42: Idle voices and lanes give 0 and stay, and there is no other source. -/
theorem silentWhileIdle : Obligations.SilentWhileIdle := by
  intro s _ hext hvoices hlanes
  have hsilent : ∀ y ∈ s.sources, y = 0 := by
    intro y hy
    rw [State.sources, hext, List.range_zero, List.map_nil, List.append_nil] at hy
    rcases List.mem_append.mp hy with hy | hy
    · obtain ⟨bk, hbk, rfl⟩ := List.mem_map.mp hy
      exact Bank.out_of_idle (hvoices bk hbk) _
    · obtain ⟨h, hh, rfl⟩ := List.mem_map.mp hy
      exact Hat.out_of_idle (hlanes h hh)
  exact ⟨tickState s, rfl, State.frame_of_silent hsilent,
    map_eq_self_of_forall fun bk hbk => Bank.tick_of_idle (hvoices bk hbk) _,
    map_eq_self_of_forall fun h hh => Hat.tick_of_idle (hlanes h hh)⟩

/-! ## The first sample of a note (R296) -/

/-- An Idle voice has level 0 (R125). -/
theorem Voice.wf.level_of_idle {x : Voice} (hx : x.wf) (h : x.env.stage = .idle) :
    x.env.level = 0 := by
  obtain ⟨⟨-, -, -, -, hreset, -⟩, -⟩ := hx
  rw [hreset h]
  rfl

theorem Voice.sample_of_level_zero {x : Voice} (h : x.env.level = 0) (inc : List Word) (w : BitVec 2) :
    x.sample inc w = 0 := by
  simp [Voice.sample, h, fdivPow2]

/-- Settles O47: the Attack starts at the Idle voice's level, and the phase at 0. -/
theorem firstSampleAfterNoteOn : Obligations.FirstSampleAfterNoteOn := by
  intro x n c a d sus inc w hx hidle hinc
  have hlevel : (x.allocate n c a).env.level = 0 := hx.level_of_idle hidle
  refine ⟨hlevel, Voice.sample_of_level_zero hlevel inc w, ?_⟩
  have hn : n.toNat < inc.length := hinc ▸ n.isLt
  have hrun : (x.allocate n c a).env.stage ≠ .idle := by simp
  obtain ⟨-, hphase, -⟩ :=
    Voice.envTick_fields d sus { x.allocate n c a with phase := (x.allocate n c a).nextPhase inc }
  rw [Voice.tick_of_not_idle hrun, hphase]
  simp [Voice.nextPhase, Voice.allocate, hn]

end Sys2Proof.Machine

/-! The statements about the noise generator and the filter (43_noise_filter.md R180 to R188): the noise
step as a map that respects the exclusive or, a lane in a TICK, and the note commands that reach no voice
and no trigger. -/

namespace Sys2Proof.Machine

/-! ## The noise step (R180) -/

/-- A word combined with its own left shift, as numbers. -/
theorem toNat_xor_shiftLeft (x : Word) (k : Nat) :
    (x ^^^ x <<< k).toNat = x.toNat ^^^ (x.toNat * 2 ^ k % 2 ^ 32) := by
  rw [BitVec.toNat_xor, BitVec.toNat_shiftLeft, Nat.shiftLeft_eq]

/-- A word combined with its own right shift, as numbers. -/
theorem toNat_xor_ushiftRight (x : Word) (k : Nat) :
    (x ^^^ x >>> k).toNat = x.toNat ^^^ (x.toNat / 2 ^ k) := by
  rw [BitVec.toNat_xor, BitVec.toNat_ushiftRight, Nat.shiftRight_eq_div_pow]

theorem xor_xor_shiftLeft_xor (x y : Word) (k : Nat) :
    (x ^^^ y) ^^^ (x ^^^ y) <<< k = (x ^^^ x <<< k) ^^^ (y ^^^ y <<< k) := by
  rw [BitVec.shiftLeft_xor_distrib]
  ac_rfl

theorem xor_xor_ushiftRight_xor (x y : Word) (k : Nat) :
    (x ^^^ y) ^^^ (x ^^^ y) >>> k = (x ^^^ x >>> k) ^^^ (y ^^^ y >>> k) := by
  rw [BitVec.ushiftRight_xor_distrib]
  ac_rfl

/-- Each of the three shifts distributes over the exclusive or, so the noise step does. -/
theorem xorshift_xor (x y : Word) : xorshift (x ^^^ y) = xorshift x ^^^ xorshift y := by
  rw [xorshift, xor_xor_shiftLeft_xor x y 13, xor_xor_ushiftRight_xor _ _ 17, xor_xor_shiftLeft_xor _ _ 5]
  rfl

theorem xorshift_eq_zero_iff (x : Word) : xorshift x = 0 ↔ x = 0 := by
  refine ⟨fun h => by_contra fun hne => xorshift_ne_zero hne h, fun h => ?_⟩
  subst h
  rfl

/-- Two states with one successor differ by a state that steps to 0, which is 0 itself. -/
theorem xorshift_injective : Function.Injective xorshift := by
  intro x y hxy
  have hdiff : xorshift (x ^^^ y) = 0 := by
    rw [xorshift_xor, hxy]
    exact BitVec.xor_self
  exact eq_of_xor_eq_zero ((xorshift_eq_zero_iff _).mp hdiff)

/-- Settles O34: the recurrence shift by shift, and injectivity from the linearity of the step
(`xorshift_xor`) and its kernel (`xorshift_eq_zero_iff`). -/
theorem noiseStepIsInjective : Obligations.NoiseStepIsInjective := by
  refine ⟨fun x => ⟨_, _, rfl, rfl, ?_⟩, xorshift_injective, xorshift_eq_zero_iff⟩
  rw [xorshift, toNat_xor_shiftLeft, toNat_xor_ushiftRight, toNat_xor_shiftLeft]

/-! ## A hat lane in a TICK (R181 to R188) -/

theorem Hat.tick_of_not_idle {h : Hat} (hne : h.env.stage ≠ .idle) :
    h.tick = { h with
      lfsr := xorshift h.lfsr, x1 := sample25 h.noise, x2 := h.x1, y1 := word32 h.filter, y2 := h.y1,
      env := h.env.hatTick } := if_neg hne

/-- The stored filter input is the noise sample itself (R181, R36). -/
theorem Hat.toInt_sample25_noise (h : Hat) : (sample25 h.noise).toInt = h.noise := by
  obtain ⟨hlo, hhi⟩ : -2 ^ 23 ≤ h.noise ∧ h.noise ≤ 2 ^ 23 - 1 := noiseSample_bounds _
  exact toInt_sample25 (by omega) (by omega)

/-- The stored filter output is the saturated value itself (R185). -/
theorem Hat.toInt_word32_filter (h : Hat) : (word32 h.filter).toInt = h.filter := by
  obtain ⟨hlo, hhi⟩ : -2 ^ 31 ≤ h.filter ∧ h.filter ≤ 2 ^ 31 - 1 := biquadOut_bounds _
  exact s32_word32 hlo (by omega)

/-- The filter output: the accumulator divided by 2^30, saturated to 32 bits (R184, R185). -/
theorem Hat.filter_eq (h : Hat) :
    h.filter = max (-2 ^ 31) (min (h.biquadAcc h.noise / 2 ^ 30) (2 ^ 31 - 1)) :=
  clamp_eq_max_min (by decide)

/-- Settles O36: an Idle lane stays (`Hat.tick_of_idle`); any other stores its noise sample and its filter
output without loss (`Hat.toInt_sample25_noise`, `Hat.toInt_word32_filter`). -/
theorem tickAdvancesHatLanes : Obligations.TickAdvancesHatLanes := by
  intro s hs
  refine ⟨tickState s, rfl, fun i h hi => ⟨h.tick, by simp [hi], Hat.tick_of_idle, fun hne => ?_⟩⟩
  rw [Hat.tick_of_not_idle hne, State.sources_hat hs hi, Hat.out_of_not_idle hne,
    ← h.filter_eq]
  exact ⟨h.noise, h.filter, h.biquadAcc h.noise, rfl, rfl, h.filter_eq, rfl, h.toInt_sample25_noise, rfl,
    h.toInt_word32_filter, rfl, rfl, rfl, rfl⟩

/-! ## Note commands without effect (R187, R243) -/

/-- A NOTE_OFF to anything but a bank changes nothing: a lane's NOTE_OFF is no change. -/
theorem noteOffUnit_of_not_bank {u : BitVec 4} {s : State} (hu : s.cfg.nBank ≤ u.toNat) (n : BitVec 7) :
    noteOffUnit u n s = s := by
  rw [noteOffUnit, if_neg hu.not_gt]
  split
  next => exact s.updHat_id _ fun _ => rfl
  next => rfl

/-- A NOTE_ON past the last lane reaches no unit. -/
theorem noteOnUnit_of_absent {u : BitVec 4} {s : State} (hu : s.cfg.nBank + s.cfg.nHat ≤ u.toNat)
    (n : BitVec 7) : noteOnUnit u n s = s := by
  rw [noteOnUnit, if_neg (by omega), if_neg hu.not_gt]

/-- Settles O24: each command's unit function, where it leaves the state. -/
theorem hatNoteOffAndAbsentUnits : Obligations.HatNoteOffAndAbsentUnits := by
  intro s u n vel
  exact ⟨fun hu => congrArg _ (noteOffUnit_of_not_bank hu n),
    fun hu => congrArg _ (noteOnUnit_of_absent hu n)⟩

end Sys2Proof.Machine

/-! The statements about a TICK's frame (44_mixer.md R210 to R216): the accumulator as a sum over the
source numbers, the units taken one by one, and the frames of a run of commands. -/

namespace Sys2Proof.Machine

/-! ## The state a TICK answers -/

theorem tickState_of_exec {s t : State} (h : exec .tick s = .next t) : t = tickState s :=
  (Host.Outcome.next.inj h).symm

@[simp] theorem tickState_outlast (s : State) : (tickState s).outlast = s.frame := rfl
@[simp] theorem tickState_frames (s : State) : (tickState s).frames = s.frames ++ [s.frame] := rfl
@[simp] theorem tickState_cfg (s : State) : (tickState s).cfg = s.cfg := rfl

/-! ## The accumulator (R213, R214) -/

theorem routed_iff (r : Word) (c : Nat) :
    routed r c = true ↔ r.getLsbD 8 = true ∨ (r.extractLsb' 0 5).toNat = c := by
  simp [routed, routeAll, routeCh]

theorem mixAcc_cons (r : Word) (route : List Word) (x : Int) (src : List Int) (c : Nat) :
    mixAcc (r :: route) (x :: src) c = (if routed r c then x else 0) + mixAcc route src c := by
  simp [mixAcc]

/-- With one ROUTE for each source, the accumulator is a sum over the source numbers. -/
theorem mixAcc_eq_sum {route : List Word} {src : List Int} (h : route.length = src.length) (c : Nat) :
    mixAcc route src c = ∑ i ∈ Finset.range src.length,
      if routed (route.getD i 0) c then src.getD i 0 else 0 := by
  induction src generalizing route with
  | nil => simp [mixAcc]
  | cons x src ih =>
    obtain ⟨r, route, rfl⟩ := List.exists_cons_of_length_eq_add_one h
    rw [mixAcc_cons, ih (Nat.succ.inj h), List.length_cons, Finset.sum_range_succ', add_comm]
    simp

theorem State.frame_getElem? (s : State) {c : Nat} (hc : c < s.cfg.nCh) :
    s.frame[c]? = some (f32 (mixAcc s.route s.sources c)) := by
  rw [State.frame, List.getElem?_map, List.getElem?_range hc, Option.map_some]

/-- Settles O37: the frame channel by channel, each accumulator by `mixAcc_eq_sum`. -/
theorem tickEmitsTheMixedFrame : Obligations.TickEmitsTheMixedFrame := by
  intro s hs
  have hlen := State.sources_length hs
  obtain ⟨-, -, -, hroute, -⟩ := hs
  refine ⟨tickState s, rfl, tickState_frames s, s.frame_length, hlen, fun c hc => ?_⟩
  rw [tickState_outlast, s.frame_getElem? hc, mixAcc_eq_sum (hroute.trans hlen.symm), hlen]
  simp only [routed_iff]

/-! ## A unit's part of a TICK (R211) -/

/-- Settles O43: the unit's next state and its source value are functions of the unit, and for a bank of
NOTE_INC. -/
theorem unitsDoNotInteract : Obligations.UnitsDoNotInteract := by
  intro s s' t t' hs hs' hinc ht ht'
  obtain rfl := tickState_of_exec ht
  obtain rfl := tickState_of_exec ht'
  refine ⟨fun b hsame hb => ?_, fun i hsame hi => ?_⟩
  · have hbk : s.banks[b]? = some s.banks[b] := List.getElem?_eq_getElem hb
    have hbk' : s'.banks[b]? = some s.banks[b] := hsame ▸ hbk
    exact ⟨by simp [hbk, hbk', hinc], by
      rw [State.sources_bank hbk, State.sources_bank hbk', hinc]⟩
  · have hh : s.hats[i]? = some s.hats[i] := List.getElem?_eq_getElem hi
    have hh' : s'.hats[i]? = some s.hats[i] := hsame ▸ hh
    exact ⟨by simp [hh, hh'], by rw [State.sources_hat hs hh, State.sources_hat hs' hh']⟩

/-! ## The frames of a run of commands (R216, R261) -/

theorem execAll_append {is js : List Instr} {s t : State} (h : execAll is s = .next t) :
    execAll (is ++ js) s = execAll js t := by
  induction is generalizing s with
  | nil => cases h; rfl
  | cons i is ih =>
    obtain ⟨u, hu⟩ := exec_next i s
    rw [execAll_cons hu] at h
    rw [List.cons_append, execAll_cons hu, ih h]

/-- Commands other than TICK emit no frame. -/
theorem execAll_of_no_tick {is : List Instr} (h : ∀ i ∈ is, i ≠ .tick) (s : State) :
    ∃ t, execAll is s = .next t ∧ t.frames = s.frames ∧ t.cfg = s.cfg := by
  induction is generalizing s with
  | nil => exact ⟨s, rfl, rfl, rfl⟩
  | cons i is ih =>
    obtain ⟨hi, his⟩ := List.forall_mem_cons.mp h
    obtain ⟨u, hu⟩ := exec_next i s
    obtain ⟨hout, -⟩ := outputsComeFromTickAndRead i s u hu
    obtain ⟨hframes, -⟩ := hout hi
    obtain ⟨t, ht, htframes, htcfg⟩ := ih his u
    exact ⟨t, (execAll_cons hu).trans ht, htframes.trans hframes, htcfg.trans (exec_cfg hu)⟩

/-- Each of `f` TICKs emits one frame. -/
theorem execAll_replicate_tick (f : Nat) (s : State) :
    ∃ (t : State) (fs : List (List Word)), execAll (List.replicate f .tick) s = .next t ∧
      t.frames = s.frames ++ fs ∧ fs.length = f ∧ ∀ g ∈ fs, g.length = s.cfg.nCh := by
  induction f generalizing s with
  | zero => exact ⟨s, [], rfl, by simp, rfl, by simp⟩
  | succ f ih =>
    obtain ⟨t, fs, ht, hframes, hlen, hnch⟩ := ih (tickState s)
    refine ⟨t, s.frame :: fs, ht, by simpa using hframes, by simp [hlen], ?_⟩
    exact List.forall_mem_cons.mpr ⟨s.frame_length, hnch⟩

/-- Settles O60: the events emit no frame (`execAll_of_no_tick`), the TICKs one each
(`execAll_replicate_tick`). -/
theorem bufferEmitsItsFrames : Obligations.BufferEmitsItsFrames := by
  intro events f s hevents
  obtain ⟨u, hu, huframes, hucfg⟩ := execAll_of_no_tick hevents s
  obtain ⟨t, fs, ht, htframes, hlen, hnch⟩ := execAll_replicate_tick f u
  exact ⟨t, fs, (execAll_append hu).trans ht, huframes ▸ htframes, hlen, hucfg ▸ hnch⟩

end Sys2Proof.Machine

/-! The statements about the conversion to binary32 (44_mixer.md R215, R217): the significand as a nearest
multiple, the fields of the word, and the numbers binary32 words can stand for. -/

namespace Sys2Proof.Machine

/-! ## Rounding a significand (R215) -/

/-- The multiple of `2 ^ k` nearest to `m`, as a count of `2 ^ k`; of two nearest ones the even one. -/
def halfEven (m k : Nat) : Nat :=
  if 2 ^ (k - 1) < m % 2 ^ k ∨ (m % 2 ^ k = 2 ^ (k - 1) ∧ m / 2 ^ k % 2 = 1) then m / 2 ^ k + 1
  else m / 2 ^ k

theorem halfEven_near {k : Nat} (hk : 0 < k) (m : Nat) :
    2 * |(halfEven m k * 2 ^ k : Int) - m| ≤ 2 ^ k ∧
    (2 * |(halfEven m k * 2 ^ k : Int) - m| = 2 ^ k → halfEven m k % 2 = 0) := by
  obtain ⟨j, rfl⟩ := Nat.exists_eq_add_one.mpr hk
  have hm : (m : Int) = 2 ^ (j + 1) * (m / 2 ^ (j + 1)) + m % 2 ^ (j + 1) :=
    (Int.mul_ediv_add_emod _ _).symm
  have hmod := Nat.mod_lt m (Nat.two_pow_pos (j + 1))
  rw [halfEven, Nat.add_sub_cancel]
  split
  next hup =>
    have hdist : ((m / 2 ^ (j + 1) + 1 : Nat) * 2 ^ (j + 1) : Int) - m =
        (2 ^ (j + 1) - m % 2 ^ (j + 1) : Nat) := by
      push_cast [hmod.le]
      linarith
    rw [hdist, Nat.abs_cast]
    norm_cast
    rw [pow_succ] at *
    omega
  next hdown =>
    have hdist : ((m / 2 ^ (j + 1) : Nat) * 2 ^ (j + 1) : Int) - m = -(m % 2 ^ (j + 1) : Nat) := by
      push_cast
      linarith
    rw [hdist, abs_neg, Nat.abs_cast]
    norm_cast
    rw [pow_succ] at *
    omega

theorem halfEven_bounds {m k : Nat} (hlo : 2 ^ (k + 23) ≤ m) (hhi : m < 2 ^ (k + 24)) :
    2 ^ 23 ≤ halfEven m k ∧ halfEven m k ≤ 2 ^ 24 := by
  have hq : 2 ^ 23 ≤ m / 2 ^ k :=
    (Nat.le_div_iff_mul_le (Nat.two_pow_pos k)).mpr (by rwa [pow_add, mul_comm] at hlo)
  have hq' : m / 2 ^ k < 2 ^ 24 := Nat.div_lt_of_lt_mul (by rwa [pow_add] at hhi)
  unfold halfEven
  split <;> omega

/-- R215: a number of up to 24 bits is its own significand, shifted; a longer one is rounded, and a
significand that reaches `2 ^ 24` is carried into the exponent. -/
theorem roundSignificand_cases {m : Nat} (hm : m ≠ 0) :
    (∃ e ≤ 23, 2 ^ e ≤ m ∧ m < 2 ^ (e + 1) ∧ roundSignificand m = (m * 2 ^ (23 - e), e)) ∨
    ∃ k > 0, 2 ^ (k + 23) ≤ m ∧ m < 2 ^ (k + 24) ∧
      ((halfEven m k < 2 ^ 24 ∧ roundSignificand m = (halfEven m k, k + 23)) ∨
       (halfEven m k = 2 ^ 24 ∧ roundSignificand m = (2 ^ 23, k + 24))) := by
  obtain ⟨hlo, hhi⟩ := (Nat.log2_eq_iff hm).mp rfl
  rcases Nat.lt_or_ge 23 m.log2 with hlong | hshort
  case inr => exact .inl ⟨_, hshort, hlo, hhi, if_pos hshort⟩
  obtain ⟨k, hk, hlog⟩ : ∃ k > 0, m.log2 = k + 23 := ⟨m.log2 - 23, by omega, by omega⟩
  rw [hlog] at hlo hhi
  have hround : roundSignificand m =
      if halfEven m k = 2 ^ 24 then (2 ^ 23, k + 24) else (halfEven m k, k + 23) := by
    rw [roundSignificand, hlog]
    dsimp only
    rw [if_neg (by omega), Nat.add_sub_cancel]
    rfl
  obtain ⟨-, hle⟩ := halfEven_bounds hlo hhi
  refine .inr ⟨k, hk, hlo, hhi, ?_⟩
  split at hround
  next hcarry => exact .inr ⟨hcarry, hround⟩
  next hfits => exact .inl ⟨by omega, hround⟩

/-- R215: the significand has 24 bits, and the exponent of an accumulator is at most 36. -/
theorem roundSignificand_bounds {m q e : Nat} (hm : m ≠ 0) (hlt : m < 2 ^ 36)
    (h : roundSignificand m = (q, e)) : 2 ^ 23 ≤ q ∧ q < 2 ^ 24 ∧ e ≤ 36 := by
  rcases roundSignificand_cases hm with ⟨d, hd, hlo, hhi, hr⟩ | ⟨k, -, hlo, hhi, hr⟩
  · cases hr.symm.trans h
    have hpow : 2 ^ 23 = 2 ^ e * 2 ^ (23 - e) := by rw [← pow_add, Nat.add_sub_cancel' hd]
    refine ⟨hpow ▸ Nat.mul_le_mul_right _ hlo, ?_, hd.trans (by decide)⟩
    calc m * 2 ^ (23 - e) < 2 ^ (e + 1) * 2 ^ (23 - e) :=
          Nat.mul_lt_mul_of_pos_right hhi (Nat.two_pow_pos _)
      _ = 2 ^ 24 := by rw [← pow_add]; congr 1; omega
  · have hk : k + 23 < 36 := (Nat.pow_lt_pow_iff_right (by decide)).mp (hlo.trans_lt hlt)
    obtain ⟨hge, -⟩ := halfEven_bounds hlo hhi
    rcases hr with ⟨hfits, hr⟩ | ⟨-, hr⟩ <;> cases hr.symm.trans h
    · exact ⟨hge, hfits, by omega⟩
    · exact ⟨le_rfl, by decide, by omega⟩

/-- `r` is `a` itself, or `a` has more than 24 bits and `r` is a nearest multiple of the power of two
that leaves 24 bits, with `even` in a tie. -/
def RoundsTo (a r : Int) (even : Prop) : Prop :=
  r = a ∨ ∃ k : Nat, 0 < k ∧ 2 ^ (k + 23) ≤ |a| ∧ 2 ^ k ∣ r ∧ 2 * |r - a| ≤ 2 ^ k ∧
    (2 * |r - a| = 2 ^ k → even)

theorem RoundsTo.neg {a r : Int} {even : Prop} (h : RoundsTo a r even) : RoundsTo (-a) (-r) even := by
  rcases h with rfl | ⟨k, hk, hlong, hdvd, hnear, htie⟩
  · exact .inl rfl
  · have hdist : |-r - -a| = |r - a| := by rw [neg_sub_neg, abs_sub_comm]
    exact .inr ⟨k, hk, by rwa [abs_neg], hdvd.neg_right, by rwa [hdist], by rwa [hdist]⟩

theorem halfEven_roundsTo {m k : Nat} (hk : 0 < k) (hlong : 2 ^ (k + 23) ≤ m) :
    RoundsTo m (halfEven m k * 2 ^ k : Nat) (halfEven m k % 2 = 0) := by
  obtain ⟨hnear, htie⟩ := halfEven_near hk m
  push_cast
  exact .inr ⟨k, hk, by rw [Nat.abs_cast]; exact_mod_cast hlong, Dvd.intro_left _ rfl, hnear, htie⟩

/-- R215: significand and exponent stand for `m` rounded. -/
theorem roundSignificand_roundsTo {m q e : Nat} (hm : m ≠ 0) (h : roundSignificand m = (q, e)) :
    ∃ n : Nat, q * 2 ^ e = n * 2 ^ 23 ∧ RoundsTo m n (q % 2 = 0) := by
  rcases roundSignificand_cases hm with ⟨d, hd, -, -, hr⟩ | ⟨k, hk, hlo, -, hr⟩
  · cases hr.symm.trans h
    exact ⟨m, by rw [mul_assoc, ← pow_add, Nat.sub_add_cancel hd], .inl rfl⟩
  · have hround := halfEven_roundsTo hk hlo
    refine ⟨halfEven m k * 2 ^ k, ?_⟩
    rcases hr with ⟨-, hr⟩ | ⟨hcarry, hr⟩ <;> cases hr.symm.trans h
    · exact ⟨by ring, hround⟩
    · rw [hcarry] at hround ⊢
      exact ⟨by ring, hround⟩

/-! ## The fields of the word (R215) -/

section
variable (b : BitVec 1) (x : BitVec 8) (y : BitVec 23)

theorem exponent_append : (b ++ x ++ y).extractLsb' 23 8 = x := by
  rw [BitVec.extractLsb'_append_eq_of_le (by decide)]
  exact BitVec.extractLsb'_append_eq_right

theorem sign_append : (b ++ x ++ y).getLsbD 31 = b.getLsbD 0 := by
  rw [BitVec.getLsbD_append, if_neg (by decide), BitVec.getLsbD_append, if_neg (by decide)]

theorem parity_append : (b ++ x ++ y).getLsbD 0 = y.getLsbD 0 := by
  rw [BitVec.getLsbD_append, if_pos (by decide)]

end

theorem natAbs_lt_of_abs_lt {a : Int} (h : |a| < 2 ^ 36) : a.natAbs < 2 ^ 36 := by
  rw [Int.abs_eq_natAbs] at h
  exact_mod_cast h

theorem f32_fields {a : Int} (ha : a ≠ 0) (hlt : |a| < 2 ^ 36) {q e : Nat}
    (h : roundSignificand a.natAbs = (q, e)) :
    ((f32 a).extractLsb' 23 8).toNat = e + 104 ∧ ((f32 a).extractLsb' 0 23).toNat = q - 2 ^ 23 ∧
    (f32 a).getLsbD 31 = decide (a < 0) ∧ (f32 a).getLsbD 0 = decide (q % 2 = 1) := by
  obtain ⟨hq, hq', he⟩ :=
    roundSignificand_bounds (Int.natAbs_ne_zero.mpr ha) (natAbs_lt_of_abs_lt hlt) h
  rw [f32, if_neg ha, h]
  dsimp only
  refine ⟨?_, ?_, ?_, ?_⟩
  · rw [exponent_append, BitVec.toNat_ofNat]
    omega
  · rw [BitVec.extractLsb'_append_eq_right, BitVec.toNat_ofNat]
    omega
  · rw [sign_append]
    simp
  · have hparity : (q - 2 ^ 23) % 2 = q % 2 := by omega
    rw [parity_append, BitVec.getLsbD_ofNat, Nat.testBit_zero, hparity]
    rfl

/-- R215: a finite normal word with the sign of the accumulator. -/
theorem f32_exponent_sign {a : Int} (ha : a ≠ 0) (hlt : |a| < 2 ^ 36) :
    104 ≤ ((f32 a).extractLsb' 23 8).toNat ∧ ((f32 a).extractLsb' 23 8).toNat ≤ 140 ∧
    ((f32 a).getLsbD 31 = true ↔ a < 0) := by
  obtain ⟨q, e, h⟩ : ∃ q e, roundSignificand a.natAbs = (q, e) := ⟨_, _, rfl⟩
  obtain ⟨-, -, he⟩ :=
    roundSignificand_bounds (Int.natAbs_ne_zero.mpr ha) (natAbs_lt_of_abs_lt hlt) h
  obtain ⟨hexp, -, hsign, -⟩ := f32_fields ha hlt h
  rw [hexp, hsign, decide_eq_true_iff]
  exact ⟨by omega, by omega, Iff.rfl⟩

theorem f32_zero : f32 0 = 0 := if_pos rfl

/-! ## The number a word stands for (log 14) -/

theorem f32Value_of_normal {w : Word} (h : (w.extractLsb' 23 8).toNat ≠ 0) :
    f32Value w = (if w.getLsbD 31 then -1 else 1) * (2 ^ 23 + (w.extractLsb' 0 23).toNat) *
      2 ^ (((w.extractLsb' 23 8).toNat : ℤ) - 150) := if_neg h

theorem f32Value_of_subnormal {w : Word} (h : (w.extractLsb' 23 8).toNat = 0) :
    f32Value w = (if w.getLsbD 31 then -1 else 1) * (w.extractLsb' 0 23).toNat * 2 ^ (-149 : ℤ) :=
  if_pos h

theorem f32Value_zero : f32Value 0 = 0 := by
  rw [f32Value_of_subnormal (by decide)]
  simp

theorem f32Value_f32_eq {a : Int} (ha : a ≠ 0) (hlt : |a| < 2 ^ 36) {q e : Nat}
    (h : roundSignificand a.natAbs = (q, e)) :
    f32Value (f32 a) = (if a < 0 then -1 else 1) * (q * 2 ^ e / 2 ^ 46) := by
  obtain ⟨hq, -, -⟩ :=
    roundSignificand_bounds (Int.natAbs_ne_zero.mpr ha) (natAbs_lt_of_abs_lt hlt) h
  obtain ⟨hexp, hfrac, hsign, -⟩ := f32_fields ha hlt h
  have hpow : (2 : ℚ) ^ (((e + 104 : Nat) : ℤ) - 150) = 2 ^ e / 2 ^ 46 := by
    have hexponent : ((e + 104 : Nat) : ℤ) - 150 = e - (46 : Nat) := by push_cast; ring
    rw [hexponent, zpow_sub₀ two_ne_zero, zpow_natCast, zpow_natCast]
  rw [f32Value_of_normal (by omega), hexp, hfrac, hsign, hpow, Nat.cast_sub hq]
  simp only [decide_eq_true_eq]
  push_cast
  ring

/-- R215: the word of an accumulator stands for the rounded accumulator, times 2^−23. -/
theorem f32Value_f32 {a : Int} (hlt : |a| < 2 ^ 36) :
    ∃ r : Int, f32Value (f32 a) = r / 2 ^ 23 ∧ RoundsTo a r ((f32 a).getLsbD 0 = false) := by
  rcases eq_or_ne a 0 with rfl | ha
  case inl => exact ⟨0, by rw [f32_zero, f32Value_zero]; simp, .inl rfl⟩
  obtain ⟨q, e, h⟩ : ∃ q e, roundSignificand a.natAbs = (q, e) := ⟨_, _, rfl⟩
  obtain ⟨n, hqe, hround⟩ := roundSignificand_roundsTo (Int.natAbs_ne_zero.mpr ha) h
  obtain ⟨-, -, -, hparity⟩ := f32_fields ha hlt h
  have hvalue : f32Value (f32 a) = (if a < 0 then -1 else 1) * (n / 2 ^ 23) := by
    have hcast : (q : ℚ) * 2 ^ e = n * 2 ^ 23 := by exact_mod_cast hqe
    rw [f32Value_f32_eq ha hlt h, hcast]
    ring
  have heven : ((f32 a).getLsbD 0 = false) = (q % 2 = 0) := by
    rw [hparity]
    simp
  rw [heven, hvalue]
  split
  next hneg =>
    have hsign : a = -(a.natAbs : Int) := by omega
    exact ⟨-n, by push_cast; ring, hsign ▸ hround.neg⟩
  next hpos =>
    have hsign : a = a.natAbs := by omega
    exact ⟨n, by push_cast; ring, hsign ▸ hround⟩

/-- A binary32 word stands for a number with a significand of at most 24 bits. -/
theorem f32Value_significand (w : Word) :
    ∃ n e : Int, |n| < 2 ^ 24 ∧ f32Value w = n * 2 ^ e := by
  have hfrac : (w.extractLsb' 0 23).toNat < 2 ^ 23 := BitVec.isLt _
  have habs (m : Nat) : |(if w.getLsbD 31 then -1 else 1) * (m : Int)| = m := by
    split <;> simp
  rcases eq_or_ne (w.extractLsb' 23 8).toNat 0 with h | h
  · refine ⟨(if w.getLsbD 31 then -1 else 1) * (w.extractLsb' 0 23).toNat, -149, ?_, ?_⟩
    · rw [habs]
      omega
    · rw [f32Value_of_subnormal h]
      push_cast
      rfl
  · refine ⟨(if w.getLsbD 31 then -1 else 1) * (2 ^ 23 + (w.extractLsb' 0 23).toNat : Nat),
      (w.extractLsb' 23 8).toNat - 150, ?_, ?_⟩
    · rw [habs]
      omega
    · rw [f32Value_of_normal h]
      push_cast
      rfl

/-- A number with a significand of at most 24 bits is a multiple of `2 ^ k`, or it is below
`2 ^ (k + 23)`. -/
theorem multiple_or_lt_of_significand {n e : Int} (hn : |n| < 2 ^ 24) (k : Nat) :
    (∃ c : Int, (n : ℚ) * 2 ^ e = (c * 2 ^ k : Int)) ∨ |(n : ℚ) * 2 ^ e| < 2 ^ (k + 23) := by
  rcases le_or_gt (k : Int) e with hke | hek
  · obtain ⟨j, rfl⟩ := Int.le.dest hke
    refine .inl ⟨n * 2 ^ j, ?_⟩
    rw [← Nat.cast_add, zpow_natCast]
    push_cast
    ring
  · right
    have hn' : |(n : ℚ)| < 2 ^ 24 := by exact_mod_cast hn
    have hpos : (0 : ℚ) < 2 ^ e := zpow_pos two_pos e
    calc |(n : ℚ) * 2 ^ e|
      _ = |(n : ℚ)| * 2 ^ e := by rw [abs_mul, abs_of_pos hpos]
      _ ≤ |(n : ℚ)| * 2 ^ ((k : Int) - 1) := by
        gcongr
        · norm_num
        · omega
      _ < 2 ^ 24 * 2 ^ ((k : Int) - 1) := by gcongr
      _ = 2 ^ (k + 23) := by
        rw [zpow_sub₀ two_ne_zero, zpow_natCast]
        ring

/-! ## Nearness -/

/-- Of the multiples of `p`, one within `p / 2` of `a` is the nearest to `a`, and the only one unless it
is a half away. -/
theorem nearest_of_dvd {a r y p : Int} (hr : p ∣ r) (hy : p ∣ y) (h : 2 * |r - a| ≤ p) :
    |r - a| ≤ |y - a| ∧ (|r - a| = |y - a| → y ≠ r → 2 * |r - a| = p) := by
  rcases eq_or_ne y r with rfl | hne
  · exact ⟨le_rfl, fun _ hne => absurd rfl hne⟩
  · have hstep : p ≤ |y - r| :=
      Int.le_of_dvd (abs_pos.mpr (sub_ne_zero.mpr hne)) ((dvd_abs _ _).mpr (dvd_sub hy hr))
    have htri : |y - r| ≤ |y - a| + |r - a| := abs_sub_comm a r ▸ abs_sub_le y a r
    exact ⟨by linarith, fun heq _ => by linarith⟩

/-- Such a multiple is no further from `a` than a multiple `b ≤ |a|` of `p` with the sign of `a`. -/
theorem abs_sub_le_of_le_abs {a b r p : Int} (hr : p ∣ r) (hb : p ∣ b) (h : 2 * |r - a| ≤ p)
    (hlong : b ≤ |a|) : |r - a| ≤ |a| - b := by
  rcases le_total 0 a with ha | ha
  · obtain ⟨hle, -⟩ := nearest_of_dvd hr hb h
    rw [abs_of_nonneg ha] at hlong ⊢
    rwa [abs_of_nonpos (sub_nonpos.mpr hlong), neg_sub] at hle
  · obtain ⟨hle, -⟩ := nearest_of_dvd hr hb.neg_right h
    rw [abs_of_nonpos ha] at hlong ⊢
    rwa [neg_sub_comm, abs_of_nonneg (sub_nonneg.mpr hlong)] at hle

/-- A rounded value is nearest among the numbers with a significand of 24 bits, and even in a tie. -/
theorem RoundsTo.nearest {a r : Int} {even : Prop} (h : RoundsTo a r even) {x : ℚ}
    (hx : ∀ k : Nat, (∃ c : Int, x = (c * 2 ^ k : Int)) ∨ |x| < 2 ^ (k + 23)) :
    |(r : ℚ) - a| ≤ |x - a| ∧ (|(r : ℚ) - a| = |x - a| → x ≠ r → even) := by
  rcases h with rfl | ⟨k, -, hlong, hdvd, hnear, htie⟩
  · rw [sub_self, abs_zero]
    exact ⟨abs_nonneg _, fun h0 hne => absurd (sub_eq_zero.mp (abs_eq_zero.mp h0.symm)) hne⟩
  rcases hx k with ⟨c, rfl⟩ | hsmall
  · obtain ⟨hle, hhalf⟩ := nearest_of_dvd hdvd (Dvd.intro_left c rfl) hnear
    exact ⟨by exact_mod_cast hle, fun heq hne =>
      htie (hhalf (by exact_mod_cast heq) (by exact_mod_cast hne))⟩
  · have hpow : (2 : Int) ^ k ∣ 2 ^ (k + 23) := pow_dvd_pow 2 (Nat.le_add_right _ _)
    have hbelow : |(r : ℚ) - a| ≤ |(a : ℚ)| - 2 ^ (k + 23) := by
      exact_mod_cast abs_sub_le_of_le_abs hdvd hpow hnear hlong
    have htri : |(a : ℚ)| - |x| ≤ |x - a| := abs_sub_comm x a ▸ abs_sub_abs_le_abs_sub _ _
    exact ⟨by linarith, fun heq => by linarith⟩

/-- Settles O39: the rounded accumulator is nearest among the numbers that words stand for. -/
theorem f32RoundsToNearestEven : Obligations.F32RoundsToNearestEven := by
  intro a hlt w _
  obtain ⟨r, hvalue, hround⟩ := f32Value_f32 hlt
  obtain ⟨n, e, hn, hw⟩ := f32Value_significand w
  have hscale : f32Value w = (n * 2 ^ (e + 23)) / 2 ^ 23 := by
    rw [hw, zpow_add₀ two_ne_zero, ← mul_assoc]
    exact (mul_div_cancel_right₀ _ (by norm_num)).symm
  have hdist (x : ℚ) : |x / 2 ^ 23 - a / 2 ^ 23| = |x - a| / 2 ^ 23 := by
    rw [← sub_div, abs_div]
    norm_num
  obtain ⟨hnear, htie⟩ := hround.nearest (multiple_or_lt_of_significand hn)
  rw [hvalue, hscale, hdist, hdist]
  refine ⟨by gcongr, fun heq hne => htie ?_ ?_⟩
  · exact (div_left_inj' (by norm_num)).mp heq
  · exact fun h => hne (congrArg (· / 2 ^ 23) h)

/-- Settles O40: the exponent and the sign (`f32_exponent_sign`); the value (`f32Value_f32`) is not
rounded, because that takes more than 24 bits. -/
theorem f32IsFiniteAndNormal : Obligations.F32IsFiniteAndNormal := by
  refine ⟨f32_zero, fun a ha hlt => ?_⟩
  obtain ⟨hlo, hhi, hsign⟩ := f32_exponent_sign ha hlt
  refine ⟨hlo, hhi, hsign, fun hshort => ?_⟩
  obtain ⟨r, hvalue, rfl | ⟨k, hk, hlong, -⟩⟩ := f32Value_f32 hlt
  · exact hvalue
  · have hpow : (2 : Int) ^ 24 ≤ 2 ^ (k + 23) := pow_le_pow_right₀ (by decide) (by omega)
    exact absurd hshort (hpow.trans hlong).not_gt

/-- Settles O41: every word of the frame is f32 of an accumulator, which `abs_mixAcc_lt` bounds. -/
theorem everyFrameIsFinite : Obligations.EveryFrameIsFinite := by
  intro s t hs ht w hw
  obtain rfl := tickState_of_exec ht
  obtain ⟨c, -, rfl⟩ := List.mem_map.mp hw
  rcases eq_or_ne (mixAcc s.route s.sources c) 0 with hzero | hne
  · exact .inl (by rw [hzero, f32_zero])
  · obtain ⟨hlo, hhi, -⟩ := f32_exponent_sign hne (abs_mixAcc_lt hs c)
    exact .inr ⟨hlo, hhi⟩

end Sys2Proof.Machine

/-! The statements about the command port and its host (45_host_commands.md R240 to R250): what the
host does to the invariant, which command a step runs and which it holds, and the words of a command
one by one. -/

namespace Sys2Proof

/-! ## Words that decode to one kind of command (R81, R83) -/

theorem decode_read {w : Word} (hop : (opcField w).toNat = 5) (rest : List Word) :
    decode (w :: rest) = .ok (.read (addrField w), rest) := by
  simp only [decode, hop]

/-- The commands without effect (R242, R248): NOP and the ten reserved ones. -/
def Instr.isNopOrReserved : Instr → Bool
  | .tick | .noteOn _ _ _ | .noteOff _ _ _ | .write _ _ | .read _ => false
  | _ => true

/-- R248: a word with the opcode of NOP or a reserved one is a whole command. -/
theorem decode_isNopOrReserved {w : Word} (h : (opcField w).toNat = 0 ∨ 6 ≤ (opcField w).toNat)
    (rest : List Word) : ∃ i, decode (w :: rest) = .ok (i, rest) ∧ i.isNopOrReserved = true := by
  simp only [decode]
  split
  case h_2 | h_3 | h_4 | h_5 | h_6 => omega
  all_goals exact ⟨_, rfl, rfl⟩

end Sys2Proof

namespace Sys2Proof.Machine

/-! ## The host keeps the invariant (R240, R247, R291) -/

/-- R290: the reset state of a legal instance meets the invariant, unit by unit. -/
theorem resetWith_inv {p : Config.Params} (hp : p.legal) : (State.resetWith p).Inv := by
  have hroute : routeLegal p.nCh 0 = true := by
    obtain ⟨-, -, -, hch, -⟩ := hp
    exact (routeLegal_iff p.nCh 0).mpr ⟨rfl, rfl, hch⟩
  refine ⟨hp, List.length_replicate, List.length_replicate, List.length_replicate,
    List.length_replicate, fun bk hbk => ?_, fun h hh => ?_, List.all_eq_true.mpr fun r hr => ?_,
    Nat.zero_le _, List.forall_mem_nil _, rfl⟩
  · exact List.eq_of_mem_replicate hbk ▸ Bank.reset_wf
  · exact List.eq_of_mem_replicate hh ▸ Hat.reset_wf
  · exact List.eq_of_mem_replicate hr ▸ hroute

/-- The invariant does not speak of the port values scheduled. -/
theorem presentExt_inv {s : State} (v : List Word) (hs : s.Inv) :
    (hostAct (.presentExt v) s).Inv := hs

/-- R247: the host makes the read-data queue shorter. -/
theorem takeRdata_inv {s : State} (hs : s.Inv) : (hostAct .takeRdata s).Inv := by
  obtain ⟨hcfg, hbanks, hhats, hroute, hout, hbk, hht, hrt, hroom, hframes⟩ := hs
  have htail : s.rdata.tail.length ≤ s.rdata.length := by rw [List.length_tail]; omega
  exact ⟨hcfg, hbanks, hhats, hroute, hout, hbk, hht, hrt, htail.trans hroom, hframes⟩

/-- R291: a reset leaves the words on the port and the port values, of which the invariant does not
speak (log 13). -/
theorem hardReset_inv {s : State} (hs : s.Inv) : s.hardReset.Inv := by
  obtain ⟨hcfg, -⟩ := hs
  exact resetWith_inv hcfg

/-- Settles O52: a delivery and scheduled port values are no part of the invariant; the other two
actions, one lemma each. -/
theorem everyHostActionKeepsTheInvariant : Obligations.EveryHostActionKeepsTheInvariant := by
  intro s a hs
  cases a with
  | deliver w => exact State.setPort_inv (s.port ++ [w]) hs
  | takeRdata => exact takeRdata_inv hs
  | presentExt v => exact presentExt_inv v hs
  | reset => exact hardReset_inv hs

/-- Settles O53, by induction on the run: reset meets the invariant, and each move keeps it and the
parameters. -/
theorem reachableStatesMeetTheInvariant : Obligations.ReachableStatesMeetTheInvariant := by
  intro p s hp hreach
  induction hreach with
  | reset => exact ⟨resetWith_inv hp, rfl⟩
  | move _ hmove ih =>
    obtain ⟨hs, hcfg⟩ := ih
    rcases hmove with hstep | ⟨a, rfl⟩
    · exact ⟨everyStepKeepsTheInvariant _ _ hs hstep, (step_cfg hstep).trans hcfg⟩
    · exact ⟨everyHostActionKeepsTheInvariant _ a hs, (hostAct_cfg a _).trans hcfg⟩

/-! ## Which command a step runs, and which it holds (R240, R247) -/

/-- R247: only a READ is ever held, and only while the read-data queue is full. -/
theorem held_iff {i : Instr} {s : State} :
    held i s = true ↔ (∃ a, i = .read a) ∧ s.cfg.rdataDepth ≤ s.rdata.length := by
  cases i with
  | read a => simp [held, State.rdataFull]
  | _ => simp [held]

theorem not_held_of_read_room {i : Instr} {s : State}
    (hroom : ∀ a, i = .read a → s.rdata.length < s.cfg.rdataDepth) : held i s = false := by
  refine Bool.eq_false_iff.mpr fun hheld => ?_
  obtain ⟨⟨a, ha⟩, hfull⟩ := held_iff.mp hheld
  exact absurd (hroom a ha) (by omega)

section
variable {s : State} {i : Instr} {rest : List Word} (hs : s.parser = .header)
  (hdecode : decode s.port = .ok (i, rest))
include hs hdecode

theorem fetch_of_decode : s.fetch = .command i rest := by
  simp only [State.fetch, hs, hdecode]

theorem step_of_decode (hheld : held i s = false) : step s = exec i (s.setPort rest) := by
  rw [step, fetch_of_decode hs hdecode]
  exact if_neg (Bool.eq_false_iff.mp hheld)

theorem step_of_held (hheld : held i s = true) : step s = .next s := by
  rw [step, fetch_of_decode hs hdecode]
  exact if_pos hheld

end

/-- Settles O56: a command is held or it runs. -/
theorem stepRunsTheDecodedCommand : Obligations.StepRunsTheDecodedCommand :=
  fun _ _ _ hs hdecode => ⟨fun hroom => step_of_decode hs hdecode (not_held_of_read_room hroom),
    fun hread hfull => step_of_held hs hdecode (held_iff.mpr ⟨hread, hfull⟩)⟩

/-! ## READ (R246, R247) -/

/-- R246: where there is room, a READ emits the register. -/
theorem exec_read_of_room {s : State} (hroom : s.rdata.length < s.cfg.rdataDepth) (a : Addr) :
    exec (.read a) s = .next (s.emitRdata (regRead s a)) := by
  have hfull : ¬ s.rdataFull = true := by rw [State.rdataFull, decide_eq_true_iff]; omega
  exact if_neg hfull

/-- R246: a step takes the READ's word from the port and emits the register. -/
theorem step_read {s : State} {a : Addr} {rest : List Word} (hs : s.parser = .header)
    (hdecode : decode s.port = .ok (.read a, rest)) (hroom : s.rdata.length < s.cfg.rdataDepth) :
    step s = .next { s with port := rest, rdata := s.rdata ++ [regRead s a] } := by
  rw [step_of_decode hs hdecode (not_held_of_read_room fun _ _ => hroom)]
  exact exec_read_of_room (s := s.setPort rest) hroom a

/-- The counts in CFG, shifted to their places (R41, R246). -/
theorem cfgWord_toNat {p : Config.Params} (hp : p.legal) :
    (cfgWord p).toNat = p.nBank ||| p.nHat <<< 4 ||| p.nCh <<< 8 ||| p.nExt <<< 16 := by
  obtain ⟨hbank, hhat, hext, -, hch, -, -⟩ := hp
  have hb : (BitVec.ofNat 4 p.nBank).toNat = p.nBank := Nat.mod_eq_of_lt (by omega)
  have hh : (BitVec.ofNat 4 p.nHat).toNat = p.nHat := Nat.mod_eq_of_lt (by omega)
  have hc : (BitVec.ofNat 6 p.nCh).toNat = p.nCh := Nat.mod_eq_of_lt (by omega)
  have he : (BitVec.ofNat 4 p.nExt).toNat = p.nExt := Nat.mod_eq_of_lt (by omega)
  have happend : (cfgWord p).toNat =
      ((p.nExt <<< 2 <<< 6 ||| p.nCh) <<< 4 ||| p.nHat) <<< 4 ||| p.nBank := by
    change (0#12 ++ BitVec.ofNat 4 p.nExt ++ 0#2 ++ BitVec.ofNat 6 p.nCh ++ BitVec.ofNat 4 p.nHat ++
      BitVec.ofNat 4 p.nBank).toNat = _
    simp only [BitVec.toNat_append, hb, hh, hc, he, BitVec.toNat_zero, Nat.zero_shiftLeft,
      Nat.zero_or, Nat.or_zero]
  simp only [happend, Nat.shiftLeft_or_distrib, ← Nat.shiftLeft_add]
  ac_rfl

/-- Settles O17: a READ where there is room (`exec_read_of_room`, `step_read`), and CFG as
its counts. -/
theorem readEmitsTheRegister : Obligations.ReadEmitsTheRegister := by
  refine ⟨fun s a hroom => ⟨exec_read_of_room hroom a, fun hnone => ?_⟩,
    fun s w rest hs hport hop hroom => ?_, fun p hp => ⟨cfgWord p, ?_, cfgWord_toNat hp, ?_⟩⟩
  · rw [exec_read_of_room hroom, regRead_of_unmapped hnone]
    rfl
  · exact step_read hs (hport ▸ decode_read hop rest) hroom
  · obtain ⟨-, -, -, -, -, -, hdepth⟩ := hp
    exact exec_read_of_room (s := State.resetWith p) hdepth 0
  · intro hbank hhat hch hext
    rw [cfgWord, hbank, hhat, hch, hext]
    rfl

/-- A queue that is left is a queue with nothing appended. -/
theorem appended_of_rdata_eq {s t : State} (h : t.rdata = s.rdata) :
    ∃ ws : List Word, t.rdata = s.rdata ++ ws ∧ ws.length ≤ 1 :=
  ⟨[], by rw [h, List.append_nil], Nat.zero_le 1⟩

/-- R247: a command appends at most one word to the read-data queue and drops none. -/
theorem exec_rdata {i : Instr} {s t : State} (h : exec i s = .next t) :
    ∃ ws : List Word, t.rdata = s.rdata ++ ws ∧ ws.length ≤ 1 := by
  rcases exec_next_cases h with rfl | ⟨-, rfl⟩ | ⟨u, n, -, -, rfl⟩ | ⟨u, n, -, -, rfl⟩ |
    ⟨a, d, -, rfl⟩ | ⟨a, -, -, rfl⟩
  · exact appended_of_rdata_eq rfl
  · exact appended_of_rdata_eq rfl
  · obtain ⟨-, -, -, hrdata, -⟩ := noteOnUnit_frame u n s
    exact appended_of_rdata_eq hrdata
  · obtain ⟨-, -, -, hrdata, -⟩ := noteOffUnit_frame u n s
    exact appended_of_rdata_eq hrdata
  · obtain ⟨-, -, -, hrdata, -⟩ := writeData_frame a d (writeHeader a s)
    exact appended_of_rdata_eq hrdata
  · exact ⟨[regRead s a], rfl, le_rfl⟩

/-- R247: nor does a step drop a word, and it appends at most one. -/
theorem step_rdata {s t : State} (h : step s = .next t) :
    ∃ ws : List Word, t.rdata = s.rdata ++ ws ∧ ws.length ≤ 1 := by
  rcases step_cases s with ⟨-, e⟩ | ⟨a, d, rest, -, -, e⟩ | ⟨a, -, -, -, -, e⟩ |
    ⟨-, -, -, -, -, e⟩ | ⟨i, rest, -, -, -, e⟩ <;> rw [e] at h
  · cases h; exact appended_of_rdata_eq rfl
  · cases h
    obtain ⟨-, -, -, hrdata, -⟩ := writeData_frame a d (s.setPort rest)
    exact appended_of_rdata_eq hrdata
  · cases h; exact appended_of_rdata_eq rfl
  · cases h; exact appended_of_rdata_eq rfl
  · exact exec_rdata (s := s.setPort rest) h

/-- A step that changes nothing is followed by steps that change nothing. -/
theorem runSteps_of_step_self {s : State} (h : step s = .next s) (k : Nat) :
    runSteps k s = .next s := by
  induction k with
  | zero => rfl
  | succ k ih => exact (runSteps_succ h).trans ih

/-- Settles O18: a held READ stays held (`step_of_held`), and with the oldest word gone there is
room. -/
theorem readIsHeldWhileTheQueueIsFull : Obligations.ReadIsHeldWhileTheQueueIsFull := by
  refine ⟨fun s a hroom => exec_read_of_room hroom a, fun s t => step_rdata,
    fun s a rest hinv hs hdecode hfull => ⟨?_, ?_⟩⟩
  · exact runSteps_of_step_self (step_of_held hs hdecode (held_iff.mpr ⟨⟨a, rfl⟩, hfull.ge⟩))
  · obtain ⟨⟨-, -, -, -, -, -, hdepth⟩, -⟩ := hinv
    have hroom : s.rdata.tail.length < s.cfg.rdataDepth := by rw [List.length_tail]; omega
    exact step_read (s := hostAct .takeRdata s) hs hdecode hroom

/-! ## NOP and the reserved opcodes (R242, R248) -/

theorem exec_of_isNopOrReserved {i : Instr} (h : i.isNopOrReserved = true) (s : State) :
    exec i s = .next s := by
  cases i with
  | tick | noteOn | noteOff | write | read => cases h
  | _ => rfl

/-- Settles O19: such a word decodes to a command without effect, which is never held. -/
theorem nopAndReservedDoNothing : Obligations.NopAndReservedDoNothing := by
  refine ⟨fun s => ⟨rfl, rfl, rfl, rfl, rfl, rfl, rfl, rfl, rfl, rfl, rfl⟩, ?_⟩
  intro s w rest hs hport hop
  obtain ⟨i, hdecode, hi⟩ := decode_isNopOrReserved hop rest
  have hread (a : Addr) : i ≠ .read a := by rintro rfl; cases hi
  have hheld := not_held_of_read_room (s := s) fun a ha => absurd ha (hread a)
  rw [step_of_decode hs (hport ▸ hdecode) hheld]
  exact exec_of_isNopOrReserved hi _

/-! ## A command word by word (R241, R244) -/

/-- R241: a command that is not held is the dispatch of its words, one after the other. -/
theorem exec_eq_dispatchWords_encode {i : Instr} {s : State} (hs : s.parser = .header)
    (hheld : held i s = false) : exec i s = .next (dispatchWords (encode i) s) := by
  simp only [dispatchWords]
  cases i with
  | noteOn u n v | noteOff u n v =>
    simp [encode, dispatchWord, hs, opcField_encodeN, unitField_encodeN, noteField_encodeN, exec,
      execNoteOn, execNoteOff]
  | write a d =>
    simp [encode, dispatchWord, hs, opcField_encodeA, addrField_encodeA, exec, execWrite,
      writeHeader]
  | read a =>
    have hfull : s.rdataFull = false := hheld
    simp [encode, dispatchWord, hs, opcField_encodeA, addrField_encodeA, exec, execRead, hfull]
  | tick => simp [encode, dispatchWord, hs, opcField_encodeZ, exec, execTick]
  | _ =>
    rw [exec_of_isNopOrReserved rfl]
    simp [encode, dispatchWord, hs, opcField_encodeZ]

/-- R84, R241: so it is of the words it was decoded from, whatever their ignored bits. -/
theorem exec_eq_dispatchWords_of_decode {i : Instr} {ws rest : List Word}
    (hdecode : decode ws = .ok (i, rest)) :
    ∃ used : List Word, ws = used ++ rest ∧ ∀ s : State, s.parser = .header → held i s = false →
      exec i s = .next (dispatchWords used s) := by
  cases ws with
  | nil => cases hdecode
  | cons w ws =>
    have hwords := encode_append_of_decode hdecode
    obtain ⟨hnil, -⟩ | ⟨data, hencode, hws⟩ := List.append_eq_cons_iff.mp hwords
    · cases i <;> cases hnil
    · refine ⟨w :: data, by rw [hws, List.cons_append], fun s hs hheld => ?_⟩
      rw [exec_eq_dispatchWords_encode hs hheld, hencode, dispatchWords, dispatchWords,
        List.foldl_cons, List.foldl_cons, dispatchWord_clearIgnored w hs]

/-- R241: in DATA(a) the next word is data, whatever its bits. -/
theorem step_data {s : State} {a : Addr} {w : Word} {rest : List Word} (hs : s.parser = .data a)
    (hport : s.port = w :: rest) : step s = .next (writeData a w (s.setPort rest)) := by
  have hfetch : s.fetch = .dataWord a w rest := by simp only [State.fetch, hs, hport]
  rw [step, hfetch]

theorem dispatchWord_data {s : State} {a : Addr} (hs : s.parser = .data a) (w : Word) :
    dispatchWord w s = writeData a w s := by
  simp only [dispatchWord, hs]

/-- R244: a WRITE header whose data word has not arrived moves the parser. -/
theorem step_lone_header {s : State} {w : Word} (hs : s.parser = .header) (hport : s.port = [w])
    (hop : (opcField w).toNat = 4) :
    step s = .next (writeHeader (addrField w) (s.setPort [])) := by
  have hfetch : s.fetch = .writeHeader (addrField w) [] := by
    simp [State.fetch, hs, hport, decode, hop]
  rw [step, hfetch]

/-- R244: with its data word it is a whole WRITE. -/
theorem step_whole_write {s : State} {w d : Word} {rest : List Word} (hs : s.parser = .header)
    (hport : s.port = w :: d :: rest) (hop : (opcField w).toNat = 4) :
    step s = .next (writeData (addrField w) d (writeHeader (addrField w) (s.setPort rest))) := by
  have hdecode : decode s.port = .ok (.write (addrField w) d, rest) := by
    simp only [hport, decode, hop]
  exact step_of_decode hs hdecode rfl

/-- Settles O57: a command as its words (`exec_eq_dispatchWords_of_decode`), a data word, and a
WRITE whose header is taken before its data word arrives. -/
theorem wholeCommandIsItsWords : Obligations.WholeCommandIsItsWords := by
  refine ⟨fun s i rest hs hdecode hroom => ?_, fun s a w rest hs hport => ?_,
    fun s w d hs hport hop => ⟨_, step_lone_header hs hport hop, ?_⟩⟩
  · obtain ⟨used, hport, hexec⟩ := exec_eq_dispatchWords_of_decode hdecode
    have hheld := not_held_of_read_room hroom
    exact ⟨used, hport, (step_of_decode hs hdecode hheld).trans (hexec (s.setPort rest) hs hheld)⟩
  · rw [step_data hs hport]
    exact congrArg _ (dispatchWord_data (s := s.setPort rest) hs w).symm
  · have hboth : (hostAct (.deliver d) s).port = [w, d] := congrArg (· ++ [d]) hport
    rw [step_whole_write (s := hostAct (.deliver d) s) hs hboth hop]
    exact step_data (s := hostAct (.deliver d) (writeHeader (addrField w) (s.setPort []))) rfl rfl

/-! ## Merged producers (R250) -/

section
variable {as bs cs : List Instr} (h : Interleaving as bs cs)
include h

theorem Interleaving.sublist_left : as.Sublist cs := by
  induction h with
  | nil => exact .slnil
  | left _ ih => exact ih.cons_cons _
  | right _ ih => exact ih.cons _

theorem Interleaving.symm : Interleaving bs as cs := by
  induction h with
  | nil => exact .nil
  | left _ ih => exact .right ih
  | right _ ih => exact .left ih

theorem Interleaving.perm : cs.Perm (as ++ bs) := by
  induction h with
  | nil => exact .refl []
  | left _ ih => exact ih.cons _
  | right _ ih => exact (ih.cons _).trans List.perm_middle.symm

end

/-- Settles O59: a merge is a stream of whole commands, which O58 runs (`commandsRunInOrder`). -/
theorem mergedProducersRunInOrder : Obligations.MergedProducersRunInOrder :=
  fun _ _ cs h => ⟨h.sublist_left, h.symm.sublist_left, h.perm, fun s hs hport hroom =>
    commandsRunInOrder cs s [] hs (by rw [hport, List.append_nil]) hroom⟩

end Sys2Proof.Machine

/-! The statement about exceptions (60_exceptions.md R270): there are none, and only an empty port and
the hold of R247 make a step wait. Every other thing `step_cases` lists takes a word from the port, and
what a word does leaves the words behind it. -/

namespace Sys2Proof

/-! ## The words a command takes (R80, R83) -/

theorem encode_length_pos (i : Instr) : 0 < (encode i).length := by
  cases i <;> exact Nat.zero_lt_succ _

/-- R81: a command has at least its header word, so fewer words are left behind it. -/
theorem length_lt_of_decode {ws rest : List Word} {i : Instr} (h : decode ws = .ok (i, rest)) :
    rest.length < ws.length := by
  cases ws with
  | nil => cases h
  | cons w ws =>
    have hlen := congrArg List.length (encode_append_of_decode h)
    have hpos := encode_length_pos i
    rw [List.length_append, List.length_cons] at hlen
    rw [List.length_cons]
    omega

end Sys2Proof

namespace Sys2Proof.Machine

/-! ## Progress and the hold (R247, R270) -/

theorem exec_port {i : Instr} {s t : State} (h : exec i s = .next t) : t.port = s.port := by
  obtain ⟨-, -, -, hport⟩ := outputsComeFromTickAndRead i s t h
  exact hport

/-- Settles O54, by the five things a step can do: two of them wait, with nothing changed, and three
leave fewer words on the port. -/
theorem onlyTheHoldStopsProgress : Obligations.OnlyTheHoldStopsProgress := by
  intro s
  rcases step_cases s with ⟨hempty, hstep⟩ | ⟨a, d, rest, -, hport, hstep⟩ |
    ⟨a, w, -, hport, -, hstep⟩ | ⟨i, rest, hheader, hdecode, hheld, hstep⟩ |
    ⟨i, rest, -, hdecode, -, hstep⟩
  · exact ⟨s, hstep, .inr ⟨rfl, .inl hempty⟩⟩
  · obtain ⟨-, -, -, -, hleft⟩ := writeData_frame a d (s.setPort rest)
    refine ⟨_, hstep, .inl ?_⟩
    rw [hleft, hport]
    exact Nat.lt_succ_self rest.length
  · refine ⟨_, hstep, .inl ?_⟩
    rw [hport]
    exact Nat.zero_lt_one
  · obtain ⟨⟨a, rfl⟩, hfull⟩ := held_iff.mp hheld
    exact ⟨s, hstep, .inr ⟨rfl, .inr ⟨a, rest, hheader, hdecode, hfull⟩⟩⟩
  · obtain ⟨t, hexec⟩ := exec_next i (s.setPort rest)
    refine ⟨t, hstep.trans hexec, .inl ?_⟩
    rw [exec_port hexec]
    exact length_lt_of_decode hdecode

end Sys2Proof.Machine

/-! The statements about reset and hazards (70_reset_and_hazards.md): what reset leaves of a
half-received WRITE and of the read data, and a note that is released before it could sound. -/

namespace Sys2Proof

/-- R80: a header word whose opcode is not WRITE's is a whole command. -/
theorem decode_of_opcode_ne_write {w : Word} (hop : (opcField w).toNat ≠ 4) (rest : List Word) :
    ∃ i, decode (w :: rest) = .ok (i, rest) := by
  simp only [decode]
  split
  case h_5 => contradiction
  all_goals exact ⟨_, rfl⟩

end Sys2Proof

namespace Sys2Proof.Machine

/-! ## The reset state (R290) -/

/-- Settles O48: the base case that O52 and O53 already rest on. -/
theorem resetMeetsTheInvariant : Obligations.ResetMeetsTheInvariant := fun _ => resetWith_inv

/-! ## One word delivered to an empty port (R240, R241) -/

section
variable {s : State} {w : Word} (hs : s.parser = .header) (hport : s.port = [])
include hport

/-- With the delivered word taken, the state is the one it was delivered to. -/
theorem deliver_setPort_nil : (hostAct (.deliver w) s).setPort [] = s := by
  change s.setPort [] = s
  rw [← hport]
  rfl

theorem deliver_port : (hostAct (.deliver w) s).port = [w] := congrArg (· ++ [w]) hport

include hs

/-- R241: a one-word command runs as the dispatch of its word, if it is no READ that is held. -/
theorem step_deliver_command (hroom : s.rdata.length < s.cfg.rdataDepth)
    (hop : (opcField w).toNat ≠ 4) :
    step (hostAct (.deliver w) s) = .next (dispatchWord w s) := by
  obtain ⟨i, hi⟩ := decode_of_opcode_ne_write hop []
  have hdecode : decode (hostAct (.deliver w) s).port = .ok (i, []) := by rw [deliver_port hport, hi]
  obtain ⟨used, hused, hexec⟩ := exec_eq_dispatchWords_of_decode hi
  obtain rfl : [w] = used := hused.trans (List.append_nil used)
  have hheld : held i s = false := not_held_of_read_room fun _ _ => hroom
  rw [step_of_decode (s := hostAct (.deliver w) s) hs hdecode
    (not_held_of_read_room fun _ _ => hroom), deliver_setPort_nil hport]
  exact hexec s hs hheld

/-- R244: a WRITE header moves the parser and waits for its data word. -/
theorem step_deliver_writeHeader (hop : (opcField w).toNat = 4) :
    step (hostAct (.deliver w) s) = .next (writeHeader (addrField w) s) := by
  rw [step_lone_header (s := hostAct (.deliver w) s) hs (deliver_port hport) hop,
    deliver_setPort_nil hport]

end

/-- Settles O50: reset puts every piece of the TSD at its reset value, and with the parser at HEADER and
the read-data queue empty the next word is a header, one of a one-word command (`step_deliver_command`)
or a WRITE's (`step_deliver_writeHeader`). -/
theorem resetDropsHalfAWrite : Obligations.ResetDropsHalfAWrite := by
  intro s
  refine ⟨rfl, rfl, rfl, rfl, rfl, rfl, rfl, rfl, fun hs hport w hop => ?_,
    fun _ hport w hop => ?_⟩
  · obtain ⟨⟨-, -, -, -, -, -, hdepth⟩, -⟩ := hs
    exact step_deliver_command (s := hostAct .reset s) rfl hport hdepth hop
  · exact ⟨_, step_deliver_writeHeader (s := hostAct .reset s) rfl hport hop, rfl, rfl, rfl, rfl⟩

/-! ## A note released before it could sound (R295) -/

/-- An envelope that stays silent: at level 0, with no ramp that rises. -/
def Env.Silenced (e : Env) : Prop := e.level = 0 ∧ (e.stage = .idle ∨ e.stage = .release)

/-- A legal bank in which every voice stays silent. -/
def Bank.Silenced (bk : Bank) : Prop := bk.wf ∧ ∀ x ∈ bk.voices, x.env.Silenced

/-- R132.2: a Release never rises, so at level 0 it stays there until it ends in Idle. -/
theorem Env.Silenced.voiceTick {e : Env} (h : e.Silenced) (hw : e.wf) (dn : BitVec 24) {sus : Word}
    (hsus : sus.toNat ≤ 2 ^ 31) : (e.voiceTick dn sus).Silenced := by
  obtain ⟨hlevel, hidle | hrel⟩ := h
  · rw [Env.voiceTick_of_idle dn sus hidle]
    exact ⟨hlevel, .inl hidle⟩
  · obtain ⟨-, -, -, hfalls⟩ := envelopeIsMonotone e sus dn hw hsus
    obtain ⟨hle, -⟩ := hfalls hrel
    rw [hlevel] at hle
    refine ⟨BitVec.eq_of_toNat_eq (Nat.le_zero.mp hle), ?_⟩
    rw [← Env.hatTick_of_release dn sus hrel]
    exact e.hatTick_stage (.inr hrel)

theorem Bank.Silenced.tick {bk : Bank} (h : bk.Silenced) (inc : List Word) :
    (bk.tick inc).Silenced := by
  obtain ⟨hwf, hvoices⟩ := h
  refine ⟨bk.tick_wf inc hwf, fun y hy => ?_⟩
  obtain ⟨x, hx, rfl⟩ := List.mem_map.mp hy
  obtain ⟨-, hsus, hwfs⟩ := hwf
  obtain ⟨henv, -⟩ := hwfs x hx
  by_cases hidle : x.env.stage = .idle
  · rw [Voice.tick_of_idle hidle]
    exact hvoices x hx
  · obtain ⟨hticked, -⟩ :=
      Voice.envTick_fields bk.decayN bk.sustain { x with phase := x.nextPhase inc }
    rw [Voice.tick_of_not_idle hidle, hticked]
    exact (hvoices x hx).voiceTick henv bk.decayN hsus

theorem Bank.Silenced.out_eq_zero {bk : Bank} (h : bk.Silenced) (inc : List Word) :
    bk.out inc = 0 := by
  obtain ⟨-, hvoices⟩ := h
  refine List.sum_eq_zero fun y hy => ?_
  obtain ⟨x, hx, rfl⟩ := List.mem_map.mp hy
  obtain ⟨hlevel, -⟩ := hvoices x hx
  exact Voice.sample_of_level_zero hlevel inc bk.wave

/-- The NOTE_OFF of the note that a voice was just allocated for releases the voice. -/
theorem Voice.noteOff_allocate (n : BitVec 7) (c : Word) (a r : BitVec 24) (x : Voice) :
    ((x.allocate n c a).noteOff n r).env = (x.env.enterAttack a).enterRelease r := by
  have hholds : (x.allocate n c a).holds n :=
    (Voice.holds_iff n _).mpr ⟨rfl, Voice.allocate_note n c a x, .inl (Voice.allocate_stage n c a x)⟩
  rw [Voice.noteOff_of_holds hholds]
  rfl

/-- An Idle voice holds no note, so a NOTE_OFF leaves it. -/
theorem Voice.noteOff_of_idle {x : Voice} (h : x.env.stage = .idle) (n : BitVec 7) (r : BitVec 24) :
    x.noteOff n r = x :=
  Voice.noteOff_of_not_holds (fun hholds => by simp [Voice.holds_iff, h] at hholds) r

/-- A NOTE_ON and its NOTE_OFF leave an Idle bank silent: the voice allocated goes through Attack into
Release at the level 0 of an Idle voice, and the other voices stay Idle. -/
theorem Bank.silenced_noteOff_noteOn {bk : Bank} (hwf : bk.wf)
    (hidle : ∀ x ∈ bk.voices, x.env.stage = .idle) (n : BitVec 7) :
    ((bk.noteOn n).noteOff n).Silenced := by
  refine ⟨Bank.noteOff_wf n _ (Bank.noteOn_wf n bk hwf), fun z hz => ?_⟩
  obtain ⟨-, -, hwfs⟩ := hwf
  obtain ⟨y, hy, rfl⟩ := List.mem_map.mp hz
  rcases mem_modify hy with hy | ⟨x, hx, rfl⟩
  · rw [Voice.noteOff_of_idle (hidle y hy)]
    exact ⟨(hwfs y hy).level_of_idle (hidle y hy), .inl (hidle y hy)⟩
  · rw [Voice.noteOff_allocate]
    exact ⟨(hwfs x hx).level_of_idle (hidle x hx), .inr rfl⟩

/-- Settles O46, by the invariant `Bank.Silenced`: the two commands establish it on an Idle bank, every
TICK keeps it, and a bank that meets it gives 0. -/
theorem noteOnThenOffNeverSounds : Obligations.NoteOnThenOffNeverSounds := by
  intro bk n inc k hwf hidle
  have hstart := Bank.silenced_noteOff_noteOn hwf hidle n
  have hticks : ((Bank.tick inc)^[k] ((bk.noteOn n).noteOff n)).Silenced :=
    Function.Iterate.rec Bank.Silenced hstart (fun _ hb => hb.tick inc) k
  exact hticks.out_eq_zero inc

end Sys2Proof.Machine
